-- ==== Sys2Proof/Word.lean ====
section
/-! DEFINITION. The word types of the RSBM codec block: 32-bit registers, bytes, 64-bit command words, register numbers
and the two stream selectors. -/

namespace Sys2Proof

/-- A general register, CSR or immediate: XLEN = 32 bits (00_scope.md R5, 10_state.md R11). -/
abbrev Word := BitVec 32

/-- One byte of BUF (10_state.md R23). -/
abbrev Byte := BitVec 8

/-- One command of PROG (30_encoding.md R60). -/
abbrev CmdWord := BitVec 64

/-- A general register number, X0 to X15 (10_state.md R11). -/
abbrev Reg := Fin 16

/-- The two bit-stream buffers, NBS = 2 (10_state.md R20). -/
inductive StreamId where
  | bs0
  | bs1
  deriving DecidableEq, Repr

end Sys2Proof
end

