-- ==== Sys2Proof/Machine/Csr.lean ====
section
/-! DEFINITION. The eleven control and status registers and their 12-bit numbers (10_state.md R16). -/

namespace Sys2Proof

/-- The CSRs by name (10_state.md R16). -/
inductive Csr where
  | status | epc | einfo
  | gfKind | gfSize | gfPoly | gfAlpha | gfBase | gfValid
  | meMode | meShift
  deriving DecidableEq, Repr

/-- The number column of the CSR table (10_state.md R16). -/
def Csr.number : Csr → BitVec 12
  | .status => 0x000
  | .epc => 0x001
  | .einfo => 0x002
  | .gfKind => 0x010
  | .gfSize => 0x011
  | .gfPoly => 0x012
  | .gfAlpha => 0x013
  | .gfBase => 0x014
  | .gfValid => 0x015
  | .meMode => 0x020
  | .meShift => 0x021

/-- Every CSR, in the order of the table (10_state.md R16). -/
def Csr.all : List Csr :=
  [.status, .epc, .einfo, .gfKind, .gfSize, .gfPoly, .gfAlpha, .gfBase, .gfValid, .meMode, .meShift]

/-- The CSR of a number; numbers not in the table do not exist (10_state.md R16). -/
def Csr.ofNumber (n : BitVec 12) : Option Csr :=
  Csr.all.find? fun c => c.number == n

/-- The access column of the CSR table: the five GF configuration registers are RW, all others RO (10_state.md R16). -/
def Csr.writable : Csr → Bool
  | .gfKind | .gfSize | .gfPoly | .gfAlpha | .gfBase => true
  | .status | .epc | .einfo | .gfValid | .meMode | .meShift => false

end Sys2Proof
end

