-- ==== Sys2Proof/Config.lean ====
section
/-! DEFINITION. The implementation parameters of 00_scope.md R5 with the constraints the rule puts on them. They are an
argument of the model: State carries them and no step changes them. -/

namespace Sys2Proof

/-- The constraint column of the parameter table (00_scope.md R5). -/
def paramsOk (bsCap bufCap cwCap gfMaxSize : Nat) : Bool :=
  bsCap % 8 == 0 && decide (8 ≤ bsCap) && decide (bsCap < 2 ^ 32) &&
  decide (1 ≤ bufCap) && decide (bufCap < 2 ^ 32) &&
  decide (gfMaxSize ≤ cwCap) && decide (cwCap < 2 ^ 32) &&
  decide (4 ≤ gfMaxSize) && decide (gfMaxSize ≤ 2 ^ 16)

/-- BS_CAP, BUF_CAP, CW_CAP and GF_MAXSIZE, of values the rule allows (00_scope.md R5). -/
structure Params where
  bsCap : Nat
  bufCap : Nat
  cwCap : Nat
  gfMaxSize : Nat
  ok : paramsOk bsCap bufCap cwCap gfMaxSize = true
  deriving DecidableEq, Repr

/-- The default column of 00_scope.md R5, which the spec's test vectors use. -/
def Params.default : Params where
  bsCap := 65536
  bufCap := 4096
  cwCap := 4096
  gfMaxSize := 4096
  ok := by decide

end Sys2Proof
end

