-- ==== Sys2Proof/Machine/Memory.lean ====
section
/-! DEFINITION. The storage of the indexed spaces BUF, CW and ER (20_memory.md R40): a list of (index, entry) pairs in one
canonical form, indices strictly rising and no entry equal to 0, which is what an unlisted entry reads as (10_state.md R26). -/

namespace Sys2Proof.Machine

/-- A space of w-bit entries; for w = 8 its pairs are `Host.Cell`. -/
abbrev Memory (w : Nat) := List (Nat × BitVec w)

/-- What an entry that nothing has written reads as: the reset contents (10_state.md R26). -/
def Memory.unlisted (w : Nat) : BitVec w := 0

/-- MemRead(S, a, 1) (20_memory.md R41). -/
def Memory.read {w : Nat} : Memory w → Nat → BitVec w
  | [], _ => Memory.unlisted w
  | (k, v) :: m, a => if k = a then v else Memory.read m a

/-- MemWrite(S, a, 1, v) (20_memory.md R41), keeping the canonical form. -/
def Memory.write {w : Nat} : Memory w → Nat → BitVec w → Memory w
  | [], a, v => if v = Memory.unlisted w then [] else [(a, v)]
  | (k, u) :: m, a, v =>
    if k < a then (k, u) :: Memory.write m a v
    else
      let tail := if k = a then m else (k, u) :: m
      if v = Memory.unlisted w then tail else (a, v) :: tail

/-- Successive writes of entries from index a up, the first at the lowest index (20_memory.md R41). -/
def Memory.writeList {w : Nat} (m : Memory w) (a : Nat) : List (BitVec w) → Memory w
  | [] => m
  | v :: vs => Memory.writeList (Memory.write m a v) (a + 1) vs

/-- Entries a .. a+n-1, in order (20_memory.md R41). -/
def Memory.readRange {w : Nat} (m : Memory w) (a n : Nat) : List (BitVec w) :=
  (List.range n).map fun j => m.read (a + j)

/-- The canonical form: every index is above `low`, indices strictly rise, no entry is the unlisted value, and every
index is below `cap`. -/
def Memory.wfFrom {w : Nat} (cap : Nat) : Nat → Memory w → Bool
  | _, [] => true
  | low, (k, v) :: m => decide (low ≤ k) && decide (k < cap) && (v != Memory.unlisted w) && Memory.wfFrom cap (k + 1) m

/-- The memory is canonical and lists only entries of a space of `cap` entries (20_memory.md R45). -/
def Memory.wf {w : Nat} (cap : Nat) (m : Memory w) : Bool := Memory.wfFrom cap 0 m

end Sys2Proof.Machine
end

