-- ==== Sys2Proof/Machine/ModeTable.lean ====
section
/-! DEFINITION. The mode table MT of the mode-encoder unit (44_mode_encoder.md R181) and its well-formedness WF(MT) (R182).
A table that breaks WF is unrepresentable (93_implementation_defined.md U21): `ModeTable` carries the check. -/

namespace Sys2Proof.Machine

/-- The components of MT (44_mode_encoder.md R181). Each partial map is the list of its pairs. -/
structure RawTable where
  /-- NM, the number of modes. -/
  nm : Nat
  /-- DM, the default mode. -/
  dm : Nat
  /-- W[m], the width in bits of every code of mode m. -/
  width : List Nat
  /-- SYM[m], from byte strings of length 1 or 2 to codes. -/
  sym : List (List (List Byte × Nat))
  /-- LATCH, from pairs (m, m') to codes emitted in mode m. -/
  latch : List ((Nat × Nat) × Nat)
  /-- SHIFT, from pairs (m, m') to codes emitted in mode m. -/
  shift : List ((Nat × Nat) × Nat)
  /-- BSH, from modes to codes. -/
  bsh : List (Nat × Nat)
  /-- WS, the width of the short length field. -/
  ws : Nat
  /-- WL, the width of the long length field. -/
  wl : Nat
  deriving DecidableEq, Repr

/-- W[m] (44_mode_encoder.md R181). -/
def RawTable.w (t : RawTable) (m : Nat) : Nat := t.width.getD m 0

/-- The pairs of SYM[m] (44_mode_encoder.md R181). -/
def RawTable.symOf (t : RawTable) (m : Nat) : List (List Byte × Nat) := t.sym.getD m []

/-- SYM[m](key), when key is in the domain (44_mode_encoder.md R181). -/
def RawTable.symCode (t : RawTable) (m : Nat) (key : List Byte) : Option Nat := (t.symOf m).lookup key

/-- LATCH(m, m'), when the pair is in the domain (44_mode_encoder.md R181). -/
def RawTable.latchCode (t : RawTable) (m m' : Nat) : Option Nat := t.latch.lookup (m, m')

/-- SHIFT(m, m'), when the pair is in the domain (44_mode_encoder.md R181). -/
def RawTable.shiftCode (t : RawTable) (m m' : Nat) : Option Nat := t.shift.lookup (m, m')

/-- BSH(m), when m is in the domain (44_mode_encoder.md R181). -/
def RawTable.bshCode (t : RawTable) (m : Nat) : Option Nat := t.bsh.lookup m

/-- SMAX = 2^WS - 1, the longest run of the short form (44_mode_encoder.md R181). -/
def RawTable.smax (t : RawTable) : Nat := 2 ^ t.ws - 1

/-- LMAX = SMAX + 2^WL - 1, the longest run at all (44_mode_encoder.md R181). -/
def RawTable.lmax (t : RawTable) : Nat := t.smax + 2 ^ t.wl - 1

/-- The pairs of a map over mode pairs whose source is m. -/
def codesFrom (pairs : List ((Nat × Nat) × Nat)) (m : Nat) : List Nat :=
  (pairs.filter fun p => p.1.1 == m).map Prod.snd

/-- The codes of mode m: the values of SYM[m], of LATCH(m, ·), of SHIFT(m, ·) and BSH(m) (44_mode_encoder.md R181). -/
def RawTable.codes (t : RawTable) (m : Nat) : List Nat :=
  (t.symOf m).map Prod.snd ++ codesFrom t.latch m ++ codesFrom t.shift m ++
    (t.bsh.filter fun p => p.1 == m).map Prod.snd

/-- No element occurs twice. -/
def distinct {α : Type} [BEq α] : List α → Bool
  | [] => true
  | a :: as => !as.elem a && distinct as

/-- A width of the table is in 1 .. 16 (44_mode_encoder.md R181). -/
def widthOk (n : Nat) : Bool := decide (1 ≤ n) && decide (n ≤ 16)

/-- Every pair of LATCH or SHIFT joins two different modes below NM (44_mode_encoder.md R182). -/
def pairsOk (nm : Nat) (pairs : List ((Nat × Nat) × Nat)) : Bool :=
  pairs.all fun p => decide (p.1.1 < nm) && decide (p.1.2 < nm) && (p.1.1 != p.1.2)

/-- The lists stand for maps: no key of a map is listed twice. -/
def RawTable.keysDistinct (t : RawTable) : Bool :=
  (t.sym.all fun l => distinct (l.map Prod.fst)) && distinct (t.latch.map Prod.fst) &&
    distinct (t.shift.map Prod.fst) && distinct (t.bsh.map Prod.fst)

/-- WF(MT) (44_mode_encoder.md R182). -/
def RawTable.wf (t : RawTable) : Bool :=
  decide (1 ≤ t.nm) && decide (t.nm ≤ 16) && decide (t.dm < t.nm) &&
  (t.width.length == t.nm) && t.width.all widthOk && widthOk t.ws && widthOk t.wl &&
  (t.sym.length == t.nm) && (t.sym.all fun l => l.all fun e => e.1.length == 1 || e.1.length == 2) &&
  pairsOk t.nm t.latch && pairsOk t.nm t.shift && (t.bsh.all fun p => decide (p.1 < t.nm)) &&
  t.keysDistinct &&
  (List.range t.nm).all fun m => distinct (t.codes m) && (t.codes m).all fun c => decide (c < 2 ^ t.w m)

/-- A mode table the host may give: WF is a precondition of the model (44_mode_encoder.md R182). -/
structure ModeTable where
  raw : RawTable
  wf : raw.wf = true
  deriving DecidableEq, Repr

end Sys2Proof.Machine
end

