-- ==== Sys2Proof/Machine/State.lean ====
section
/-! DEFINITION. The whole state of the RSBM codec block (10_state.md), the two ways a step can end outside a next state,
and the state after reset (10_state.md R26, 70_reset_and_hazards.md R250). -/

namespace Sys2Proof.Machine

/-- RUNSTATE (10_state.md R14). -/
inductive RunState where
  | run
  | halted
  | faulted
  deriving DecidableEq, Repr

/-- The twelve fault names of the spec (60_exceptions.md R220). A fault of the spec is a next state of the model, with
FCODE, EPC, EINFO and RUNSTATE written (R224). -/
inductive FaultName where
  | illegalCommand
  | outOfRange
  | invalidBitCount
  | incompatibleField
  | dimensionMismatch
  | malformedInput
  | checksumException
  | unencodableCharacter
  | messageTooLarge
  | invalidConfig
  | fieldDomain
  | illegalTransition
  deriving DecidableEq, Repr

/-- The model's step has no next state: the block is quiescent (70_reset_and_hazards.md R252). No instruction raises one of
these; only `step` does, before any command is fetched. -/
inductive Fault where
  /-- Raised by `step` when RUNSTATE = HALTED: a HALT has ended the run. Safe. -/
  | halted
  /-- Raised by `step` when RUNSTATE = FAULTED: a fault has ended the run. Safe. -/
  | faulted
  /-- Raised by `step` when RUNSTATE = RUN and CP is past the last command of PROG: the run ended normally. Safe. -/
  | endOfProgram
  deriving DecidableEq, Repr

/-- Why the model gives a command no meaning. -/
inductive Refusal where
  /-- Raised by an arm of `exec` whose command has no meaning yet; no arm of this model does. Safe. -/
  | notModelled (mnemonic : String)
  deriving DecidableEq, Repr

/-- Every piece of state 10_state.md gives the block, and the run's fixed inputs PROG, MT and parameters (R24). -/
structure State where
  /-- X0 .. X15 (R11). -/
  x : Vector Word 16
  /-- The command pointer CP, an index into PROG (R12). -/
  cp : Word
  /-- RUNSTATE (R14). -/
  runstate : RunState
  /-- FCODE, STATUS[15:8] (R16). -/
  fcode : BitVec 8
  /-- EPC (R16). -/
  epc : Word
  /-- EINFO (R16). -/
  einfo : Word
  /-- GF_KIND (R16). -/
  gfKind : Word
  /-- GF_SIZE (R16). -/
  gfSize : Word
  /-- GF_POLY (R16). -/
  gfPoly : Word
  /-- GF_ALPHA (R16). -/
  gfAlpha : Word
  /-- GF_BASE (R16). -/
  gfBase : Word
  /-- GF_VALID (R16, R18). -/
  gfValid : Bool
  /-- EXP[0 .. q-2] (R19). -/
  exp : List Nat
  /-- LOG[1 .. q-1]; entry a of the spec stands at index a - 1 (R19). -/
  log : List Nat
  /-- BS[0], first bit first (R20). -/
  bs0 : List Bool
  /-- BS[1], first bit first (R20). -/
  bs1 : List Bool
  /-- BUF (R23). -/
  buf : Memory 8
  /-- CW (R23). -/
  cw : Memory 16
  /-- ER (R21). -/
  er : Memory 1
  /-- ME_MODE (R22). -/
  meMode : BitVec 8
  /-- SHV (R22). -/
  shv : Bool
  /-- SHM (R22). -/
  shm : BitVec 8
  /-- PROG (R24). -/
  prog : List CmdWord
  /-- MT, or absent (R24). -/
  mt : Option ModeTable
  /-- The parameters of 00_scope.md R5 (R24). -/
  params : Params
  deriving DecidableEq, Repr

/-- Reset with the run's inputs supplied: every piece of state at its value of 10_state.md R26 (70_reset_and_hazards.md
R250). EXP and LOG are unspecified there and unreadable; the model takes empty tables (assumption 4). -/
def State.afterReset (params : Params) (mt : Option ModeTable) (prog : List CmdWord) : State where
  x := Vector.replicate 16 0
  cp := 0
  runstate := .run
  fcode := 0
  epc := 0
  einfo := 0
  gfKind := 0
  gfSize := 0
  gfPoly := 0
  gfAlpha := 0
  gfBase := 0
  gfValid := false
  exp := []
  log := []
  bs0 := []
  bs1 := []
  buf := []
  cw := []
  er := []
  meMode :=
    match mt with
    | some t => BitVec.ofNat 8 t.raw.dm
    | none => 0
  shv := false
  shm := 0
  prog := prog
  mt := mt
  params := params

/-- The machine right after reset, nothing loaded by the host yet: default parameters, MT absent, PROG empty
(assumption 3). -/
def State.reset : State := State.afterReset Params.default none []

end Sys2Proof.Machine
end

