-- ==== Sys2Proof/Machine/Flags.lean ====
section
/-! DEFINITION. The block has no status flags or condition codes (10_state.md R15); a command reports an outcome by the value
it writes to rd. This file holds those result values and the packed status words STATUS and ME_SHIFT (10_state.md R16). -/

namespace Sys2Proof.Machine

/-- A truth value as a result word: 1 or 0 (60_exceptions.md R221). -/
def boolWord (b : Bool) : Word := if b then 1 else 0

/-- The number of RUNSTATE: RUN 0, HALTED 1, FAULTED 2 (10_state.md R14). -/
def RunState.code : RunState → BitVec 2
  | .run => 0
  | .halted => 1
  | .faulted => 2

/-- STATUS: [1:0] RUNSTATE, [7:2] zero, [15:8] FCODE, [31:16] zero (10_state.md R16). -/
def statusWord (r : RunState) (fcode : BitVec 8) : Word :=
  (0 : BitVec 16) ++ fcode ++ (0 : BitVec 6) ++ r.code

/-- ME_SHIFT: [7:0] SHM, [8] SHV, [31:9] zero (10_state.md R16). -/
def meShiftWord (shv : Bool) (shm : BitVec 8) : Word :=
  (0 : BitVec 23) ++ BitVec.ofBool shv ++ shm

end Sys2Proof.Machine
end

