-- ==== Sys2Proof/Machine/Ops.lean ====
section
/-! DEFINITION. The operations every command is written over: registers, streams, CSRs, the two ways a command ends
(`State.complete`, `State.raise`), Append (41_bitstream.md R112) and command fetch (40_system_and_memory_commands.md R90). -/

namespace Sys2Proof.Machine

/-- What a command answers. -/
abbrev Result := Host.Outcome State Fault Refusal

/-- x[r] (00_scope.md R7). -/
def State.reg (s : State) (r : Reg) : Word := s.x[r.val]

/-- x[r] <- v; no register is hard-wired (10_state.md R11). -/
def State.setReg (s : State) (r : Reg) (v : Word) : State := { s with x := s.x.set r.val v }

/-- BS[k] (00_scope.md R7). -/
def State.stream (s : State) : StreamId → List Bool
  | .bs0 => s.bs0
  | .bs1 => s.bs1

/-- BS[k] <- bits; the other stream is untouched (41_bitstream.md R100). -/
def State.setStream (s : State) (k : StreamId) (bits : List Bool) : State :=
  match k with
  | .bs0 => { s with bs0 := bits }
  | .bs1 => { s with bs1 := bits }

/-- SIZE[k] (10_state.md R20). -/
def State.size (s : State) (k : StreamId) : Nat := (s.stream k).length

/-! ## How a command ends -/

/-- The code column of the fault list (60_exceptions.md R220). -/
def FaultName.code : FaultName → BitVec 8
  | .illegalCommand => 1
  | .outOfRange => 2
  | .invalidBitCount => 3
  | .incompatibleField => 4
  | .dimensionMismatch => 5
  | .malformedInput => 6
  | .checksumException => 7
  | .unencodableCharacter => 8
  | .messageTooLarge => 9
  | .invalidConfig => 10
  | .fieldDomain => 11
  | .illegalTransition => 12

/-- Fault entry (60_exceptions.md R224): FCODE, EPC, EINFO and RUNSTATE, and nothing else. There is no return from a fault
but reset (R225), which is `State.afterReset`. -/
def State.faultEntry (s : State) (f : FaultName) (info : Nat) : State :=
  { s with fcode := f.code, epc := s.cp, einfo := BitVec.ofNat 32 info, runstate := .faulted }

/-- `raise F(v)` (00_scope.md R7): the whole effect of the step is fault entry. -/
def State.raise (s : State) (f : FaultName) (info : Nat) : Result := .next (s.faultEntry f info)

/-- cp <- cp + 1 (10_state.md R13). -/
def State.advance (s : State) : State := { s with cp := s.cp + 1 }

/-- A command that completes without a fault performs cp <- cp + 1 as its last action (10_state.md R13). -/
def State.complete (s : State) : Result := .next s.advance

/-! ## Control and status registers -/

/-- CSR[c] with the field layout of 10_state.md R16. -/
def State.csrRead (s : State) : Csr → Word
  | .status => statusWord s.runstate s.fcode
  | .epc => s.epc
  | .einfo => s.einfo
  | .gfKind => s.gfKind
  | .gfSize => s.gfSize
  | .gfPoly => s.gfPoly
  | .gfAlpha => s.gfAlpha
  | .gfBase => s.gfBase
  | .gfValid => boolWord s.gfValid
  | .meMode => s.meMode.setWidth 32
  | .meShift => meShiftWord s.shv s.shm

/-- CSR[c] <- v for the five RW registers; a read-only register cannot be written (10_state.md R16, R18). -/
def State.csrWrite (s : State) (c : Csr) (v : Word) : Option State :=
  match c with
  | .gfKind => some { s with gfKind := v, gfValid := false }
  | .gfSize => some { s with gfSize := v, gfValid := false }
  | .gfPoly => some { s with gfPoly := v, gfValid := false }
  | .gfAlpha => some { s with gfAlpha := v, gfValid := false }
  | .gfBase => some { s with gfBase := v, gfValid := false }
  | .status | .epc | .einfo | .gfValid | .meMode | .meShift => none

/-! ## Bits and Append -/

/-- Bits(v, n): the n low bits of v, most significant first (41_bitstream.md R112). -/
def bitsOf (v n : Nat) : List Bool := (List.range n).map fun i => v.testBit (n - 1 - i)

/-- The number of a bit sequence, first bit most significant (20_memory.md R42). -/
def bitsValue (bits : List Bool) : Nat := bits.foldl (fun acc b => 2 * acc + b.toNat) 0

/-- Append(k, bits) as a command's last action (41_bitstream.md R112): MessageTooLarge when the stream would pass BS_CAP,
else the bits go to the end of BS[k], `after` makes the command's other writes, and the command completes. -/
def State.appendThen (s : State) (k : StreamId) (bits : List Bool) (after : State → State) : Result :=
  if s.params.bsCap < s.size k + bits.length then s.raise .messageTooLarge (s.size k + bits.length)
  else (after (s.setStream k (s.stream k ++ bits))).complete

/-! ## Command fetch -/

/-- The command at CP, or why the block is quiescent (40_system_and_memory_commands.md R90, 70_reset_and_hazards.md
R252). -/
def State.fetch (s : State) : Except Fault CmdWord :=
  match s.runstate with
  | .halted => .error .halted
  | .faulted => .error .faulted
  | .run =>
    match s.prog[s.cp.toNat]? with
    | some w => .ok w
    | none => .error .endOfProgram

/-- The opcode byte of a word, word bits 63:56, the EINFO of IllegalCommand (60_exceptions.md R233). -/
def opcodeByte (w : CmdWord) : Nat := (w.extractLsb' 56 8).toNat

end Sys2Proof.Machine
end

