-- ==== Sys2Proof/Machine/Operands.lean ====
section
/-! DEFINITION. The operand forms of the commands: unsigned register values, the one addressing mode register plus
unsigned immediate (20_memory.md R46), windows of BUF and the packing of stream bits into bytes. -/

namespace Sys2Proof.Machine

/-- A register operand read as a full 32-bit unsigned number (30_encoding.md R61). -/
def State.val (s : State) (r : Reg) : Nat := (s.reg r).toNat

/-- A register operand read as a truth value: any non-zero value is true (41_bitstream.md R102, R106). -/
def State.truth (s : State) (r : Reg) : Bool := s.reg r != 0

/-- The effective index x[rs1] + imm, unbounded and never wrapped (20_memory.md R46). -/
def State.index (s : State) (rs1 : Reg) (imm : Word) : Nat := s.val rs1 + imm.toNat

/-- BUF[o .. o+l-1] (20_memory.md R41). -/
def State.window (s : State) (o l : Nat) : List Byte := s.buf.readRange o l

/-- CW[0 .. n-1] as numbers (43_reed_solomon.md R151). -/
def State.codewords (s : State) (n : Nat) : List Nat := (s.cw.readRange 0 n).map BitVec.toNat

/-- Stream bit p, 0 past the end of the stream (41_bitstream.md R107). -/
def bitAt (bits : List Bool) (p : Nat) : Bool := bits.getD p false

/-- The byte of stream bits p .. p+7, the lowest index in bit 7 (20_memory.md R42, 41_bitstream.md R107). -/
def byteAt (bits : List Bool) (p : Nat) : Byte :=
  BitVec.ofNat 8 (bitsValue ((List.range 8).map fun t => bitAt bits (p + t)))

/-- The nb bytes of the stream from bit o on (41_bitstream.md R107). -/
def bytesFrom (bits : List Bool) (o nb : Nat) : List Byte :=
  (List.range nb).map fun j => byteAt bits (o + 8 * j)

/-- The least multiple of 8 that is at least v (00_scope.md R6). -/
def ceil8 (v : Nat) : Nat := (v + 7) / 8 * 8

/-- Bits s .. s+l-1 of a stream (41_bitstream.md R109). -/
def subrange (bits : List Bool) (s l : Nat) : List Bool := (bits.drop s).take l

end Sys2Proof.Machine
end

