-- ==== Sys2Proof/Machine/BitStream.lean ====
section
/-! DEFINITION. The BitStream unit: BS.CLR, BS.APPENDBIT, BS.APPEND, BS.SIZE, BS.GET, BS.ISRANGE, BS.TOBYTES, BS.REVERSE,
BS.COPY, BS.CLONE, BS.TERM (41_bitstream.md R101 to R111). -/

namespace Sys2Proof.Machine

/-- BS.CLR BSk (R101). -/
def execBsClr (k : StreamId) (s : State) : Result := (s.setStream k []).complete

/-- BS.APPENDBIT BSk, Xs1 (R102): any non-zero value appends a 1. -/
def execBsAppendbit (k : StreamId) (rs1 : Reg) (s : State) : Result := s.appendThen k [s.truth rs1] id

/-- BS.APPEND BSk, Xs1, Xs2 (R103): value and numBits; a value wider than numBits is rejected, never masked. -/
def execBsAppend (k : StreamId) (rs1 rs2 : Reg) (s : State) : Result :=
  let v := s.val rs1
  let n := s.val rs2
  if 32 < n then s.raise .invalidBitCount n
  else if n < 32 ∧ 2 ^ n ≤ v then s.raise .invalidBitCount n
  else s.appendThen k (bitsOf v n) id

/-- BS.SIZE Xd, BSk (R104). -/
def execBsSize (rd : Reg) (k : StreamId) (s : State) : Result :=
  (s.setReg rd (BitVec.ofNat 32 (s.size k))).complete

/-- BS.GET Xd, BSk, Xs1 (R105). -/
def execBsGet (rd : Reg) (k : StreamId) (rs1 : Reg) (s : State) : Result :=
  let i := s.val rs1
  if s.size k ≤ i then s.raise .outOfRange i
  else (s.setReg rd (boolWord (bitAt (s.stream k) i))).complete

/-- BS.ISRANGE Xd, BSk, Xs1, Xs2, Xs3 (R106): start, end (exclusive), value. -/
def execBsIsrange (rd : Reg) (k : StreamId) (rs1 rs2 rs3 : Reg) (s : State) : Result :=
  let b := s.val rs1
  let e := s.val rs2
  if e < b ∨ s.size k < e then s.raise .outOfRange e
  else (s.setReg rd (boolWord ((subrange (s.stream k) b (e - b)).all (· == s.truth rs3)))).complete

/-- BS.TOBYTES BSk, Xs1, Xs2, Xs3 (R107): bitOffset, byteOffset, numBytes; only BUF is written. -/
def execBsTobytes (k : StreamId) (rs1 rs2 rs3 : Reg) (s : State) : Result :=
  let o := s.val rs1
  let y := s.val rs2
  let nb := s.val rs3
  if s.size k < o then s.raise .outOfRange o
  else if ceil8 (s.size k - o) < 8 * nb then s.raise .outOfRange nb
  else if s.params.bufCap < y + nb then s.raise .outOfRange (y + nb)
  else State.complete { s with buf := s.buf.writeList y (bytesFrom (s.stream k) o nb) }

/-- BS.REVERSE BSk (R108): new[i] = old[n-1-i]. -/
def execBsReverse (k : StreamId) (s : State) : Result := (s.setStream k (s.stream k).reverse).complete

/-- BS.COPY BSk, BSks, Xs1, Xs2 (R109): start and length; the subrange is read before the write. -/
def execBsCopy (k ks : StreamId) (rs1 rs2 : Reg) (s : State) : Result :=
  let b := s.val rs1
  let l := s.val rs2
  if s.size ks < b + l then s.raise .outOfRange (b + l)
  else s.appendThen k (subrange (s.stream ks) b l) id

/-- BS.CLONE BSk, BSks (R110). -/
def execBsClone (k ks : StreamId) (s : State) : Result := (s.setStream k (s.stream ks)).complete

/-- BS.TERM BSk (R111): zero bits up to the next multiple of 8. -/
def execBsTerm (k : StreamId) (s : State) : Result :=
  s.appendThen k (List.replicate (ceil8 (s.size k) - s.size k) false) id

end Sys2Proof.Machine
end

