-- ==== Sys2Proof/Machine/Field.lean ====
section
/-! DEFINITION. The configured field as pure functions over its tables (42_galois_field.md R120 to R129) and the
construction of the tables (R122, R124, R125). -/

namespace Sys2Proof.Machine

/-- A field as the GFU holds it: its kind, size and tables (42_galois_field.md R120, R125). -/
structure FieldTables where
  /-- Kind BIN, GF(2^m); otherwise kind PRIME. -/
  bin : Bool
  /-- The size q. -/
  q : Nat
  /-- EXP[0 .. q-2]. -/
  expT : List Nat
  /-- LOG[1 .. q-1]; entry a at index a - 1. -/
  logT : List Nat
  deriving DecidableEq, Repr

/-- The field the unit holds while GF_VALID = 1 (10_state.md R19). -/
def State.field (s : State) : FieldTables where
  bin := s.gfKind == 0
  q := s.gfSize.toNat
  expT := s.exp
  logT := s.log

/-- EXP[i], for 0 ≤ i ≤ q-2 (42_galois_field.md R125). -/
def FieldTables.exp (F : FieldTables) (i : Nat) : Nat := F.expT.getD i 0

/-- LOG[a], for 1 ≤ a ≤ q-1 (42_galois_field.md R125, R129). -/
def FieldTables.glog (F : FieldTables) (a : Nat) : Nat := F.logT.getD (a - 1) 0

/-- a ⊕ b (42_galois_field.md R126). -/
def FieldTables.add (F : FieldTables) (a b : Nat) : Nat := if F.bin then a ^^^ b else (a + b) % F.q

/-- a ⊖ b (42_galois_field.md R126). -/
def FieldTables.sub (F : FieldTables) (a b : Nat) : Nat := if F.bin then a ^^^ b else (a + F.q - b) % F.q

/-- neg(a) (42_galois_field.md R126). -/
def FieldTables.neg (F : FieldTables) (a : Nat) : Nat := if F.bin then a else (F.q - a) % F.q

/-- a ⊗ b, by the tables (42_galois_field.md R127). -/
def FieldTables.mul (F : FieldTables) (a b : Nat) : Nat :=
  if a = 0 ∨ b = 0 then 0 else F.exp ((F.glog a + F.glog b) % (F.q - 1))

/-- inv(a), for a ≠ 0 (42_galois_field.md R128). -/
def FieldTables.inv (F : FieldTables) (a : Nat) : Nat := F.exp ((F.q - 1 - F.glog a) % (F.q - 1))

/-- a ⊘ b, for b ≠ 0 (42_galois_field.md R128). -/
def FieldTables.div (F : FieldTables) (a b : Nat) : Nat :=
  if a = 0 then 0 else F.exp ((F.glog a + (F.q - 1) - F.glog b) % (F.q - 1))

/-- gexp(i) = EXP[i mod (q-1)], written α^i (42_galois_field.md R129). -/
def FieldTables.gexp (F : FieldTables) (i : Nat) : Nat := F.exp (i % (F.q - 1))

/-! ## Building the tables -/

/-- next(v) of kind BIN: multiplication by x modulo the polynomial (42_galois_field.md R122). -/
def binNext (q poly v : Nat) : Nat := if 2 * v < q then 2 * v else (2 * v) ^^^ poly

/-- next(v) of kind PRIME: multiplication by the generator element modulo q (42_galois_field.md R122). -/
def primeNext (q alpha v : Nat) : Nat := (v * alpha) % q

/-- q is a power of two (42_galois_field.md R122). -/
def isPowerOfTwo (q : Nat) : Bool := 2 ^ q.log2 == q

/-- The checks of GF.BUILD before the order check; the answer is next, or the sub-code of InvalidConfig: 0 kind, 1 size,
2 polynomial, 3 generator (42_galois_field.md R122). -/
def nextOf (maxSize kind q poly alpha : Nat) : Except Nat (Nat → Nat) :=
  if kind = 0 then
    if q < 4 ∨ maxSize < q ∨ isPowerOfTwo q = false then .error 1
    else if poly < q ∨ 2 * q ≤ poly then .error 2
    else .ok (binNext q poly)
  else if kind = 1 then
    if q < 3 ∨ maxSize < q then .error 1
    else if alpha < 2 ∨ q ≤ alpha then .error 3
    else .ok (primeNext q alpha)
  else .error 0

/-- v, next(v), next(next(v)), ..., n entries (42_galois_field.md R122). -/
def powersFrom (next : Nat → Nat) : Nat → Nat → List Nat
  | 0, _ => []
  | n + 1, v => v :: powersFrom next n (next v)

/-- The order check over e_0 .. e_(q-1): e_(q-1) = 1, no e_i = 0 and e_0 .. e_(q-2) pairwise distinct
(42_galois_field.md R122, R124). -/
def orderOk (q : Nat) (e : List Nat) : Bool :=
  (e.getD (q - 1) 0 == 1) && !e.elem 0 && distinct (e.take (q - 1))

/-- LOG[1 .. q-1] of EXP: LOG[a] is the i with EXP[i] = a (42_galois_field.md R125). -/
def logTable (q : Nat) (expT : List Nat) : List Nat := (List.range (q - 1)).map fun j => expT.idxOf (j + 1)

/-- GF.BUILD's tables EXP and LOG, or the sub-code of InvalidConfig (42_galois_field.md R122). -/
def buildTables (maxSize kind q poly alpha : Nat) : Except Nat (List Nat × List Nat) :=
  match nextOf maxSize kind q poly alpha with
  | .error code => .error code
  | .ok next =>
    let e := powersFrom next q 1
    if orderOk q e then .ok (e.take (q - 1), logTable q (e.take (q - 1))) else .error 4

end Sys2Proof.Machine
end

