-- ==== Sys2Proof/Machine/GaloisField.lean ====
section
/-! DEFINITION. The Galois-field unit's commands: GF.BUILD, GF.ADD, GF.SUB, GF.MUL, GF.DIV, GF.INV, GF.EXP, GF.LOG
(42_galois_field.md R122, R130 to R137). -/

namespace Sys2Proof.Machine

/-- GF.BUILD's answer for the configuration registers of a state (42_galois_field.md R122). -/
def State.buildResult (s : State) : Except Nat (List Nat × List Nat) :=
  buildTables s.params.gfMaxSize s.gfKind.toNat s.gfSize.toNat s.gfPoly.toNat s.gfAlpha.toNat

/-- GF.BUILD (R122): on a fault nothing is written. -/
def execGfBuild (s : State) : Result :=
  match s.buildResult with
  | .error code => s.raise .invalidConfig code
  | .ok (e, l) => State.complete { s with exp := e, log := l, gfValid := true }

/-- The first failing common check of R130: no field built, then the first operand that is no field element. -/
def State.operandFault (s : State) (operands : List Nat) : Option (FaultName × Nat) :=
  if s.gfValid = false then some (.invalidConfig, 0)
  else (operands.find? fun a => decide (s.field.q ≤ a)).map fun a => (.outOfRange, a)

/-- A one-operand or two-operand field command after its common checks (R130). -/
def State.fieldCommand (s : State) (operands : List Nat) (command : Result) : Result :=
  match s.operandFault operands with
  | some (f, info) => s.raise f info
  | none => command

/-- A field command's result: x[rd] <- v. -/
def State.fieldResult (s : State) (rd : Reg) (v : Nat) : Result := (s.setReg rd (BitVec.ofNat 32 v)).complete

/-- GF.ADD Xd, Xs1, Xs2 (R131). -/
def execGfAdd (rd rs1 rs2 : Reg) (s : State) : Result :=
  s.fieldCommand [s.val rs1, s.val rs2] (s.fieldResult rd (s.field.add (s.val rs1) (s.val rs2)))

/-- GF.SUB Xd, Xs1, Xs2 (R132). -/
def execGfSub (rd rs1 rs2 : Reg) (s : State) : Result :=
  s.fieldCommand [s.val rs1, s.val rs2] (s.fieldResult rd (s.field.sub (s.val rs1) (s.val rs2)))

/-- GF.MUL Xd, Xs1, Xs2 (R133). -/
def execGfMul (rd rs1 rs2 : Reg) (s : State) : Result :=
  s.fieldCommand [s.val rs1, s.val rs2] (s.fieldResult rd (s.field.mul (s.val rs1) (s.val rs2)))

/-- GF.DIV Xd, Xs1, Xs2 (R134): a zero divisor is FieldDomain. -/
def execGfDiv (rd rs1 rs2 : Reg) (s : State) : Result :=
  s.fieldCommand [s.val rs1, s.val rs2]
    (if s.val rs2 = 0 then s.raise .fieldDomain 0
     else s.fieldResult rd (s.field.div (s.val rs1) (s.val rs2)))

/-- GF.INV Xd, Xs1 (R135): zero has no inverse, FieldDomain. -/
def execGfInv (rd rs1 : Reg) (s : State) : Result :=
  s.fieldCommand [s.val rs1]
    (if s.val rs1 = 0 then s.raise .fieldDomain 0 else s.fieldResult rd (s.field.inv (s.val rs1)))

/-- GF.EXP Xd, Xs1 (R136): every 32-bit exponent is legal. -/
def execGfExp (rd rs1 : Reg) (s : State) : Result :=
  s.fieldCommand [] (s.fieldResult rd (s.field.gexp (s.val rs1)))

/-- GF.LOG Xd, Xs1 (R137): zero has no logarithm, FieldDomain. -/
def execGfLog (rd rs1 : Reg) (s : State) : Result :=
  s.fieldCommand [s.val rs1]
    (if s.val rs1 = 0 then s.raise .fieldDomain 0 else s.fieldResult rd (s.field.glog (s.val rs1)))

end Sys2Proof.Machine
end

