-- ==== Sys2Proof/Machine/LoadStore.lean ====
section
/-! DEFINITION. LDB, STB, LDC, STC (40_system_and_memory_commands.md R85 to R88). -/

namespace Sys2Proof.Machine

/-- LDB Xd, imm(Xs1) (R85): a byte of BUF, zero-extended. -/
def execLdb (rd : Reg) (imm : Word) (rs1 : Reg) (s : State) : Result :=
  let a := s.index rs1 imm
  if s.params.bufCap ≤ a then s.raise .outOfRange a
  else (s.setReg rd ((s.buf.read a).setWidth 32)).complete

/-- STB Xs2, imm(Xs1) (R86): the index check before the value check; nothing is truncated. -/
def execStb (rs2 : Reg) (imm : Word) (rs1 : Reg) (s : State) : Result :=
  let a := s.index rs1 imm
  if s.params.bufCap ≤ a then s.raise .outOfRange a
  else if 256 ≤ s.val rs2 then s.raise .outOfRange (s.val rs2)
  else State.complete { s with buf := s.buf.write a (BitVec.ofNat 8 (s.val rs2)) }

/-- LDC Xd, imm(Xs1) (R87): a codeword, zero-extended, not compared with the field size. -/
def execLdc (rd : Reg) (imm : Word) (rs1 : Reg) (s : State) : Result :=
  let a := s.index rs1 imm
  if s.params.cwCap ≤ a then s.raise .outOfRange a
  else (s.setReg rd ((s.cw.read a).setWidth 32)).complete

/-- STC Xs2, imm(Xs1) (R88): the index check before the value check; no comparison with the field size. -/
def execStc (rs2 : Reg) (imm : Word) (rs1 : Reg) (s : State) : Result :=
  let a := s.index rs1 imm
  if s.params.cwCap ≤ a then s.raise .outOfRange a
  else if 65536 ≤ s.val rs2 then s.raise .outOfRange (s.val rs2)
  else State.complete { s with cw := s.cw.write a (BitVec.ofNat 16 (s.val rs2)) }

end Sys2Proof.Machine
end

