-- ==== Sys2Proof/Syntax.lean ====
section
/-! DEFINITION. The 40 commands of the opcode map (30_encoding.md R65), one constructor per row of
spec/opcode_table.json, operands in the order of the assembly text (R68), destination first. -/

namespace Sys2Proof

inductive Instr where
  -- system (40_system_and_memory_commands.md)
  | nop
  | halt
  | li (rd : Reg) (imm : Word)
  | csrr (rd : Reg) (csr : BitVec 12)
  | csrw (csr : BitVec 12) (rs1 : Reg)
  -- loads and stores
  | ldb (rd : Reg) (imm : Word) (rs1 : Reg)
  | stb (rs2 : Reg) (imm : Word) (rs1 : Reg)
  | ldc (rd : Reg) (imm : Word) (rs1 : Reg)
  | stc (rs2 : Reg) (imm : Word) (rs1 : Reg)
  -- BitStream unit (41_bitstream.md)
  | bsClr (k : StreamId)
  | bsAppendbit (k : StreamId) (rs1 : Reg)
  | bsAppend (k : StreamId) (rs1 rs2 : Reg)
  | bsSize (rd : Reg) (k : StreamId)
  | bsGet (rd : Reg) (k : StreamId) (rs1 : Reg)
  | bsIsrange (rd : Reg) (k : StreamId) (rs1 rs2 rs3 : Reg)
  | bsTobytes (k : StreamId) (rs1 rs2 rs3 : Reg)
  | bsReverse (k : StreamId)
  | bsCopy (k ks : StreamId) (rs1 rs2 : Reg)
  | bsClone (k ks : StreamId)
  | bsTerm (k : StreamId)
  -- Galois-field unit (42_galois_field.md)
  | gfBuild
  | gfAdd (rd rs1 rs2 : Reg)
  | gfSub (rd rs1 rs2 : Reg)
  | gfMul (rd rs1 rs2 : Reg)
  | gfDiv (rd rs1 rs2 : Reg)
  | gfInv (rd rs1 : Reg)
  | gfExp (rd rs1 : Reg)
  | gfLog (rd rs1 : Reg)
  -- Reed-Solomon unit (43_reed_solomon.md)
  | rsEnc (rs1 rs2 : Reg)
  | rsChk (rd rs1 rs2 : Reg)
  | rsDec (rd rs1 rs2 : Reg)
  | rsErase (rs1 : Reg)
  | rsErclr
  -- mode-encoder unit (44_mode_encoder.md)
  | meInit
  | meLatch (k : StreamId) (mode : BitVec 8)
  | meShift (k : StreamId) (mode : BitVec 8)
  | meUnlatch (k : StreamId)
  | meSym (k : StreamId) (rs1 : Reg) (len : BitVec 2)
  | meBshift (k : StreamId) (rs1 rs2 : Reg)
  | meEncode (rd : Reg) (k : StreamId) (rs1 rs2 rs3 : Reg)
  deriving DecidableEq, Repr

end Sys2Proof
end

