-- ==== Sys2Proof/WellFormed.lean ====
section
/-! DEFINITION. Well-formed commands: the operand ranges that 30_encoding.md R61 and R66 (d), (e) demand and that the
types of Syntax.lean do not already enforce. -/

namespace Sys2Proof

/-- The CSR operand of CSRR names a CSR that exists (30_encoding.md R66 (e)). -/
def csrReadable (n : BitVec 12) : Bool := (Csr.ofNumber n).isSome

/-- The CSR operand of CSRW names one of the RW registers (30_encoding.md R66 (e)). -/
def csrWritable (n : BitVec 12) : Bool := (Csr.ofNumber n).any Csr.writable

/-- The length operand of ME.SYM is 1 or 2 (30_encoding.md R61). -/
def symLenOk (len : BitVec 2) : Bool := len == 1 || len == 2

/-- A command that some 64-bit word encodes (30_encoding.md R66 (d), (e)). -/
def Instr.wellFormed : Instr → Bool
  | .csrr _ csr => csrReadable csr
  | .csrw csr _ => csrWritable csr
  | .meSym _ _ len => symLenOk len
  | .nop | .halt | .li _ _ | .ldb _ _ _ | .stb _ _ _ | .ldc _ _ _ | .stc _ _ _ => true
  | .bsClr _ | .bsAppendbit _ _ | .bsAppend _ _ _ | .bsSize _ _ | .bsGet _ _ _ => true
  | .bsIsrange _ _ _ _ _ | .bsTobytes _ _ _ _ | .bsReverse _ | .bsCopy _ _ _ _ => true
  | .bsClone _ _ | .bsTerm _ => true
  | .gfBuild | .gfAdd _ _ _ | .gfSub _ _ _ | .gfMul _ _ _ | .gfDiv _ _ _ => true
  | .gfInv _ _ | .gfExp _ _ | .gfLog _ _ => true
  | .rsEnc _ _ | .rsChk _ _ _ | .rsDec _ _ _ | .rsErase _ | .rsErclr => true
  | .meInit | .meLatch _ _ | .meShift _ _ | .meUnlatch _ | .meBshift _ _ _ => true
  | .meEncode _ _ _ _ _ => true

end Sys2Proof
end

