-- ==== Sys2Proof/Decode.lean ====
section
/-! DEFINITION. Command encoding (30_encoding.md): the one 64-bit format C64, the opcode map, the total decoder that
rejects every illegal word by name (R66, R67), and after it the encoder. -/

namespace Sys2Proof

/-- The seven fields of a command word (30_encoding.md R60). -/
structure Fields where
  op : BitVec 8
  rd : BitVec 4 := 0
  rs1 : BitVec 4 := 0
  rs2 : BitVec 4 := 0
  rs3 : BitVec 4 := 0
  sel : BitVec 8 := 0
  imm : BitVec 32 := 0
  deriving DecidableEq, Repr

/-- The fields of a word, by the bit positions of 30_encoding.md R60. -/
def Fields.ofWord (w : CmdWord) : Fields where
  op := w.extractLsb' 56 8
  rd := w.extractLsb' 52 4
  rs1 := w.extractLsb' 48 4
  rs2 := w.extractLsb' 44 4
  rs3 := w.extractLsb' 40 4
  sel := w.extractLsb' 32 8
  imm := w.extractLsb' 0 32

/-- The word of the fields: op·2^56 + rd·2^52 + rs1·2^48 + rs2·2^44 + rs3·2^40 + sel·2^32 + imm (30_encoding.md R60). -/
def Fields.toWord (f : Fields) : CmdWord :=
  f.op ++ f.rd ++ f.rs1 ++ f.rs2 ++ f.rs3 ++ f.sel ++ f.imm

/-- Selector bit k, bit 32 of the word (30_encoding.md R60). -/
def Fields.k (f : Fields) : Bool := f.sel.getLsbD 0

/-- Selector bit ks, bit 33 of the word (30_encoding.md R60). -/
def Fields.ks (f : Fields) : Bool := f.sel.getLsbD 1

/-- Bits 39:34 of the word, which must be 0 (30_encoding.md R60). -/
def Fields.reserved (f : Fields) : BitVec 6 := f.sel.extractLsb' 2 6

/-- The 40 assigned opcodes (30_encoding.md R65). -/
inductive Op where
  | nop | halt | li | csrr | csrw | ldb | stb | ldc | stc
  | bsClr | bsAppendbit | bsAppend | bsSize | bsGet | bsIsrange | bsTobytes | bsReverse | bsCopy | bsClone | bsTerm
  | gfBuild | gfAdd | gfSub | gfMul | gfDiv | gfInv | gfExp | gfLog
  | rsEnc | rsChk | rsDec | rsErase | rsErclr
  | meInit | meLatch | meShift | meUnlatch | meSym | meBshift | meEncode
  deriving DecidableEq, Repr

/-- The op column of the opcode map (30_encoding.md R65). -/
def Op.code : Op → BitVec 8
  | .nop => 0x00
  | .halt => 0x01
  | .li => 0x02
  | .csrr => 0x03
  | .csrw => 0x04
  | .ldb => 0x08
  | .stb => 0x09
  | .ldc => 0x0A
  | .stc => 0x0B
  | .bsClr => 0x10
  | .bsAppendbit => 0x11
  | .bsAppend => 0x12
  | .bsSize => 0x13
  | .bsGet => 0x14
  | .bsIsrange => 0x15
  | .bsTobytes => 0x16
  | .bsReverse => 0x17
  | .bsCopy => 0x18
  | .bsClone => 0x19
  | .bsTerm => 0x1A
  | .gfBuild => 0x20
  | .gfAdd => 0x21
  | .gfSub => 0x22
  | .gfMul => 0x23
  | .gfDiv => 0x24
  | .gfInv => 0x25
  | .gfExp => 0x26
  | .gfLog => 0x27
  | .rsEnc => 0x30
  | .rsChk => 0x31
  | .rsDec => 0x32
  | .rsErase => 0x33
  | .rsErclr => 0x34
  | .meInit => 0x40
  | .meLatch => 0x41
  | .meShift => 0x42
  | .meUnlatch => 0x43
  | .meSym => 0x44
  | .meBshift => 0x45
  | .meEncode => 0x46

/-- Every assigned opcode, in the order of the map (30_encoding.md R65). -/
def Op.all : List Op :=
  [.nop, .halt, .li, .csrr, .csrw, .ldb, .stb, .ldc, .stc,
   .bsClr, .bsAppendbit, .bsAppend, .bsSize, .bsGet, .bsIsrange, .bsTobytes, .bsReverse, .bsCopy, .bsClone, .bsTerm,
   .gfBuild, .gfAdd, .gfSub, .gfMul, .gfDiv, .gfInv, .gfExp, .gfLog,
   .rsEnc, .rsChk, .rsDec, .rsErase, .rsErclr,
   .meInit, .meLatch, .meShift, .meUnlatch, .meSym, .meBshift, .meEncode]

/-- The assigned opcode of an opcode byte; the other 216 values are reserved (30_encoding.md R66 (a)). -/
def Op.ofCode (c : BitVec 8) : Option Op := Op.all.find? fun o => o.code == c

/-- Which fields a command uses (30_encoding.md R65). -/
structure Uses where
  rd : Bool := false
  rs1 : Bool := false
  rs2 : Bool := false
  rs3 : Bool := false
  k : Bool := false
  ks : Bool := false
  imm : Bool := false
  deriving DecidableEq, Repr

/-- The fields-used column of the opcode map (30_encoding.md R65). -/
def Op.uses : Op → Uses
  | .nop | .halt | .gfBuild | .rsErclr | .meInit => { }
  | .li | .csrr => { rd := true, imm := true }
  | .csrw => { rs1 := true, imm := true }
  | .ldb | .ldc => { rd := true, rs1 := true, imm := true }
  | .stb | .stc => { rs1 := true, rs2 := true, imm := true }
  | .bsClr | .bsReverse | .bsTerm | .meUnlatch => { k := true }
  | .bsAppendbit => { k := true, rs1 := true }
  | .bsAppend | .meBshift => { k := true, rs1 := true, rs2 := true }
  | .bsSize => { rd := true, k := true }
  | .bsGet => { rd := true, k := true, rs1 := true }
  | .bsIsrange | .meEncode => { rd := true, k := true, rs1 := true, rs2 := true, rs3 := true }
  | .bsTobytes => { k := true, rs1 := true, rs2 := true, rs3 := true }
  | .bsCopy => { k := true, ks := true, rs1 := true, rs2 := true }
  | .bsClone => { k := true, ks := true }
  | .gfAdd | .gfSub | .gfMul | .gfDiv | .rsChk | .rsDec => { rd := true, rs1 := true, rs2 := true }
  | .gfInv | .gfExp | .gfLog => { rd := true, rs1 := true }
  | .rsEnc => { rs1 := true, rs2 := true }
  | .rsErase => { rs1 := true }
  | .meLatch | .meShift => { k := true, imm := true }
  | .meSym => { k := true, rs1 := true, imm := true }

/-- Every field the command does not use is zero (30_encoding.md R66 (b)). -/
def Fields.unusedZero (f : Fields) (u : Uses) : Bool :=
  (u.rd || f.rd == 0) && (u.rs1 || f.rs1 == 0) && (u.rs2 || f.rs2 == 0) && (u.rs3 || f.rs3 == 0) &&
  (u.k || !f.k) && (u.ks || !f.ks) && (u.imm || f.imm == 0)

/-- Why a word is no command: the conditions (a) to (e) of 30_encoding.md R66. -/
inductive Illegal where
  /-- (a) the opcode byte is reserved. -/
  | reservedOpcode
  /-- (b) a field the opcode does not use is non-zero. -/
  | unusedField
  /-- (c) one of bits 39:34 is non-zero. -/
  | reservedBits
  /-- (d) the immediate is outside the range R61 gives. -/
  | immediateRange
  /-- (e) the CSR does not exist, or CSRW names a read-only one. -/
  | csrAccess
  deriving DecidableEq, Repr

/-- The stream a selector bit names (30_encoding.md R60). -/
def StreamId.ofBit (b : Bool) : StreamId := if b then .bs1 else .bs0

/-- The selector bit of a stream (30_encoding.md R60). -/
def StreamId.bit : StreamId → Bool
  | .bs0 => false
  | .bs1 => true

/-- The command of an assigned opcode and its operand fields, with the range checks (d) and (e) of 30_encoding.md R66. -/
def Op.build (o : Op) (f : Fields) : Except Illegal Instr :=
  let rd : Reg := f.rd.toFin
  let rs1 : Reg := f.rs1.toFin
  let rs2 : Reg := f.rs2.toFin
  let rs3 : Reg := f.rs3.toFin
  let k := StreamId.ofBit f.k
  let ks := StreamId.ofBit f.ks
  match o with
  | .nop => .ok .nop
  | .halt => .ok .halt
  | .li => .ok (.li rd f.imm)
  | .csrr =>
    if 2 ^ 12 ≤ f.imm.toNat then .error .immediateRange
    else if csrReadable (f.imm.setWidth 12) then .ok (.csrr rd (f.imm.setWidth 12)) else .error .csrAccess
  | .csrw =>
    if 2 ^ 12 ≤ f.imm.toNat then .error .immediateRange
    else if csrWritable (f.imm.setWidth 12) then .ok (.csrw (f.imm.setWidth 12) rs1) else .error .csrAccess
  | .ldb => .ok (.ldb rd f.imm rs1)
  | .stb => .ok (.stb rs2 f.imm rs1)
  | .ldc => .ok (.ldc rd f.imm rs1)
  | .stc => .ok (.stc rs2 f.imm rs1)
  | .bsClr => .ok (.bsClr k)
  | .bsAppendbit => .ok (.bsAppendbit k rs1)
  | .bsAppend => .ok (.bsAppend k rs1 rs2)
  | .bsSize => .ok (.bsSize rd k)
  | .bsGet => .ok (.bsGet rd k rs1)
  | .bsIsrange => .ok (.bsIsrange rd k rs1 rs2 rs3)
  | .bsTobytes => .ok (.bsTobytes k rs1 rs2 rs3)
  | .bsReverse => .ok (.bsReverse k)
  | .bsCopy => .ok (.bsCopy k ks rs1 rs2)
  | .bsClone => .ok (.bsClone k ks)
  | .bsTerm => .ok (.bsTerm k)
  | .gfBuild => .ok .gfBuild
  | .gfAdd => .ok (.gfAdd rd rs1 rs2)
  | .gfSub => .ok (.gfSub rd rs1 rs2)
  | .gfMul => .ok (.gfMul rd rs1 rs2)
  | .gfDiv => .ok (.gfDiv rd rs1 rs2)
  | .gfInv => .ok (.gfInv rd rs1)
  | .gfExp => .ok (.gfExp rd rs1)
  | .gfLog => .ok (.gfLog rd rs1)
  | .rsEnc => .ok (.rsEnc rs1 rs2)
  | .rsChk => .ok (.rsChk rd rs1 rs2)
  | .rsDec => .ok (.rsDec rd rs1 rs2)
  | .rsErase => .ok (.rsErase rs1)
  | .rsErclr => .ok .rsErclr
  | .meInit => .ok .meInit
  | .meLatch => if 2 ^ 8 ≤ f.imm.toNat then .error .immediateRange else .ok (.meLatch k (f.imm.setWidth 8))
  | .meShift => if 2 ^ 8 ≤ f.imm.toNat then .error .immediateRange else .ok (.meShift k (f.imm.setWidth 8))
  | .meUnlatch => .ok (.meUnlatch k)
  | .meSym => if f.imm = 1 ∨ f.imm = 2 then .ok (.meSym k rs1 (f.imm.setWidth 2)) else .error .immediateRange
  | .meBshift => .ok (.meBshift k rs1 rs2)
  | .meEncode => .ok (.meEncode rd k rs1 rs2 rs3)

/-- The total decoder: every word is exactly one command or illegal (30_encoding.md R66, R67). -/
def decode (w : CmdWord) : Except Illegal Instr :=
  let f := Fields.ofWord w
  match Op.ofCode f.op with
  | none => .error .reservedOpcode
  | some o =>
    if f.unusedZero o.uses = false then .error .unusedField
    else if f.reserved ≠ 0 then .error .reservedBits
    else o.build f

/-- The instruction the decoder reads from a word whose bits are numbered as spec/opcode_table.json numbers them; every
command is one 64-bit word (30_encoding.md R60), so the bits above nbits are 0. -/
def decodeTableWord (nbits w : Nat) : Option Instr :=
  match decode (BitVec.ofNat 64 (w % 2 ^ nbits)) with
  | .ok i => some i
  | .error _ => none

/-! ## The encoder -/

/-- The opcode of a command (30_encoding.md R65). -/
def Instr.op : Instr → Op
  | .nop => .nop
  | .halt => .halt
  | .li _ _ => .li
  | .csrr _ _ => .csrr
  | .csrw _ _ => .csrw
  | .ldb _ _ _ => .ldb
  | .stb _ _ _ => .stb
  | .ldc _ _ _ => .ldc
  | .stc _ _ _ => .stc
  | .bsClr _ => .bsClr
  | .bsAppendbit _ _ => .bsAppendbit
  | .bsAppend _ _ _ => .bsAppend
  | .bsSize _ _ => .bsSize
  | .bsGet _ _ _ => .bsGet
  | .bsIsrange _ _ _ _ _ => .bsIsrange
  | .bsTobytes _ _ _ _ => .bsTobytes
  | .bsReverse _ => .bsReverse
  | .bsCopy _ _ _ _ => .bsCopy
  | .bsClone _ _ => .bsClone
  | .bsTerm _ => .bsTerm
  | .gfBuild => .gfBuild
  | .gfAdd _ _ _ => .gfAdd
  | .gfSub _ _ _ => .gfSub
  | .gfMul _ _ _ => .gfMul
  | .gfDiv _ _ _ => .gfDiv
  | .gfInv _ _ => .gfInv
  | .gfExp _ _ => .gfExp
  | .gfLog _ _ => .gfLog
  | .rsEnc _ _ => .rsEnc
  | .rsChk _ _ _ => .rsChk
  | .rsDec _ _ _ => .rsDec
  | .rsErase _ => .rsErase
  | .rsErclr => .rsErclr
  | .meInit => .meInit
  | .meLatch _ _ => .meLatch
  | .meShift _ _ => .meShift
  | .meUnlatch _ => .meUnlatch
  | .meSym _ _ _ => .meSym
  | .meBshift _ _ _ => .meBshift
  | .meEncode _ _ _ _ _ => .meEncode

/-- The rd, rs1, rs2, rs3 field value of a register number. -/
def regField (r : Reg) : BitVec 4 := BitVec.ofFin r

/-- The sel field of stream selectors: sel = k + 2·ks (30_encoding.md R60). -/
def selField (k : StreamId) (ks : StreamId := .bs0) : BitVec 8 :=
  BitVec.ofNat 8 (k.bit.toNat + 2 * ks.bit.toNat)

/-- The fields of a command; a field the command does not use is 0 (30_encoding.md R65). -/
def Instr.fields (i : Instr) : Fields :=
  match i with
  | .nop | .halt | .gfBuild | .rsErclr | .meInit => { op := i.op.code }
  | .li rd imm => { op := i.op.code, rd := regField rd, imm := imm }
  | .csrr rd csr => { op := i.op.code, rd := regField rd, imm := csr.setWidth 32 }
  | .csrw csr rs1 => { op := i.op.code, rs1 := regField rs1, imm := csr.setWidth 32 }
  | .ldb rd imm rs1 | .ldc rd imm rs1 => { op := i.op.code, rd := regField rd, rs1 := regField rs1, imm := imm }
  | .stb rs2 imm rs1 | .stc rs2 imm rs1 => { op := i.op.code, rs1 := regField rs1, rs2 := regField rs2, imm := imm }
  | .bsClr k | .bsReverse k | .bsTerm k | .meUnlatch k => { op := i.op.code, sel := selField k }
  | .bsAppendbit k rs1 => { op := i.op.code, rs1 := regField rs1, sel := selField k }
  | .bsAppend k rs1 rs2 | .meBshift k rs1 rs2 =>
    { op := i.op.code, rs1 := regField rs1, rs2 := regField rs2, sel := selField k }
  | .bsSize rd k => { op := i.op.code, rd := regField rd, sel := selField k }
  | .bsGet rd k rs1 => { op := i.op.code, rd := regField rd, rs1 := regField rs1, sel := selField k }
  | .bsIsrange rd k rs1 rs2 rs3 | .meEncode rd k rs1 rs2 rs3 =>
    { op := i.op.code, rd := regField rd, rs1 := regField rs1, rs2 := regField rs2, rs3 := regField rs3,
      sel := selField k }
  | .bsTobytes k rs1 rs2 rs3 =>
    { op := i.op.code, rs1 := regField rs1, rs2 := regField rs2, rs3 := regField rs3, sel := selField k }
  | .bsCopy k ks rs1 rs2 => { op := i.op.code, rs1 := regField rs1, rs2 := regField rs2, sel := selField k ks }
  | .bsClone k ks => { op := i.op.code, sel := selField k ks }
  | .gfAdd rd rs1 rs2 | .gfSub rd rs1 rs2 | .gfMul rd rs1 rs2 | .gfDiv rd rs1 rs2
  | .rsChk rd rs1 rs2 | .rsDec rd rs1 rs2 =>
    { op := i.op.code, rd := regField rd, rs1 := regField rs1, rs2 := regField rs2 }
  | .gfInv rd rs1 | .gfExp rd rs1 | .gfLog rd rs1 => { op := i.op.code, rd := regField rd, rs1 := regField rs1 }
  | .rsEnc rs1 rs2 => { op := i.op.code, rs1 := regField rs1, rs2 := regField rs2 }
  | .rsErase rs1 => { op := i.op.code, rs1 := regField rs1 }
  | .meLatch k mode | .meShift k mode => { op := i.op.code, sel := selField k, imm := mode.setWidth 32 }
  | .meSym k rs1 len => { op := i.op.code, rs1 := regField rs1, sel := selField k, imm := len.setWidth 32 }

/-- The word of a command (30_encoding.md R60, R65). -/
def encode (i : Instr) : CmdWord := i.fields.toWord

end Sys2Proof
end

