-- ==== Sys2Proof/Machine/ModePlan.lean ====
section
/-! DEFINITION. Tokens and plans of the mode encoder: the bits of each token (44_mode_encoder.md R184, R191), the moves of
R192 with their costs, the cost-to-go table of R193 and the chosen plan of R194. -/

namespace Sys2Proof.Machine

/-! ## Token bits -/

/-- LenField(l) (44_mode_encoder.md R191). -/
def RawTable.lenField (t : RawTable) (l : Nat) : List Bool :=
  if l ≤ t.smax then bitsOf l t.ws else bitsOf 0 t.ws ++ bitsOf (l - t.smax) t.wl

/-- LenBits(l) (44_mode_encoder.md R191). -/
def RawTable.lenBits (t : RawTable) (l : Nat) : Nat := if l ≤ t.smax then t.ws else t.ws + t.wl

/-- RunCost(m, l) (44_mode_encoder.md R191). -/
def RawTable.runCost (t : RawTable) (m l : Nat) : Nat := t.w m + t.lenBits l + 8 * l

/-- The bits of a byte string, 8 bits each, most significant first (44_mode_encoder.md R190). -/
def byteBits (bytes : List Byte) : List Bool := bytes.flatMap fun b => bitsOf b.toNat 8

/-- The bits of a latch from m to m' (44_mode_encoder.md R186). -/
def RawTable.latchBits (t : RawTable) (m m' : Nat) : Option (List Bool) :=
  (t.latchCode m m').map fun c => bitsOf c (t.w m)

/-- The bits of a shift from m to m' (44_mode_encoder.md R187). -/
def RawTable.shiftBits (t : RawTable) (m m' : Nat) : Option (List Bool) :=
  (t.shiftCode m m').map fun c => bitsOf c (t.w m)

/-- The bits of a symbol in effective mode m (44_mode_encoder.md R189). -/
def RawTable.symBits (t : RawTable) (m : Nat) (key : List Byte) : Option (List Bool) :=
  (t.symCode m key).map fun c => bitsOf c (t.w m)

/-- The bits of a binary-shift run from mode m (44_mode_encoder.md R190). -/
def RawTable.runBits (t : RawTable) (m : Nat) (bytes : List Byte) : Option (List Bool) :=
  (t.bshCode m).map fun c => bitsOf c (t.w m) ++ t.lenField bytes.length ++ byteBits bytes

/-! ## Moves -/

/-- The moves of a plan (44_mode_encoder.md R192). -/
inductive Move where
  /-- Sym(len): ME.SYM. -/
  | sym (len : Nat)
  /-- ShiftSym(m', len): ME.SHIFT then ME.SYM. -/
  | shiftSym (m' len : Nat)
  /-- Run(len): ME.BSHIFT. -/
  | run (len : Nat)
  /-- Latch(m'): ME.LATCH. -/
  | latch (m' : Nat)
  deriving DecidableEq, Repr

/-- How many bytes of the message a move consumes (44_mode_encoder.md R192). -/
def Move.bytes : Move → Nat
  | .sym len => len
  | .shiftSym _ len => len
  | .run len => len
  | .latch _ => 0

/-- The mode after a move made in mode m (44_mode_encoder.md R192). -/
def Move.target (m : Nat) : Move → Nat
  | .latch m' => m'
  | .sym _ | .shiftSym _ _ | .run _ => m

/-- A key length is 1 or 2 and the message still has that many bytes (44_mode_encoder.md R192). -/
def keyFits (msg : List Byte) (len : Nat) : Bool := (len == 1 || len == 2) && decide (len ≤ msg.length)

/-- The bits column of R192: the cost of a move made in mode m before the rest `msg` of the message, none when the move is
not allowed there. -/
def moveCost (t : RawTable) (m : Nat) (msg : List Byte) : Move → Option Nat
  | .sym len =>
    if keyFits msg len then (t.symCode m (msg.take len)).map fun _ => t.w m else none
  | .shiftSym m' len =>
    if keyFits msg len then
      match t.shiftCode m m', t.symCode m' (msg.take len) with
      | some _, some _ => some (t.w m + t.w m')
      | _, _ => none
    else none
  | .run len =>
    if 1 ≤ len ∧ len ≤ msg.length ∧ len ≤ t.lmax then (t.bshCode m).map fun _ => t.runCost m len else none
  | .latch m' => (t.latchCode m m').map fun _ => t.w m

/-- The bits a move appends (44_mode_encoder.md R192, R195). -/
def moveBits (t : RawTable) (m : Nat) (msg : List Byte) : Move → List Bool
  | .sym len => (t.symBits m (msg.take len)).getD []
  | .shiftSym m' len => (t.shiftBits m m').getD [] ++ (t.symBits m' (msg.take len)).getD []
  | .run len => (t.runBits m (msg.take len)).getD []
  | .latch m' => (t.latchBits m m').getD []

/-- The cost of a plan from (msg, m) that ends with the whole message encoded; none when a move is not allowed or bytes are
left over (44_mode_encoder.md R192). -/
def planCost (t : RawTable) : Nat → List Byte → List Move → Option Nat
  | _, [], [] => some 0
  | _, _ :: _, [] => none
  | m, msg, mv :: plan =>
    match moveCost t m msg mv, planCost t (mv.target m) (msg.drop mv.bytes) plan with
    | some c, some r => some (c + r)
    | _, _ => none

/-- The bits a plan appends (44_mode_encoder.md R195). -/
def planBits (t : RawTable) : Nat → List Byte → List Move → List Bool
  | _, _, [] => []
  | m, msg, mv :: plan => moveBits t m msg mv ++ planBits t (mv.target m) (msg.drop mv.bytes) plan

/-- The mode in which a plan ends (44_mode_encoder.md R195). -/
def planEnd (m : Nat) (plan : List Move) : Nat := plan.foldl (fun m mv => mv.target m) m

/-! ## The cost-to-go table -/

/-- A cost, none for ∞ (44_mode_encoder.md R193). -/
abbrev Cost := Option Nat

/-- One row G[p] of the table, entry m for mode m (44_mode_encoder.md R193). -/
abbrev Row := List Cost

/-- G[p][m] of a row; a mode outside the table has no cost. -/
def Row.at (row : Row) (m : Nat) : Cost := row.getD m none

/-- The sum of two costs; ∞ absorbs. -/
def Cost.plus : Cost → Cost → Cost
  | some a, some b => some (a + b)
  | _, _ => none

/-- The lesser of two costs; ∞ is the greatest. -/
def Cost.least : Cost → Cost → Cost
  | some a, some b => some (min a b)
  | some a, none => some a
  | none, c => c

/-- bits + G[target] of a move that consumes bytes, from mode m; `after` holds the rows G[p+1], G[p+2], ...
(44_mode_encoder.md R193). -/
def costVia (t : RawTable) (m : Nat) (msg : List Byte) (after : List Row) (mv : Move) : Cost :=
  Cost.plus (moveCost t m msg mv) ((after.getD (mv.bytes - 1) []).at m)

/-- The run moves from mode m with bits + G[target], lengths min(L - p, LMAX) down to 1 (44_mode_encoder.md R194 (3)). -/
def runChoices (t : RawTable) (m : Nat) (after : List Row) : List (Move × Cost) :=
  match t.bshCode m with
  | none => []
  | some _ =>
    (((after.take t.lmax).zipIdx 1).map fun rl =>
      (Move.run rl.2, Cost.plus (some (t.runCost m rl.2)) (rl.1.at m))).reverse

/-- The symbol and shifted-symbol moves in the order of R194 (1) and (2). -/
def symbolMoves (t : RawTable) : List Move :=
  [.sym 2, .sym 1] ++ (List.range t.nm).flatMap fun m' => [.shiftSym m' 2, .shiftSym m' 1]

/-- Every move that consumes bytes with bits + G[target], in the order of R194 (1), (2), (3). -/
def byteChoices (t : RawTable) (m : Nat) (msg : List Byte) (after : List Row) : List (Move × Cost) :=
  ((symbolMoves t).map fun mv => (mv, costVia t m msg after mv)) ++ runChoices t m after

/-- The latch moves from mode m with bits + G[target], in the order of R194 (4). -/
def latchChoices (t : RawTable) (m : Nat) (row : Row) : List (Move × Cost) :=
  (List.range t.nm).map fun m' =>
    (Move.latch m', Cost.plus ((t.latchCode m m').map fun _ => t.w m) (row.at m'))

/-- The least cost of a list of choices (44_mode_encoder.md R193). -/
def leastCost (choices : List (Move × Cost)) : Cost := choices.foldl (fun c ch => Cost.least c ch.2) none

/-- One pass of the latch loop of R193 over a row. -/
def latchPass (t : RawTable) (row : Row) : Row :=
  (List.range t.nm).map fun m => Cost.least (row.at m) (leastCost (latchChoices t m row))

/-- The latch loop of R193: after at most NM passes nothing changes. -/
def latchPasses (t : RawTable) : Nat → Row → Row
  | 0, row => row
  | n + 1, row => latchPasses t n (latchPass t row)

/-- Row G[p] from the rest of the message at p and the rows after it (44_mode_encoder.md R193). -/
def costRow (t : RawTable) (msg : List Byte) (after : List Row) : Row :=
  latchPasses t t.nm ((List.range t.nm).map fun m => leastCost (byteChoices t m msg after))

/-- The rows G[p], G[p+1], .., G[L] for the rest of the message at p (44_mode_encoder.md R193). -/
def costRows (t : RawTable) : List Byte → List Row
  | [] => [List.replicate t.nm (some 0)]
  | b :: rest =>
    let after := costRows t rest
    costRow t (b :: rest) after :: after

/-- G[0][m] for a whole message (44_mode_encoder.md R193). -/
def costToGo (t : RawTable) (msg : List Byte) (m : Nat) : Cost := ((costRows t msg).headD []).at m

/-! ## The chosen plan -/

/-- The first move, in the order of R194, that attains G[p][m]. -/
def firstMove (t : RawTable) (m : Nat) (msg : List Byte) (row : Row) (after : List Row) : Option Move :=
  ((byteChoices t m msg after ++ latchChoices t m row).find? fun ch => ch.2 == row.at m).map Prod.fst

/-- The moves of R194 from the point (p, m), where `msg` is the rest of the message and `rows` are G[p], G[p+1], ...; every
move lowers the cost to go by at least one bit, so `fuel` = G[p][m] is enough. -/
def planFrom (t : RawTable) : Nat → Nat → List Byte → List Row → List Move
  | 0, _, _, _ => []
  | _, _, [], _ => []
  | _, _, _, [] => []
  | fuel + 1, m, b :: msg, row :: after =>
    match firstMove t m (b :: msg) row after with
    | none => []
    | some mv =>
      mv :: planFrom t fuel (mv.target m) ((b :: msg).drop mv.bytes) ((row :: after).drop mv.bytes)

/-- The plan ME.ENCODE performs, when G[0][m] is the finite cost c (44_mode_encoder.md R194). -/
def chosenPlan (t : RawTable) (m : Nat) (msg : List Byte) (c : Nat) : List Move :=
  planFrom t c m msg (costRows t msg)

end Sys2Proof.Machine
end

