-- ==== Sys2Proof/Machine/ModeEncoder.lean ====
section
/-! DEFINITION. The mode-encoder unit's commands: ME.INIT, ME.LATCH, ME.SHIFT, ME.UNLATCH, ME.SYM, ME.BSHIFT, ME.ENCODE
(44_mode_encoder.md R185 to R190, R195). Every one raises InvalidConfig(0) first when MT is absent (R180), but for
ME.INIT, which 92_eei_decisions.md D23 excepts (log 8). -/

namespace Sys2Proof.Machine

/-- ME_MODE as a mode number (10_state.md R22). -/
def State.mode (s : State) : Nat := s.meMode.toNat

/-- The effective mode: SHM while a shift is pending, else ME_MODE (44_mode_encoder.md R183). -/
def State.effMode (s : State) : Nat := if s.shv then s.shm.toNat else s.mode

/-- ME_MODE <- m (44_mode_encoder.md R186). -/
def State.setMode (s : State) (m : Nat) : State := { s with meMode := BitVec.ofNat 8 m }

/-- SHV <- 1; SHM <- m (44_mode_encoder.md R187). -/
def State.setShift (s : State) (m : Nat) : State := { s with shv := true, shm := BitVec.ofNat 8 m }

/-- SHV <- 0; SHM <- 0 (44_mode_encoder.md R189). -/
def State.clearShift (s : State) : State := { s with shv := false, shm := 0 }

/-- A command of the mode encoder with its table, InvalidConfig(0) when MT is absent (44_mode_encoder.md R180). -/
def State.withTable (s : State) (command : RawTable → Result) : Result :=
  match s.mt with
  | none => s.raise .invalidConfig 0
  | some mt => command mt.raw

/-- The latch of R186 to mode m', after its range check: shared by ME.LATCH and ME.UNLATCH. -/
def State.latchTo (s : State) (t : RawTable) (k : StreamId) (m' : Nat) : Result :=
  if s.shv then s.raise .illegalTransition 1
  else
    match t.latchBits s.mode m' with
    | none => s.raise .illegalTransition 2
    | some bits => s.appendThen k bits fun s => s.setMode m'

/-- The default mode: MT.DM, or 0 when MT is absent, the mode after reset and ME.INIT (10_state.md R26, 44_mode_encoder.md
R181). -/
def State.defaultMode (s : State) : Nat :=
  match s.mt with
  | some mt => mt.raw.dm
  | none => 0

/-- ME.INIT (R185). With MT absent it completes, since 92_eei_decisions.md D23 excepts it from InvalidConfig against the words
of R180 and R185 (log 8). -/
def execMeInit (s : State) : Result := ((s.setMode s.defaultMode).clearShift).complete

/-- ME.LATCH BSk, mode (R186). -/
def execMeLatch (k : StreamId) (mode : BitVec 8) (s : State) : Result :=
  s.withTable fun t =>
    if t.nm ≤ mode.toNat then s.raise .outOfRange mode.toNat else s.latchTo t k mode.toNat

/-- ME.SHIFT BSk, mode (R187). -/
def execMeShift (k : StreamId) (mode : BitVec 8) (s : State) : Result :=
  s.withTable fun t =>
    if t.nm ≤ mode.toNat then s.raise .outOfRange mode.toNat
    else if s.shv then s.raise .illegalTransition 1
    else
      match t.shiftBits s.mode mode.toNat with
      | none => s.raise .illegalTransition 2
      | some bits => s.appendThen k bits fun s => s.setShift mode.toNat

/-- ME.UNLATCH BSk (R188): the latch to the default mode. In the default mode, no shift pending (D24), it is a no-op by
92_eei_decisions.md D25, against the corner case of R188 (log 7). -/
def execMeUnlatch (k : StreamId) (s : State) : Result :=
  s.withTable fun t => if s.shv = false ∧ s.mode = t.dm then s.complete else s.latchTo t k t.dm

/-- ME.SYM BSk, Xs1, len (R189); a length other than 1 and 2 is IllegalCommand (30_encoding.md R66 (d)). -/
def execMeSym (k : StreamId) (rs1 : Reg) (len : BitVec 2) (s : State) : Result :=
  if symLenOk len = false then s.raise .illegalCommand Op.meSym.code.toNat
  else
    s.withTable fun t =>
      let o := s.val rs1
      if s.params.bufCap < o + len.toNat then s.raise .outOfRange (o + len.toNat)
      else
        match t.symBits s.effMode (s.window o len.toNat) with
        | none => s.raise .unencodableCharacter o
        | some bits => s.appendThen k bits State.clearShift

/-- ME.BSHIFT BSk, Xs1, Xs2 (R190): offset and run length. -/
def execMeBshift (k : StreamId) (rs1 rs2 : Reg) (s : State) : Result :=
  s.withTable fun t =>
    if s.shv then s.raise .illegalTransition 1
    else if (t.bshCode s.mode).isNone then s.raise .illegalTransition 2
    else
      let o := s.val rs1
      let l := s.val rs2
      if l < 1 ∨ t.lmax < l then s.raise .outOfRange l
      else if s.params.bufCap < o + l then s.raise .outOfRange (o + l)
      else s.appendThen k ((t.runBits s.mode (s.window o l)).getD []) id

/-- The message bits of a plan go to BS[k] with one Append, ME_MODE becomes the mode the plan ends in, and rd the bit count
(R195). -/
def State.performPlan (s : State) (t : RawTable) (rd : Reg) (k : StreamId) (msg : List Byte) (c : Nat) : Result :=
  let plan := chosenPlan t s.mode msg c
  s.appendThen k (planBits t s.mode msg plan) fun s' =>
    (s'.setMode (planEnd s.mode plan)).setReg rd (BitVec.ofNat 32 c)

/-- ME.ENCODE Xd, BSk, Xs1, Xs2, Xs3 (R195): offset, length, maxBits. -/
def execMeEncode (rd : Reg) (k : StreamId) (rs1 rs2 rs3 : Reg) (s : State) : Result :=
  s.withTable fun t =>
    if s.shv then s.raise .illegalTransition 1
    else
      let o := s.val rs1
      let l := s.val rs2
      if s.params.bufCap < o + l then s.raise .outOfRange (o + l)
      else
        match costToGo t (s.window o l) s.mode with
        | none => s.raise .unencodableCharacter 0
        | some c =>
          if s.val rs3 < c then s.raise .messageTooLarge c
          else if s.params.bsCap < s.size k + c then s.raise .messageTooLarge (s.size k + c)
          else s.performPlan t rd k (s.window o l) c

end Sys2Proof.Machine
end

