-- ==== Sys2Proof/Machine/Poly.lean ====
section
/-! DEFINITION. The polynomial operations of 42_galois_field.md R138, on coefficient lists whose index is the degree,
always normalised (no trailing zero; the zero polynomial is the empty list). -/

namespace Sys2Proof.Machine

/-- A polynomial as the list of its coefficients, index = degree (00_scope.md R8). -/
abbrev CoeffList := List Nat

/-- Drops trailing zero coefficients (42_galois_field.md R138). -/
def normalise : CoeffList → CoeffList
  | [] => []
  | c :: p =>
    match normalise p with
    | [] => if c = 0 then [] else [c]
    | d :: r => c :: d :: r

/-- Coefficientwise combination of two lists, missing coefficients 0. -/
def zipPoly (f : Nat → Nat → Nat) : CoeffList → CoeffList → CoeffList
  | [], r => r.map (f 0)
  | p, [] => p.map fun c => f c 0
  | c :: p, d :: r => f c d :: zipPoly f p r

/-- padd (42_galois_field.md R138). -/
def padd (F : FieldTables) (p r : CoeffList) : CoeffList := normalise (zipPoly F.add p r)

/-- psub (42_galois_field.md R138). -/
def psub (F : FieldTables) (p r : CoeffList) : CoeffList := normalise (zipPoly F.sub p r)

/-- pscale (42_galois_field.md R138). -/
def pscale (F : FieldTables) (p : CoeffList) (c : Nat) : CoeffList := normalise (p.map fun a => F.mul a c)

/-- p · x^n. -/
def pshift (p : CoeffList) (n : Nat) : CoeffList := normalise (List.replicate n 0 ++ p)

/-- pmul: coefficient j is the sum over i of p_i ⊗ r_(j-i) (42_galois_field.md R138). -/
def pmul (F : FieldTables) : CoeffList → CoeffList → CoeffList
  | [], _ => []
  | c :: p, r => padd F (pscale F r c) (pshift (pmul F p r) 1)

/-- pmodx(p, n) = p mod x^n (42_galois_field.md R138). -/
def pmodx (p : CoeffList) (n : Nat) : CoeffList := normalise (p.take n)

/-- peval(p, v), by Horner's rule (42_galois_field.md R138). -/
def peval (F : FieldTables) : CoeffList → Nat → Nat
  | [], _ => 0
  | c :: p, v => F.add (F.mul (peval F p v) v) c

/-- The leading coefficient p_(deg p) of a normalised non-zero polynomial. -/
def lead (p : CoeffList) : Nat := p.getLastD 0

/-- The rounds of the long division of 42_galois_field.md R138; each round lowers deg rem, so `fuel` = the length of the
dividend is enough. -/
def divLoop (F : FieldTables) (d : CoeffList) : Nat → CoeffList → CoeffList → CoeffList × CoeffList
  | 0, quo, rem => (quo, rem)
  | fuel + 1, quo, rem =>
    if rem.length < d.length then (quo, rem)
    else
      let t := pshift [F.div (lead rem) (lead d)] (rem.length - d.length)
      divLoop F d fuel (padd F quo t) (psub F rem (pmul F d t))

/-- pdivmod(a, d), d ≠ 0: the quotient and the remainder (42_galois_field.md R138). -/
def pdivmod (F : FieldTables) (a d : CoeffList) : CoeffList × CoeffList := divLoop F d a.length [] a

end Sys2Proof.Machine
end

