-- ==== Sys2Proof/Machine/RsCode.lean ====
section
/-! DEFINITION. The Reed-Solomon code as pure functions of the field, the generator base b and a block
(43_reed_solomon.md R151 to R155, R160 to R170). Blocks are lists, highest degree first. -/

namespace Sys2Proof.Machine

/-- The polynomial of a block: index i has degree n-1-i (43_reed_solomon.md R151). -/
def blockPoly (r : List Nat) : CoeffList := normalise r.reverse

/-- The generator polynomial g_ec, with roots α^b .. α^(b+ec-1) (43_reed_solomon.md R152). -/
def generator (F : FieldTables) (b ec : Nat) : CoeffList :=
  (List.range ec).foldl (fun g j => pmul F g [F.sub 0 (F.gexp (b + j)), 1]) [1]

/-- The parity of data d: the negated remainder of d·x^ec by g_ec, highest degree first (43_reed_solomon.md R153). -/
def parity (F : FieldTables) (b ec : Nat) (d : List Nat) : List Nat :=
  let rem := (pdivmod F (pshift (blockPoly d) ec) (generator F b ec)).2
  (List.range ec).map fun j => F.neg (rem.getD (ec - 1 - j) 0)

/-- The syndromes S_0 .. S_(ec-1) of a block (43_reed_solomon.md R155). -/
def syndromes (F : FieldTables) (b ec : Nat) (r : List Nat) : List Nat :=
  (List.range ec).map fun j => peval F (blockPoly r) (F.gexp (b + j))

/-- Every syndrome is zero: the block is a code block for (n, ec) (43_reed_solomon.md R155). -/
def isCodeBlock (F : FieldTables) (b ec : Nat) (r : List Nat) : Bool := (syndromes F b ec r).all (· == 0)

/-- The locator number X_i = α^(n-1-i) of position i (43_reed_solomon.md R151). -/
def locator (F : FieldTables) (n i : Nat) : Nat := F.gexp (n - 1 - i)

/-- The erasure locator: the product over i in E of (1 ⊖ X_i x) (43_reed_solomon.md R162). -/
def erasureLocator (F : FieldTables) (n : Nat) (E : List Nat) : CoeffList :=
  E.foldl (fun g i => pmul F g [1, F.sub 0 (locator F n i)]) [1]

/-- The loop of the Euclidean algorithm: r_prev, r_cur, t_prev, t_cur, until 2·deg r_cur < ec + s
(43_reed_solomon.md R163). With deg r_cur = length - 1, the loop runs while 2·length ≥ ec + s + 2. -/
def euclidLoop (F : FieldTables) (bound : Nat) : Nat → CoeffList → CoeffList → CoeffList → CoeffList → CoeffList × CoeffList
  | 0, _, rCur, _, tCur => (rCur, tCur)
  | fuel + 1, rPrev, rCur, tPrev, tCur =>
    if 2 * rCur.length < bound + 2 then (rCur, tCur)
    else
      let qr := pdivmod F rPrev rCur
      euclidLoop F bound fuel rCur qr.2 tCur (psub F tPrev (pmul F qr.1 tCur))

/-- r_cur and t_cur at the end of the Euclidean algorithm on x^ec and Ξ; deg r_cur < ec falls each round, so ec rounds are
enough (43_reed_solomon.md R163). -/
def euclid (F : FieldTables) (ec s : Nat) (xi : CoeffList) : CoeffList × CoeffList :=
  euclidLoop F (ec + s) ec (pshift [1] ec) xi [] [1]

/-- The exponents l in 0 .. q-2 whose α^l is the inverse of a root of σ, in this order (43_reed_solomon.md R166). -/
def rootSearch (F : FieldTables) (sigma : CoeffList) : List Nat :=
  (List.range (F.q - 1)).filter fun l => peval F sigma (F.inv (F.gexp l)) == 0

/-- The magnitude at position p of A, by Forney's formula with the factor X_p^(-b) (43_reed_solomon.md R168). -/
def magnitude (F : FieldTables) (b n : Nat) (A : List Nat) (omega : CoeffList) (p : Nat) : Nat :=
  let xp := locator F n p
  let xinv := F.inv xp
  let num := F.mul (peval F omega xinv) (F.gexp ((F.q - 1 - F.glog xp) * (b % (F.q - 1))))
  let den := (A.filter (· != p)).foldl (fun d l => F.mul d (F.sub 1 (F.mul (locator F n l) xinv))) 1
  F.div num den

/-- out[p] <- r[p] ⊖ mag_p for every p in A (43_reed_solomon.md R169). -/
def correct (F : FieldTables) (b n : Nat) (A : List Nat) (omega : CoeffList) (r : List Nat) : List Nat :=
  A.foldl (fun out p => out.set p (F.sub (r.getD p 0) (magnitude F b n A omega p))) r

/-- Decode steps 5 to 11 from the Euclidean result (43_reed_solomon.md R164 to R170); none is ChecksumException. -/
def decodeTail (F : FieldTables) (b n ec : Nat) (E r : List Nat) (rCur tCur : CoeffList) : Option (List Nat) :=
  let t0 := tCur.getD 0 0
  if t0 = 0 then none
  else
    let sigma := pscale F tCur (F.inv t0)
    let omega := pscale F rCur (F.inv t0)
    let nu := sigma.length - 1
    if ec < 2 * nu + E.length then none
    else
      let roots := rootSearch F sigma
      if roots.any fun l => decide (n ≤ l) then none
      else
        let P := roots.map fun l => n - 1 - l
        if P.length ≠ nu ∨ P.any (fun p => E.elem p) = true then none
        else
          let out := correct F b n (E ++ P) omega r
          if isCodeBlock F b ec out then some out else none

/-- Decode(r, n, ec, E) (43_reed_solomon.md R160 to R170): the corrected block, or none for ChecksumException. -/
def decodeBlock (F : FieldTables) (b n ec : Nat) (E r : List Nat) : Option (List Nat) :=
  if isCodeBlock F b ec r then some r
  else if ec < E.length then none
  else
    let xi := pmodx (pmul F (erasureLocator F n E) (normalise (syndromes F b ec r))) ec
    let rt := euclid F ec E.length xi
    decodeTail F b n ec E r rt.1 rt.2

end Sys2Proof.Machine
end

