-- ==== Sys2Proof/Machine/ReedSolomon.lean ====
section
/-! DEFINITION. The Reed-Solomon unit's commands: RS.ENC, RS.CHK, RS.DEC, RS.ERASE, RS.ERCLR
(43_reed_solomon.md R150, R154, R156 to R159, R171). -/

namespace Sys2Proof.Machine

/-- The lowest index i < n with CW[i] ≥ q (43_reed_solomon.md R150). -/
def State.badCodeword (s : State) (n : Nat) : Option Nat :=
  (List.range n).find? fun i => decide (s.field.q ≤ (s.cw.read i).toNat)

/-- The lowest marked position i with n ≤ i < CW_CAP (43_reed_solomon.md R159). -/
def State.badErasure (s : State) (n : Nat) : Option Nat :=
  (List.range' n (s.params.cwCap - n)).find? fun i => s.er.read i == 1

/-- E, the marked positions below n, ascending (43_reed_solomon.md R159). -/
def State.erasures (s : State) (n : Nat) : List Nat := (List.range n).filter fun i => s.er.read i == 1

/-- GF_BASE as the number b (43_reed_solomon.md R152). -/
def State.base (s : State) : Nat := s.gfBase.toNat

/-- CW[a ..] <- the values (43_reed_solomon.md R154, R171). -/
def State.writeCodewords (s : State) (a : Nat) (vals : List Nat) : State :=
  { s with cw := s.cw.writeList a (vals.map (BitVec.ofNat 16)) }

/-- RS.ENC Xs1, Xs2 (R154): data count k and ec; writes the parity after the data. -/
def execRsEnc (rs1 rs2 : Reg) (s : State) : Result :=
  let k := s.val rs1
  let ec := s.val rs2
  if s.gfValid = false then s.raise .invalidConfig 0
  else if s.field.q < k + ec ∨ s.params.cwCap < k + ec then s.raise .outOfRange (k + ec)
  else
    match s.badCodeword k with
    | some i => s.raise .outOfRange i
    | none => (s.writeCodewords k (parity s.field s.base ec (s.codewords k))).complete

/-- RS.CHK Xd, Xs1, Xs2 (R156): 1 when CW[0 .. n-1] is a code block; ER is not read. -/
def execRsChk (rd rs1 rs2 : Reg) (s : State) : Result :=
  let n := s.val rs1
  let ec := s.val rs2
  if s.gfValid = false then s.raise .invalidConfig 0
  else if s.field.q < n ∨ s.params.cwCap < n then s.raise .outOfRange n
  else if n < ec then s.raise .outOfRange ec
  else
    match s.badCodeword n with
    | some i => s.raise .outOfRange i
    | none => (s.setReg rd (boolWord (isCodeBlock s.field s.base ec (s.codewords n)))).complete

/-- RS.DEC Xd, Xs1, Xs2 (R159, R171): on Ok the corrected block is written back and rd is 0; on ChecksumException CW is
unchanged and rd is 1. -/
def execRsDec (rd rs1 rs2 : Reg) (s : State) : Result :=
  let n := s.val rs1
  let ec := s.val rs2
  if s.gfValid = false then s.raise .invalidConfig 0
  else if s.field.q - 1 < n ∨ s.params.cwCap < n then s.raise .outOfRange n
  else if n < ec then s.raise .outOfRange ec
  else
    match s.badCodeword n with
    | some i => s.raise .outOfRange i
    | none =>
      match s.badErasure n with
      | some i => s.raise .outOfRange i
      | none =>
        match decodeBlock s.field s.base n ec (s.erasures n) (s.codewords n) with
        | some out => ((s.writeCodewords 0 out).setReg rd 0).complete
        | none => (s.setReg rd 1).complete

/-- RS.ERASE Xs1 (R157): ER[x[rs1]] <- 1. -/
def execRsErase (rs1 : Reg) (s : State) : Result :=
  let p := s.val rs1
  if s.params.cwCap ≤ p then s.raise .outOfRange p
  else State.complete { s with er := s.er.write p 1 }

/-- RS.ERCLR (R158): every mark is cleared; the empty list is the memory with every entry 0. -/
def execRsErclr (s : State) : Result := State.complete { s with er := [] }

end Sys2Proof.Machine
end

