-- ==== Sys2Proof/Machine/System.lean ====
section
/-! DEFINITION. NOP, HALT, LI, CSRR, CSRW (40_system_and_memory_commands.md R80 to R84). -/

namespace Sys2Proof.Machine

/-- NOP (R80): nothing but cp <- cp + 1. -/
def execNop (s : State) : Result := s.complete

/-- HALT (R81): RUNSTATE <- HALTED; CP stays at the HALT command. -/
def execHalt (s : State) : Result := .next { s with runstate := .halted }

/-- LI Xd, imm (R82). -/
def execLi (rd : Reg) (imm : Word) (s : State) : Result := (s.setReg rd imm).complete

/-- CSRR Xd, csr (R83): IllegalCommand when no CSR has the number. -/
def execCsrr (rd : Reg) (csr : BitVec 12) (s : State) : Result :=
  match Csr.ofNumber csr with
  | none => s.raise .illegalCommand Op.csrr.code.toNat
  | some c => (s.setReg rd (s.csrRead c)).complete

/-- CSRW csr, Xs1 (R84): CSR <- x[rs1] and GF_VALID <- 0; IllegalCommand when the CSR does not exist or is read-only. -/
def execCsrw (csr : BitVec 12) (rs1 : Reg) (s : State) : Result :=
  match (Csr.ofNumber csr).bind fun c => s.csrWrite c (s.reg rs1) with
  | none => s.raise .illegalCommand Op.csrw.code.toNat
  | some s' => s'.complete

end Sys2Proof.Machine
end

