-- ==== Sys2Proof/Machine/Dispatch.lean ====
section
/-! DEFINITION. The meaning of every command, one arm per constructor of Instr (30_encoding.md R65). -/

namespace Sys2Proof.Machine

open Sys2Proof

def exec (i : Instr) (s : State) : Host.Outcome State Fault Refusal :=
  match i with
  -- system (40_system_and_memory_commands.md R80 to R84)
  | .nop => Sys2Proof.Machine.execNop s
  | .halt => Sys2Proof.Machine.execHalt s
  | .li rd imm => Sys2Proof.Machine.execLi rd imm s
  | .csrr rd csr => Sys2Proof.Machine.execCsrr rd csr s
  | .csrw csr rs1 => Sys2Proof.Machine.execCsrw csr rs1 s
  -- loads and stores (R85 to R88)
  | .ldb rd imm rs1 => Sys2Proof.Machine.execLdb rd imm rs1 s
  | .stb rs2 imm rs1 => Sys2Proof.Machine.execStb rs2 imm rs1 s
  | .ldc rd imm rs1 => Sys2Proof.Machine.execLdc rd imm rs1 s
  | .stc rs2 imm rs1 => Sys2Proof.Machine.execStc rs2 imm rs1 s
  -- BitStream unit (41_bitstream.md R101 to R111)
  | .bsClr k => Sys2Proof.Machine.execBsClr k s
  | .bsAppendbit k rs1 => Sys2Proof.Machine.execBsAppendbit k rs1 s
  | .bsAppend k rs1 rs2 => Sys2Proof.Machine.execBsAppend k rs1 rs2 s
  | .bsSize rd k => Sys2Proof.Machine.execBsSize rd k s
  | .bsGet rd k rs1 => Sys2Proof.Machine.execBsGet rd k rs1 s
  | .bsIsrange rd k rs1 rs2 rs3 => Sys2Proof.Machine.execBsIsrange rd k rs1 rs2 rs3 s
  | .bsTobytes k rs1 rs2 rs3 => Sys2Proof.Machine.execBsTobytes k rs1 rs2 rs3 s
  | .bsReverse k => Sys2Proof.Machine.execBsReverse k s
  | .bsCopy k ks rs1 rs2 => Sys2Proof.Machine.execBsCopy k ks rs1 rs2 s
  | .bsClone k ks => Sys2Proof.Machine.execBsClone k ks s
  | .bsTerm k => Sys2Proof.Machine.execBsTerm k s
  -- Galois-field unit (42_galois_field.md R122, R131 to R137)
  | .gfBuild => Sys2Proof.Machine.execGfBuild s
  | .gfAdd rd rs1 rs2 => Sys2Proof.Machine.execGfAdd rd rs1 rs2 s
  | .gfSub rd rs1 rs2 => Sys2Proof.Machine.execGfSub rd rs1 rs2 s
  | .gfMul rd rs1 rs2 => Sys2Proof.Machine.execGfMul rd rs1 rs2 s
  | .gfDiv rd rs1 rs2 => Sys2Proof.Machine.execGfDiv rd rs1 rs2 s
  | .gfInv rd rs1 => Sys2Proof.Machine.execGfInv rd rs1 s
  | .gfExp rd rs1 => Sys2Proof.Machine.execGfExp rd rs1 s
  | .gfLog rd rs1 => Sys2Proof.Machine.execGfLog rd rs1 s
  -- Reed-Solomon unit (43_reed_solomon.md R154 to R159)
  | .rsEnc rs1 rs2 => Sys2Proof.Machine.execRsEnc rs1 rs2 s
  | .rsChk rd rs1 rs2 => Sys2Proof.Machine.execRsChk rd rs1 rs2 s
  | .rsDec rd rs1 rs2 => Sys2Proof.Machine.execRsDec rd rs1 rs2 s
  | .rsErase rs1 => Sys2Proof.Machine.execRsErase rs1 s
  | .rsErclr => Sys2Proof.Machine.execRsErclr s
  -- mode-encoder unit (44_mode_encoder.md R185 to R190, R195)
  | .meInit => Sys2Proof.Machine.execMeInit s
  | .meLatch k mode => Sys2Proof.Machine.execMeLatch k mode s
  | .meShift k mode => Sys2Proof.Machine.execMeShift k mode s
  | .meUnlatch k => Sys2Proof.Machine.execMeUnlatch k s
  | .meSym k rs1 len => Sys2Proof.Machine.execMeSym k rs1 len s
  | .meBshift k rs1 rs2 => Sys2Proof.Machine.execMeBshift k rs1 rs2 s
  | .meEncode rd k rs1 rs2 rs3 => Sys2Proof.Machine.execMeEncode rd k rs1 rs2 rs3 s

end Sys2Proof.Machine
end

