-- ==== Sys2Proof/Machine/HostInterface.lean ====
section
/-! DEFINITION. What the host does between runs (70_reset_and_hazards.md R250, R251, R253): reset, preload, launch. None of
these is a step of the machine; while the block runs the host does nothing. -/

namespace Sys2Proof.Machine

/-- Reset at any time (R250): every piece of state at its reset value. PROG, MT and the parameters are no state of the block
(10_state.md R24), so they are what the host last supplied. -/
def State.hostReset (s : State) : State := State.afterReset s.params s.mt s.prog

/-- Launch step 2 (R251): the host writes a byte of BUF; an index outside BUF names no entry and writes nothing. -/
def State.hostWriteBuf (s : State) (a : Nat) (v : Byte) : State :=
  if a < s.params.bufCap then { s with buf := s.buf.write a v } else s

/-- Launch step 2 (R251): the host writes an entry of CW; an index outside CW names no entry and writes nothing. -/
def State.hostWriteCw (s : State) (i : Nat) (v : BitVec 16) : State :=
  if i < s.params.cwCap then { s with cw := s.cw.write i v } else s

/-- Launch steps 1 to 3 (R251): reset, BUF and CW preloaded from index 0, MT and PROG supplied. -/
def State.launch (params : Params) (mt : Option ModeTable) (prog : List CmdWord) (buf : List Byte)
    (cw : List (BitVec 16)) : State :=
  let s := State.afterReset params mt prog
  let s := buf.zipIdx.foldl (fun s p => s.hostWriteBuf p.2 p.1) s
  cw.zipIdx.foldl (fun s p => s.hostWriteCw p.2 p.1) s

/-- The block is quiescent: a run has ended (R252). -/
def State.quiescent (s : State) : Bool :=
  match s.fetch with
  | .ok _ => false
  | .error _ => true

/-- The word stored where `State.fetch` reads the next command: PROG[CP]; a shorter PROG is filled up with NOP words. -/
def State.placeWord (s : State) (w : CmdWord) : State :=
  let at_ := s.cp.toNat
  { s with
    prog := s.prog.take at_ ++ List.replicate (at_ - s.prog.length) 0 ++ w :: s.prog.drop (at_ + 1) }

end Sys2Proof.Machine
end

