-- ==== Sys2Proof/Machine/Step.lean ====
section
/-! DEFINITION. One step of the sequencer (40_system_and_memory_commands.md R90). -/

namespace Sys2Proof.Machine

/-- One step (R90): fetch PROG[CP]; an illegal word raises IllegalCommand with the opcode byte; a command executes. When the
block is quiescent there is no step (70_reset_and_hazards.md R252) and the answer is a fault of the model. -/
def step (s : State) : Host.Outcome State Fault Refusal :=
  match s.fetch with
  | .error f => .fault f
  | .ok w =>
    match decode w with
    | .error _ => s.raise .illegalCommand (opcodeByte w)
    | .ok i => exec i s

/-- s with the word placed where step fetches its next command (assumption 16). -/
def State.withFetchWord (s : State) (nbits w : Nat) : State :=
  s.placeWord (BitVec.ofNat 64 (w % 2 ^ nbits))

end Sys2Proof.Machine
end

