-- ==== Sys2Proof/Machine/ModeDecode.lean ====
section
/-! DEFINITION. MDecode, the reference decoder of the mode encoder's output (44_mode_encoder.md R214): a pure function, no
command. -/

namespace Sys2Proof.Machine

/-- The key of a value in a partial map given as the list of its pairs. -/
def keyOf {α : Type} (pairs : List (α × Nat)) (c : Nat) : Option α :=
  (pairs.find? fun p => p.2 == c).map Prod.fst

/-- What a code of a mode names (44_mode_encoder.md R214). -/
inductive CodeMeaning where
  | symbol (key : List Byte)
  | latch (m' : Nat)
  | shift (m' : Nat)
  | binaryShift
  deriving DecidableEq, Repr

/-- The target mode of a control code emitted in mode m. -/
def targetOf (pairs : List ((Nat × Nat) × Nat)) (m c : Nat) : Option Nat :=
  (keyOf (pairs.filter fun p => p.1.1 == m) c).map Prod.snd

/-- The token a code of mode m names; none for a code the mode does not use (44_mode_encoder.md R214). -/
def RawTable.meaning (t : RawTable) (m c : Nat) : Option CodeMeaning :=
  match keyOf (t.symOf m) c, targetOf t.latch m c, targetOf t.shift m c with
  | some key, _, _ => some (.symbol key)
  | none, some m', _ => some (.latch m')
  | none, none, some m' => some (.shift m')
  | none, none, none => if t.bshCode m = some c then some .binaryShift else none

/-- take(w): the next w bits as a number, and the bits after them; none when fewer are left (44_mode_encoder.md R214). -/
def takeBits (w : Nat) (bits : List Bool) : Option (Nat × List Bool) :=
  if bits.length < w then none else some (bitsValue (bits.take w), bits.drop w)

/-- The next l bytes of a run (44_mode_encoder.md R214). -/
def takeBytes : Nat → List Bool → Option (List Byte × List Bool)
  | 0, bits => some ([], bits)
  | l + 1, bits =>
    match takeBits 8 bits with
    | none => none
    | some (v, rest) => (takeBytes l rest).map fun r => (BitVec.ofNat 8 v :: r.1, r.2)

/-- The length prefix of a run (44_mode_encoder.md R191, R214). -/
def takeLength (t : RawTable) (bits : List Bool) : Option (Nat × List Bool) :=
  match takeBits t.ws bits with
  | none => none
  | some (0, rest) => (takeBits t.wl rest).map fun r => (r.1 + t.smax, r.2)
  | some (l + 1, rest) => some (l + 1, rest)

/-- A whole run after its code: length prefix and bytes (44_mode_encoder.md R214). -/
def takeRun (t : RawTable) (bits : List Bool) : Option (List Byte × List Bool) :=
  match takeLength t bits with
  | none => none
  | some (l, rest) => takeBytes l rest

/-- The loop of R214 in mode m with the pending shift sh; every round takes a code of at least one bit, so `fuel` = the
number of bits plus one is enough. None is Error. -/
def decodeLoop (t : RawTable) : Nat → Nat → Option Nat → List Bool → Option (List Byte)
  | 0, _, _, _ => none
  | fuel + 1, m, sh, bits =>
    let cur := sh.getD m
    match takeBits (t.w cur) bits with
    | none => if sh.isSome then none else some []
    | some (c, rest) =>
      match t.meaning cur c with
      | none => none
      | some (.symbol key) => (decodeLoop t fuel m none rest).map fun out => key ++ out
      | some (.latch m') => if sh.isSome then none else decodeLoop t fuel m' none rest
      | some (.shift m') => if sh.isSome then none else decodeLoop t fuel m (some m') rest
      | some .binaryShift =>
        if sh.isSome then none
        else
          match takeRun t rest with
          | none => none
          | some (bytes, rest') => (decodeLoop t fuel m none rest').map fun out => bytes ++ out

/-- MDecode(MT, bits, m0) (44_mode_encoder.md R214). -/
def mdecode (t : RawTable) (bits : List Bool) (m0 : Nat) : Option (List Byte) :=
  decodeLoop t (bits.length + 1) m0 none bits

end Sys2Proof.Machine
end

