-- ==== Sys2Proof/Machine/Invariant.lean ====
section
/-! DEFINITION. What holds of every state of a run: the invariants the rules name (10_state.md R12, R14, R17, R19, R20, R22,
R23, 20_memory.md R45). -/

namespace Sys2Proof.Machine

/-- The three memories are canonical and list only entries of their space (20_memory.md R45). -/
def State.memoryInv (s : State) : Prop :=
  s.buf.wf s.params.bufCap = true ∧ s.cw.wf s.params.cwCap = true ∧ s.er.wf s.params.cwCap = true

/-- SIZE[k] ≤ BS_CAP (10_state.md R20). -/
def State.streamInv (s : State) : Prop := s.bs0.length ≤ s.params.bsCap ∧ s.bs1.length ≤ s.params.bsCap

/-- PROG is shorter than 2^32 commands and CP is at most its length (10_state.md R12, 70_reset_and_hazards.md R252). -/
def State.cpInv (s : State) : Prop := s.prog.length < 2 ^ 32 ∧ s.cp.toNat ≤ s.prog.length

/-- FCODE, EPC and EINFO are 0 unless a fault has occurred (10_state.md R17); after one, EPC = CP
(70_reset_and_hazards.md R252). -/
def State.faultInv (s : State) : Prop :=
  (s.runstate ≠ .faulted → s.fcode = 0 ∧ s.epc = 0 ∧ s.einfo = 0) ∧ (s.runstate = .faulted → s.epc = s.cp)

/-- While GF_VALID = 1 the tables are those GF.BUILD makes of the configuration registers (10_state.md R18, R19). -/
def State.fieldInv (s : State) : Prop := s.gfValid = true → s.buildResult = .ok (s.exp, s.log)

/-- ME_MODE < NM, SHV = 1 implies SHM < NM, SHV = 0 implies SHM = 0 (10_state.md R22); with MT absent all three are as
after reset. -/
def State.modeInv (s : State) : Prop :=
  (s.shv = false → s.shm = 0) ∧
  match s.mt with
  | none => s.meMode = 0 ∧ s.shv = false
  | some t => s.mode < t.raw.nm ∧ (s.shv = true → s.shm.toNat < t.raw.nm)

/-- The invariant of the machine. -/
structure State.Inv (s : State) : Prop where
  memory : s.memoryInv
  streams : s.streamInv
  cp : s.cpInv
  fault : s.faultInv
  field : s.fieldInv
  modes : s.modeInv

end Sys2Proof.Machine
end

