-- ==== Sys2Proof/Safety.lean ====
section
/-! DEFINITION. What counts as a safe state and a safe end of a run, in the terms the claims use. -/

namespace Sys2Proof

/-- A state the machine may be in: it meets the invariants of the rules (10_state.md R22 and the others `State.Inv` names). -/
def Safe (s : Machine.State) : Prop := s.Inv

/-- The run has ended without a fault: HALTED, or CP at the end of PROG (70_reset_and_hazards.md R252). -/
def EndedWell (s : Machine.State) : Prop := s.quiescent = true ∧ s.runstate ≠ .faulted

/-- The run has ended with a fault of the spec (60_exceptions.md R224). -/
def EndedFaulted (s : Machine.State) : Prop := s.runstate = .faulted

end Sys2Proof
end

