-- ==== Sys2Proof/Certificates/Slice0/Obligations.lean ====
section
/-! DEFINITION. The statements about the RSBM codec block, read from the numbered rules of spec/. -/

namespace Sys2Proof
open Machine

/-- The whole effect of a command or word that raises a fault (60_exceptions.md R224): FCODE, EPC, EINFO, RUNSTATE. -/
def faultedState (s : State) (code : BitVec 8) (info : Nat) : State :=
  { s with fcode := code, epc := s.cp, einfo := BitVec.ofNat 32 info, runstate := .faulted }

/-- t is s with x[rd] = v and CP advanced; every other register and every other piece of state is as in s. -/
def WroteReg (s t : State) (rd : Reg) (v : Word) : Prop :=
  t = { s with x := t.x, cp := s.cp + 1 } ∧ ∀ r, t.reg r = if r = rd then v else s.reg r

/-- t is s with BS[k] = bits and CP advanced; the other stream and every other piece of state is as in s. -/
def WroteStream (s t : State) (k : StreamId) (bits : List Bool) : Prop :=
  t = { s with bs0 := t.bs0, bs1 := t.bs1, cp := s.cp + 1 } ∧
    ∀ k', t.stream k' = if k' = k then bits else s.stream k'

/-- The word is no command. -/
def IsIllegal (w : CmdWord) : Prop := ∃ e, decode w = .error e

/-- The opcode byte, bits 63:56 (30_encoding.md R60). -/
def opByte (w : CmdWord) : Nat := w.toNat / 2 ^ 56

/-- The command is encoded with opcode byte c (30_encoding.md R65). -/
def HasOpcode (i : Instr) (c : Nat) : Prop := opByte (encode i) = c

/-- The immediate, bits 31:0 (30_encoding.md R60). -/
def immField (w : CmdWord) : Nat := w.toNat % 2 ^ 32

/-- The n low bits of v, most significant first (41_bitstream.md R112). -/
def bitList (v n : Nat) : List Bool := List.ofFn fun j : Fin n => v.testBit (n - 1 - j.val)

/-- The least multiple of 8 that is at least v (00_scope.md R6). -/
def roundUp8 (v : Nat) : Nat := 8 * ((v + 7) / 8)

/-- Command i appends `bits` to BS[k] and makes the other writes `after`, or raises MessageTooLarge (41_bitstream.md
R112). -/
def Appends (i : Instr) (s : State) (k : StreamId) (bits : List Bool) (after : State → State) : Prop :=
  if s.params.bsCap < (s.stream k).length + bits.length then
    exec i s = .next (faultedState s 9 ((s.stream k).length + bits.length))
  else ∃ t, exec i s = .next t ∧ WroteStream (after s) t k (s.stream k ++ bits)

/-- The common checks of the scalar field commands (42_galois_field.md R130) before `body`. -/
def FieldChecks (i : Instr) (s : State) (body : Prop) : List Nat → Prop
  | [] => body
  | a :: operands =>
    if s.gfSize.toNat ≤ a then exec i s = .next (faultedState s 2 a) else FieldChecks i s body operands

/-- GF_VALID, then the operands in order (42_galois_field.md R130). -/
def FieldCommand (i : Instr) (s : State) (operands : List Nat) (body : Prop) : Prop :=
  if s.gfValid = false then exec i s = .next (faultedState s 10 0) else FieldChecks i s body operands

/-- A mode-encoder command with its table, or InvalidConfig(0) when MT is absent (44_mode_encoder.md R180). -/
def TableCommand (i : Instr) (s : State) (body : RawTable → Prop) : Prop :=
  match s.mt with
  | none => exec i s = .next (faultedState s 10 0)
  | some mt => body mt.raw

/-- r(v) of a block, highest degree first, by Horner's rule (43_reed_solomon.md R151, R155). -/
def blockValue (F : FieldTables) (r : List Nat) (v : Nat) : Nat := r.foldl (fun acc c => F.add (F.mul acc v) c) 0

/-- A block is a code block: all ec syndromes are zero (43_reed_solomon.md R155). -/
def IsBlock (F : FieldTables) (b ec : Nat) (r : List Nat) : Prop := ∀ j < ec, blockValue F r (F.gexp (b + j)) = 0

/-- The range check of CW[0 .. n-1] (43_reed_solomon.md R150): the lowest offending index is reported. -/
def CodewordChecks (i : Instr) (s : State) (n : Nat) (body : Prop) : Prop :=
  (∀ j < n, s.gfSize.toNat ≤ (s.cw.read j).toNat → (∀ l < j, (s.cw.read l).toNat < s.gfSize.toNat) →
    exec i s = .next (faultedState s 2 j)) ∧
  ((∀ j < n, (s.cw.read j).toNat < s.gfSize.toNat) → body)

/-- The erasure check of RS.DEC (43_reed_solomon.md R159): the lowest mark at or above n is reported. -/
def ErasureChecks (i : Instr) (s : State) (n : Nat) (body : Prop) : Prop :=
  (∀ j, n ≤ j → j < s.params.cwCap → s.er.read j = 1 → (∀ l, n ≤ l → l < j → s.er.read l = 0) →
    exec i s = .next (faultedState s 2 j)) ∧
  ((∀ j, n ≤ j → j < s.params.cwCap → s.er.read j = 0) → body)

/-- CW[a .. a+vals.length-1] = vals and every other entry of CW is as in s; CP advanced; nothing else changed. -/
def WroteCodewords (s t : State) (a : Nat) (vals : List Nat) : Prop :=
  t = { s with cw := t.cw, cp := s.cp + 1 } ∧
    ∀ i, (t.cw.read i).toNat =
      if a ≤ i ∧ i < a + vals.length then vals.getD (i - a) 0 else (s.cw.read i).toNat

/-- One clock of the LFSR of 43_reed_solomon.md R153; `g` holds G[1 .. ec]. -/
def lfsrStep (F : FieldTables) (ec : Nat) (g reg : List Nat) (d : Nat) : List Nat :=
  let f := F.add d (reg.getD 0 0)
  (List.range ec).map fun j =>
    if j + 1 < ec then F.sub (reg.getD (j + 1) 0) (F.mul f (g.getD j 0)) else F.neg (F.mul f (g.getD j 0))

/-- The parity the LFSR of 43_reed_solomon.md R153 leaves for the data d. -/
def lfsrParity (F : FieldTables) (ec : Nat) (g d : List Nat) : List Nat :=
  (d.foldl (lfsrStep F ec g) (List.replicate ec 0)).map F.neg

/-- The multiplication of GF(2)[x] modulo GF_POLY, bit by bit from the high coefficient of b down (42_galois_field.md R120,
R127). -/
def polyMulMod (q poly a b : Nat) : Nat :=
  (List.range q.log2).foldr
    (fun j acc => (if 2 * acc < q then 2 * acc else (2 * acc) ^^^ poly) ^^^ (if b.testBit j then a else 0)) 0

/-- The rows of spec/opcode_table.json: match and mask of each of the 40 commands. -/
def tableRows : List (CmdWord × CmdWord) :=
  [(0x0000000000000000, 0xFFFFFFFFFFFFFFFF), (0x0100000000000000, 0xFFFFFFFFFFFFFFFF),
   (0x0200000000000000, 0xFF0FFFFF00000000), (0x0300000000000000, 0xFF0FFFFF00000000),
   (0x0400000000000000, 0xFFF0FFFF00000000), (0x0800000000000000, 0xFF00FFFF00000000),
   (0x0900000000000000, 0xFFF00FFF00000000), (0x0A00000000000000, 0xFF00FFFF00000000),
   (0x0B00000000000000, 0xFFF00FFF00000000)] ++
  [(0x1000000000000000, 0xFFFFFFFEFFFFFFFF), (0x1100000000000000, 0xFFF0FFFEFFFFFFFF),
   (0x1200000000000000, 0xFFF00FFEFFFFFFFF), (0x1300000000000000, 0xFF0FFFFEFFFFFFFF),
   (0x1400000000000000, 0xFF00FFFEFFFFFFFF), (0x1500000000000000, 0xFF0000FEFFFFFFFF),
   (0x1600000000000000, 0xFFF000FEFFFFFFFF), (0x1700000000000000, 0xFFFFFFFEFFFFFFFF),
   (0x1800000000000000, 0xFFF00FFCFFFFFFFF), (0x1900000000000000, 0xFFFFFFFCFFFFFFFF),
   (0x1A00000000000000, 0xFFFFFFFEFFFFFFFF)] ++
  [(0x2000000000000000, 0xFFFFFFFFFFFFFFFF), (0x2100000000000000, 0xFF000FFFFFFFFFFF),
   (0x2200000000000000, 0xFF000FFFFFFFFFFF), (0x2300000000000000, 0xFF000FFFFFFFFFFF),
   (0x2400000000000000, 0xFF000FFFFFFFFFFF), (0x2500000000000000, 0xFF00FFFFFFFFFFFF),
   (0x2600000000000000, 0xFF00FFFFFFFFFFFF), (0x2700000000000000, 0xFF00FFFFFFFFFFFF)] ++
  [(0x3000000000000000, 0xFFF00FFFFFFFFFFF), (0x3100000000000000, 0xFF000FFFFFFFFFFF),
   (0x3200000000000000, 0xFF000FFFFFFFFFFF), (0x3300000000000000, 0xFFF0FFFFFFFFFFFF),
   (0x3400000000000000, 0xFFFFFFFFFFFFFFFF)] ++
  [(0x4000000000000000, 0xFFFFFFFFFFFFFFFF), (0x4100000000000000, 0xFFFFFFFE00000000),
   (0x4200000000000000, 0xFFFFFFFE00000000), (0x4300000000000000, 0xFFFFFFFEFFFFFFFF),
   (0x4400000000000000, 0xFFF0FFFE00000000), (0x4500000000000000, 0xFFF00FFEFFFFFFFF),
   (0x4600000000000000, 0xFF0000FEFFFFFFFF)]

/-- The number of RUNSTATE (10_state.md R14). -/
def runstateNumber : RunState → Nat
  | .run => 0
  | .halted => 1
  | .faulted => 2

/-- What CSRR reads, by CSR number, with the field layout of 10_state.md R16; none for a number that does not exist. -/
def csrNumberValue (s : State) (n : Nat) : Option Nat :=
  if n = 0x000 then some (runstateNumber s.runstate + 2 ^ 8 * s.fcode.toNat)
  else if n = 0x001 then some s.epc.toNat
  else if n = 0x002 then some s.einfo.toNat
  else if n = 0x010 then some s.gfKind.toNat
  else if n = 0x011 then some s.gfSize.toNat
  else if n = 0x012 then some s.gfPoly.toNat
  else if n = 0x013 then some s.gfAlpha.toNat
  else if n = 0x014 then some s.gfBase.toNat
  else if n = 0x015 then some s.gfValid.toNat
  else if n = 0x020 then some s.meMode.toNat
  else if n = 0x021 then some (s.shm.toNat + 2 ^ 8 * s.shv.toNat)
  else none

/-- The state in which a successful CSRW leaves the block (40_system_and_memory_commands.md R84): the register of the number
holds v, GF_VALID is 0, CP has advanced, and all else, EXP and LOG too (the model's choice, log 4), is as in s. None for a number that is no read-write CSR (10_state.md R16). -/
def csrWritten (s : State) (n : Nat) (v : Word) : Option State :=
  if n = 0x010 then some { s with gfKind := v, gfValid := false, cp := s.cp + 1 }
  else if n = 0x011 then some { s with gfSize := v, gfValid := false, cp := s.cp + 1 }
  else if n = 0x012 then some { s with gfPoly := v, gfValid := false, cp := s.cp + 1 }
  else if n = 0x013 then some { s with gfAlpha := v, gfValid := false, cp := s.cp + 1 }
  else if n = 0x014 then some { s with gfBase := v, gfValid := false, cp := s.cp + 1 }
  else none

/-- The outcome of GF.BUILD's order check for the sequence e_0 = 1, e_(i+1) = next(e_i) (42_galois_field.md R122). -/
def BuildOutcome (s : State) (next : Nat → Nat) : Prop :=
  let q := s.gfSize.toNat
  let e := fun i => next^[i] 1
  let bad := e (q - 1) ≠ 1 ∨ (∃ i < q, e i = 0) ∨ ∃ i j, i < j ∧ j < q - 1 ∧ e i = e j
  (bad → exec .gfBuild s = .next (faultedState s 10 4)) ∧
  (¬bad → ∃ t, exec .gfBuild s = .next t ∧
    t = { s with exp := t.exp, log := t.log, gfValid := true, cp := s.cp + 1 } ∧
    t.exp.length = q - 1 ∧ t.log.length = q - 1 ∧
    ∀ i < q - 1, t.exp[i]? = some (e i) ∧ t.log[e i - 1]? = some i)

/-- Which commands can raise a fault code (60_exceptions.md R220, column "raised by"); code 1 is raised by the step.
ME.INIT raises none (92_eei_decisions.md D23, log 8). -/
def raisedBy (code : Nat) (i : Instr) : Prop :=
  match i with
  | .ldb _ _ _ | .stb _ _ _ | .ldc _ _ _ | .stc _ _ _ => code = 2
  | .bsGet _ _ _ | .bsIsrange _ _ _ _ _ | .bsTobytes _ _ _ _ => code = 2
  | .bsCopy _ _ _ _ => code = 2 ∨ code = 9
  | .bsAppendbit _ _ => code = 9
  | .bsAppend _ _ _ => code = 3 ∨ code = 9
  | .gfBuild | .gfExp _ _ => code = 10
  | .gfAdd _ _ _ | .gfSub _ _ _ | .gfMul _ _ _ => code = 2 ∨ code = 10
  | .gfDiv _ _ _ | .gfInv _ _ | .gfLog _ _ => code = 2 ∨ code = 10 ∨ code = 11
  | .rsEnc _ _ | .rsChk _ _ _ | .rsDec _ _ _ => code = 2 ∨ code = 10
  | .rsErase _ => code = 2
  | .meLatch _ _ | .meShift _ _ | .meBshift _ _ _ => code = 2 ∨ code = 9 ∨ code = 10 ∨ code = 12
  | .meUnlatch _ => code = 9 ∨ code = 10 ∨ code = 12
  | .meSym _ _ _ => code = 2 ∨ code = 8 ∨ code = 9 ∨ code = 10
  | .meEncode _ _ _ _ _ => code = 2 ∨ code = 8 ∨ code = 9 ∨ code = 10 ∨ code = 12
  | .bsTerm _ | .nop | .halt | .li _ _ | .csrr _ _ | .csrw _ _ => False
  | .bsClr _ | .bsSize _ _ | .bsReverse _ | .bsClone _ _ | .rsErclr | .meInit => False

/-- The stream a command may write: the one its operand k names (41_bitstream.md R100). -/
def writesStream (i : Instr) : Option StreamId :=
  match i with
  | .bsClr k | .bsAppendbit k _ | .bsAppend k _ _ | .bsReverse k | .bsCopy k _ _ _ | .bsClone k _ | .bsTerm k => some k
  | .meLatch k _ | .meShift k _ | .meUnlatch k | .meSym k _ _ | .meBshift k _ _ | .meEncode _ k _ _ _ => some k
  | .nop | .halt | .li _ _ | .csrr _ _ | .csrw _ _ | .ldb _ _ _ | .stb _ _ _ | .ldc _ _ _ | .stc _ _ _ => none
  | .bsSize _ _ | .bsGet _ _ _ | .bsIsrange _ _ _ _ _ | .bsTobytes _ _ _ _ => none
  | .gfBuild | .gfAdd _ _ _ | .gfSub _ _ _ | .gfMul _ _ _ | .gfDiv _ _ _ | .gfInv _ _ | .gfExp _ _ | .gfLog _ _ => none
  | .rsEnc _ _ | .rsChk _ _ _ | .rsDec _ _ _ | .rsErase _ | .rsErclr | .meInit => none

/-- The general register a command may write (30_encoding.md R65, fields used). -/
def writesReg (i : Instr) : Option Reg :=
  match i with
  | .li rd _ | .csrr rd _ | .ldb rd _ _ | .ldc rd _ _ | .bsSize rd _ | .bsGet rd _ _ | .bsIsrange rd _ _ _ _ => some rd
  | .gfAdd rd _ _ | .gfSub rd _ _ | .gfMul rd _ _ | .gfDiv rd _ _ | .gfInv rd _ | .gfExp rd _ | .gfLog rd _ => some rd
  | .rsChk rd _ _ | .rsDec rd _ _ | .meEncode rd _ _ _ _ => some rd
  | .nop | .halt | .csrw _ _ | .stb _ _ _ | .stc _ _ _ | .gfBuild | .rsEnc _ _ | .rsErase _ | .rsErclr => none
  | .bsClr _ | .bsAppendbit _ _ | .bsAppend _ _ _ | .bsTobytes _ _ _ _ | .bsReverse _ | .bsCopy _ _ _ _ => none
  | .bsClone _ _ | .bsTerm _ | .meInit | .meLatch _ _ | .meShift _ _ | .meUnlatch _ | .meSym _ _ _ => none
  | .meBshift _ _ _ => none

/-- A command of the mode-encoder unit (44_mode_encoder.md). -/
def isModeCommand : Instr → Bool
  | .meInit | .meLatch _ _ | .meShift _ _ | .meUnlatch _ | .meSym _ _ _ | .meBshift _ _ _ | .meEncode _ _ _ _ _ => true
  | .nop | .halt | .li _ _ | .csrr _ _ | .csrw _ _ | .ldb _ _ _ | .stb _ _ _ | .ldc _ _ _ | .stc _ _ _ => false
  | .bsClr _ | .bsAppendbit _ _ | .bsAppend _ _ _ | .bsSize _ _ | .bsGet _ _ _ | .bsIsrange _ _ _ _ _ => false
  | .bsTobytes _ _ _ _ | .bsReverse _ | .bsCopy _ _ _ _ | .bsClone _ _ | .bsTerm _ => false
  | .gfBuild | .gfAdd _ _ _ | .gfSub _ _ _ | .gfMul _ _ _ | .gfDiv _ _ _ | .gfInv _ _ | .gfExp _ _ | .gfLog _ _ => false
  | .rsEnc _ _ | .rsChk _ _ _ | .rsDec _ _ _ | .rsErase _ | .rsErclr => false

/-- s with another PROG and CP, and EPC moved with CP when it records a fault. -/
def relocate (t : State) (prog : List CmdWord) (cp : Word) : State :=
  match t.runstate with
  | .run => { t with prog := prog, cp := cp + 1 }
  | .halted => { t with prog := prog, cp := cp }
  | .faulted => { t with prog := prog, cp := cp, epc := cp }

/-- The latch of ME.LATCH and ME.UNLATCH from ME_MODE to mode m' (44_mode_encoder.md R186, R188), after the range check. -/
def LatchesTo (i : Instr) (s : State) (t : RawTable) (k : StreamId) (m' : Nat) : Prop :=
  if s.shv = true then exec i s = .next (faultedState s 12 1)
  else
    match t.latchCode s.meMode.toNat m' with
    | none => exec i s = .next (faultedState s 12 2)
    | some c => Appends i s k (bitList c (t.w s.meMode.toNat)) fun s => { s with meMode := BitVec.ofNat 8 m' }

/-- LenField(l) (44_mode_encoder.md R191). -/
def lengthField (t : RawTable) (l : Nat) : List Bool :=
  if l ≤ 2 ^ t.ws - 1 then bitList l t.ws else bitList 0 t.ws ++ bitList (l - (2 ^ t.ws - 1)) t.wl

/-- The overhead column of 44_mode_encoder.md R197. -/
def runOverhead (i : Nat) : Nat :=
  if i ≤ 31 then 10
  else if i ≤ 62 then 20
  else if i ≤ 2078 then 21
  else if i ≤ 2109 then 31
  else if i ≤ 2140 then 41
  else 42

/-- The runs column of 44_mode_encoder.md R197. -/
def runLengths (i : Nat) : List Nat :=
  if i ≤ 31 then [i]
  else if i ≤ 62 then [31, i - 31]
  else if i ≤ 2078 then [i]
  else if i ≤ 2109 then [2078, i - 2078]
  else if i ≤ 2140 then [2078, 31, i - 2109]
  else [2078, 63]

/-- The bytes a command gives to stream k as keys and runs (44_mode_encoder.md R215); none for a command that is not allowed in
the sequence: ME.INIT, a command of another unit that writes BS[k], a mode-encoder command on the other stream. -/
def tokenBytes (k : StreamId) (s : State) (i : Instr) : Option (List Byte) :=
  let bytes := fun (o l : Nat) => (List.range l).map fun j => s.buf.read (o + j)
  if isModeCommand i = true then
    if writesStream i = some k then
      match i with
      | .meSym _ rs1 len => some (bytes (s.reg rs1).toNat len.toNat)
      | .meBshift _ rs1 rs2 => some (bytes (s.reg rs1).toNat (s.reg rs2).toNat)
      | .meEncode _ _ rs1 rs2 _ => some (bytes (s.reg rs1).toNat (s.reg rs2).toNat)
      | _ => some []
    else none
  else if writesStream i = some k then none
  else some []

/-- The commands run one after the other from s to t, none faulting and none a HALT, and give these bytes to stream k. -/
def TokenRun (k : StreamId) : List Instr → State → List Byte → State → Prop
  | [], s, bytes, t => bytes = [] ∧ t = s
  | i :: commands, s, bytes, t =>
    ∃ (u : State) (b rest : List Byte), tokenBytes k s i = some b ∧ exec i s = .next u ∧ u.runstate = .run ∧
      bytes = b ++ rest ∧ TokenRun k commands u rest t

end Sys2Proof

open Sys2Proof Sys2Proof.Machine

/-! ## Encoding (30_encoding.md) -/

/-- R67: the decoder inverts the encoder on every well-formed command. -/
def Obligations.DecodeInvertsEncode : Prop :=
  ∀ i : Instr, i.wellFormed = true → decode (encode i) = .ok i

/-- R67: every word is the encoding of exactly one command, the one it decodes to, or it is illegal and encodes none. -/
def Obligations.WordIsOneCommandOrIllegal : Prop :=
  ∀ w : CmdWord,
    (∃ i, decode w = .ok i ∧ i.wellFormed = true ∧ encode i = w ∧ ∀ j, j.wellFormed = true → encode j = w → j = i) ∨
    (IsIllegal w ∧ ∀ j : Instr, j.wellFormed = true → encode j ≠ w)

/-- R66: a word is illegal exactly under (a) to (e), and it then raises IllegalCommand with no other effect. -/
def Obligations.IllegalWordsRaiseIllegalCommand : Prop :=
  ∀ w : CmdWord,
    (IsIllegal w ↔
      (∀ row ∈ tableRows, w &&& row.2 ≠ row.1) ∨
      ((opByte w = 0x03 ∨ opByte w = 0x04) ∧ 2 ^ 12 ≤ immField w) ∨
      ((opByte w = 0x41 ∨ opByte w = 0x42) ∧ 2 ^ 8 ≤ immField w) ∨
      (opByte w = 0x44 ∧ immField w ≠ 1 ∧ immField w ≠ 2) ∨
      (opByte w = 0x03 ∧
        immField w ∉ [0x000, 0x001, 0x002, 0x010, 0x011, 0x012, 0x013, 0x014, 0x015, 0x020, 0x021]) ∨
      (opByte w = 0x04 ∧ immField w ∉ [0x010, 0x011, 0x012, 0x013, 0x014])) ∧
    (IsIllegal w → ∀ s : State, s.runstate = .run → s.prog[s.cp.toNat]? = some w →
      step s = .next (faultedState s 1 (opByte w)))

/-- R70: the worked encodings. -/
def Obligations.WorkedEncodingsDecode : Prop :=
  (decode 0x0210000000000005 = .ok (.li 1 5) ∧ encode (.li 1 5) = 0x0210000000000005) ∧
  (decode 0x1201200000000000 = .ok (.bsAppend .bs0 1 2) ∧ encode (.bsAppend .bs0 1 2) = 0x1201200000000000) ∧
  (decode 0x1803400100000000 = .ok (.bsCopy .bs1 .bs0 3 4) ∧ encode (.bsCopy .bs1 .bs0 3 4) = 0x1803400100000000) ∧
  (decode 0x1900000200000000 = .ok (.bsClone .bs0 .bs1) ∧ encode (.bsClone .bs0 .bs1) = 0x1900000200000000) ∧
  (decode 0x0407000000000011 = .ok (.csrw 0x011 7) ∧ encode (.csrw 0x011 7) = 0x0407000000000011) ∧
  (decode 0x3251200000000000 = .ok (.rsDec 5 1 2) ∧ encode (.rsDec 5 1 2) = 0x3251200000000000) ∧
  (decode 0x4401000000000002 = .ok (.meSym .bs0 1 2) ∧ encode (.meSym .bs0 1 2) = 0x4401000000000002) ∧
  (decode 0x0B00600000000003 = .ok (.stc 6 3 0) ∧ encode (.stc 6 3 0) = 0x0B00600000000003)

/-! ## The step, faults and reset -/

/-- R90: one step is the fetch of PROG[CP], then IllegalCommand or the command's own rule; elsewhere there is no next
state. -/
def Obligations.StepRunsDecodedCommand : Prop :=
  (∀ (s : State) (w : CmdWord), s.runstate = .run → s.prog[s.cp.toNat]? = some w →
    (∀ i, decode w = .ok i → step s = exec i s) ∧
    (IsIllegal w → step s = .next (faultedState s 1 (opByte w)))) ∧
  (∀ s t : State, step s = .next t → s.runstate = .run ∧ s.cp.toNat < s.prog.length)

/-- R13: the only ways CP moves. Every command answers a next state. -/
def Obligations.CpAdvancesUnlessHaltOrFault : Prop :=
  ∀ (i : Instr) (s : State), s.runstate = .run → ∃ t, exec i s = .next t ∧
    ((t.runstate = .run ∧ i ≠ .halt ∧ t.cp = s.cp + 1) ∨
     (t.runstate = .faulted ∧ i ≠ .halt ∧ t.cp = s.cp) ∨
     (t.runstate = .halted ∧ i = .halt ∧ t.cp = s.cp))

/-- From R252: step has a next state exactly when RUNSTATE = RUN and CP < len(PROG). Which fault it answers elsewhere
(endOfProgram, halted, faulted) is the model's choice (log 5, DESIGN CHOICE: R252 leaves step undefined there). A run has at most len(PROG) - CP steps and ends in one of the three quiescent conditions. -/
def Obligations.QuiescenceEndsEveryRun : Prop :=
  (∀ s : State,
    ((s.runstate = .run ∧ s.cp.toNat < s.prog.length) → ∃ t, step s = .next t) ∧
    (s.runstate = .run → s.prog.length ≤ s.cp.toNat → step s = .fault .endOfProgram) ∧
    (s.runstate = .halted → step s = .fault .halted) ∧
    (s.runstate = .faulted → step s = .fault .faulted)) ∧
  (∀ s t : State, step s = .next t →
    (t.runstate = .halted → t.cp = s.cp ∧ (s.prog[s.cp.toNat]?).map decode = some (.ok .halt)) ∧
    (t.runstate = .faulted → t.cp = s.cp ∧ t.epc = s.cp)) ∧
  (∀ s : State, s.cpInv → ∃ f, core.run (s.prog.length - s.cp.toNat + 1) s = .fault f)

/-- R224: the whole effect of a step that raises a fault. -/
def Obligations.FaultEntryIsPrecise : Prop :=
  ∀ s t : State, step s = .next t → t.runstate = .faulted →
    ∃ (code : BitVec 8) (info : Nat), t = faultedState s code info

/-- From R220: which fault codes each command can raise; IllegalCommand comes from the step; codes 4 to 7 never. That ME.INIT
raises none, with MT absent too, is the model's reading of 92_eei_decisions.md D23 (log 8). -/
def Obligations.FaultCodesComeFromListedCommands : Prop :=
  (∀ (i : Instr) (s t : State), i.wellFormed = true → s.streamInv →
    s.runstate = .run → exec i s = .next t → t.runstate = .faulted → raisedBy t.fcode.toNat i) ∧
  (∀ s t : State, s.streamInv → step s = .next t → t.runstate = .faulted →
    t.fcode.toNat ∈ [1, 2, 3, 8, 9, 10, 11, 12])

/-- R26: the reset table. -/
def Obligations.ResetGivesTableValues : Prop :=
  ∀ (params : Params) (mt : Option ModeTable) (prog : List CmdWord),
    let s := State.afterReset params mt prog
    (∀ r, s.reg r = 0) ∧ s.cp = 0 ∧ s.runstate = .run ∧ s.fcode = 0 ∧ s.epc = 0 ∧ s.einfo = 0 ∧
    s.gfKind = 0 ∧ s.gfSize = 0 ∧ s.gfPoly = 0 ∧ s.gfAlpha = 0 ∧ s.gfBase = 0 ∧ s.gfValid = false ∧
    (∀ t, mt = some t → s.meMode.toNat = t.raw.dm) ∧ (mt = none → s.meMode = 0) ∧ s.shv = false ∧ s.shm = 0 ∧
    (∀ k, (s.stream k).length = 0) ∧ (∀ i, s.er.read i = 0) ∧ (∀ a, s.buf.read a = 0) ∧ (∀ i, s.cw.read i = 0) ∧
    s.prog = prog ∧ s.mt = mt ∧ s.params = params

/-- R250, R251: a launch with BUF and CW preloaded meets the invariant and reads back what the host wrote. -/
def Obligations.LaunchLoadsBuffers : Prop :=
  ∀ (params : Params) (mt : Option ModeTable) (prog : List CmdWord) (buf : List Byte) (cw : List (BitVec 16)),
    prog.length < 2 ^ 32 → buf.length ≤ params.bufCap → cw.length ≤ params.cwCap →
    let s := State.launch params mt prog buf cw
    s.Inv ∧ (∀ a, s.buf.read a = buf.getD a 0) ∧ (∀ i, s.cw.read i = cw.getD i 0) ∧
    s = { State.afterReset params mt prog with buf := s.buf, cw := s.cw }

/-- The invariant holds at State.reset, and after a reset with any inputs. -/
def Obligations.ResetMeetsInvariant : Prop :=
  State.reset.Inv ∧
  ∀ (params : Params) (mt : Option ModeTable) (prog : List CmdWord), prog.length < 2 ^ 32 →
    (State.afterReset params mt prog).Inv

/-- Every step keeps the invariant: canonical memories within their spaces, streams within BS_CAP, CP within PROG, the fault
registers zero without a fault, tables that match the GF registers, and the mode registers of R22. -/
def Obligations.StepKeepsInvariant : Prop :=
  ∀ s t : State, s.Inv → step s = .next t → t.Inv

/-! ## Whole-machine rules -/

/-- R24: PROG, MT and the parameters do not change during a run. -/
def Obligations.RunInputsNeverChange : Prop :=
  ∀ s t : State, step s = .next t → t.prog = s.prog ∧ t.mt = s.mt ∧ t.params = s.params

/-- R17: STATUS, EPC and EINFO are written only by fault entry, and a CSRR of one gives 0 in every state of a run. -/
def Obligations.StatusRegistersReadZeroWhileRunning : Prop :=
  (∀ (i : Instr) (s t : State), exec i s = .next t → t.runstate ≠ .faulted →
    t.fcode = s.fcode ∧ t.epc = s.epc ∧ t.einfo = s.einfo) ∧
  (∀ (s : State) (rd : Reg) (n : BitVec 12), s.Inv → s.runstate = .run → n.toNat ≤ 2 →
    ∃ t, exec (.csrr rd n) s = .next t ∧ WroteReg s t rd 0)

/-- R18: every completed CSRW clears GF_VALID whatever it writes, only GF.BUILD sets it, and only CSRW changes the five
configuration registers. -/
def Obligations.OnlyBuildValidatesField : Prop :=
  (∀ (s : State) (n : BitVec 12) (rs1 : Reg), 0x010 ≤ n.toNat → n.toNat ≤ 0x014 →
    ∃ t, exec (.csrw n rs1) s = .next t ∧ t.gfValid = false ∧ csrNumberValue t n.toNat = some (s.reg rs1).toNat) ∧
  (∀ (i : Instr) (s t : State), exec i s = .next t → s.gfValid = false → t.gfValid = true → i = .gfBuild) ∧
  (∀ (i : Instr) (s t : State), exec i s = .next t → (∀ n r, i ≠ .csrw n r) →
    t.gfKind = s.gfKind ∧ t.gfSize = s.gfSize ∧ t.gfPoly = s.gfPoly ∧ t.gfAlpha = s.gfAlpha ∧ t.gfBase = s.gfBase)

/-- From R19, R130: the tables are written only by GF.BUILD, and while GF_VALID = 0 every command that reads them raises
InvalidConfig. That CSRW, and any command in a state with GF_VALID = 0, leaves their contents as they were is the model's
choice (log 4, DESIGN CHOICE: R19 and U20 call them unspecified there). -/
def Obligations.TablesUnreadableUntilBuilt : Prop :=
  (∀ (i : Instr) (s t : State), exec i s = .next t → i ≠ .gfBuild → t.exp = s.exp ∧ t.log = s.log) ∧
  (∀ (s : State) (rd rs1 rs2 : Reg), s.gfValid = false →
    ∀ i ∈ ([.gfAdd rd rs1 rs2, .gfSub rd rs1 rs2, .gfMul rd rs1 rs2, .gfDiv rd rs1 rs2, .gfInv rd rs1, .gfExp rd rs1,
        .gfLog rd rs1, .rsEnc rs1 rs2, .rsChk rd rs1 rs2, .rsDec rd rs1 rs2] : List Instr),
      exec i s = .next (faultedState s 10 0))

/-- R23, R100: who writes each space, and no command writes a stream or a register its operands do not name. -/
def Obligations.SpacesWrittenOnlyByTheirCommands : Prop :=
  ∀ (i : Instr) (s t : State), exec i s = .next t →
    ((∀ r2 imm r1, i ≠ .stb r2 imm r1) → (∀ k r1 r2 r3, i ≠ .bsTobytes k r1 r2 r3) → t.buf = s.buf) ∧
    ((∀ r2 imm r1, i ≠ .stc r2 imm r1) → (∀ r1 r2, i ≠ .rsEnc r1 r2) → (∀ rd r1 r2, i ≠ .rsDec rd r1 r2) →
      t.cw = s.cw) ∧
    ((∀ r, i ≠ .rsErase r) → i ≠ .rsErclr → t.er = s.er) ∧
    (∀ k, writesStream i ≠ some k → t.stream k = s.stream k) ∧
    (∀ r, writesReg i ≠ some r → t.reg r = s.reg r) ∧
    (isModeCommand i = false → t.meMode = s.meMode ∧ t.shv = s.shv ∧ t.shm = s.shm)

/-- R251: no command's effect depends on CP or on the other commands of PROG. -/
def Obligations.EffectIndependentOfPlaceInProgram : Prop :=
  ∀ (i : Instr) (s t : State) (prog : List CmdWord) (cp : Word), s.runstate = .run → exec i s = .next t →
    exec i { s with prog := prog, cp := cp } = .next (relocate t prog cp)

/-! ## System commands, loads and stores (40_system_and_memory_commands.md) -/

/-- R80. -/
def Obligations.NopOnlyAdvances : Prop :=
  (∀ s : State, exec .nop s = .next { s with cp := s.cp + 1 }) ∧
  (∀ w : CmdWord, opByte w = 0x00 → w ≠ 0 → IsIllegal w) ∧ decode 0 = .ok .nop

/-- R81. -/
def Obligations.HaltStopsInPlace : Prop :=
  (∀ s : State, exec .halt s = .next { s with runstate := .halted }) ∧
  (∀ w : CmdWord, opByte w = 0x01 → w ≠ 0x0100000000000000 → IsIllegal w) ∧
  decode 0x0100000000000000 = .ok .halt ∧
  (∀ s t : State, step s = .next t → s.runstate ≠ .halted)

/-- R82. -/
def Obligations.LiLoadsImmediate : Prop :=
  (∀ (rd : Reg) (imm : Word) (s : State), HasOpcode (.li rd imm) 0x02 ∧
    ∃ t, exec (.li rd imm) s = .next t ∧ WroteReg s t rd imm) ∧
  (∀ w : CmdWord, opByte w = 0x02 → (IsIllegal w ↔ w.extractLsb' 32 20 ≠ 0))

/-- R83, with the field layout of R16. -/
def Obligations.CsrrReadsRegister : Prop :=
  (∀ (rd : Reg) (n : BitVec 12) (s : State), HasOpcode (.csrr rd n) 0x03 ∧
    match csrNumberValue s n.toNat with
    | some v => ∃ t, exec (.csrr rd n) s = .next t ∧ WroteReg s t rd (BitVec.ofNat 32 v) ∧ v < 2 ^ 32
    | none => exec (.csrr rd n) s = .next (faultedState s 1 0x03)) ∧
  (∀ w : CmdWord, opByte w = 0x03 → 2 ^ 12 ≤ immField w → IsIllegal w) ∧
  (∀ s : State, s.Inv → s.runstate = .run → ∀ n ≤ 2, csrNumberValue s n = some 0)

/-- From R84. That CSRW leaves EXP and LOG unchanged is the model's choice (log 4, DESIGN CHOICE: R19 and U20 call their
contents unspecified once GF_VALID = 0); the rest is R84's. -/
def Obligations.CsrwWritesRegisterAndInvalidates : Prop :=
  (∀ (n : BitVec 12) (rs1 : Reg) (s : State), HasOpcode (.csrw n rs1) 0x04 ∧
    match csrWritten s n.toNat (s.reg rs1) with
    | some t => exec (.csrw n rs1) s = .next t
    | none => exec (.csrw n rs1) s = .next (faultedState s 1 0x04)) ∧
  (∀ w : CmdWord, opByte w = 0x04 → immField w ∉ [0x010, 0x011, 0x012, 0x013, 0x014] → IsIllegal w)

/-- R85, R87: LDB and LDC. -/
def Obligations.LoadsReadByteAndCodeword : Prop :=
  ∀ (rd : Reg) (imm : Word) (rs1 : Reg) (s : State),
    let a := (s.reg rs1).toNat + imm.toNat
    HasOpcode (.ldb rd imm rs1) 0x08 ∧ HasOpcode (.ldc rd imm rs1) 0x0A ∧
    (if s.params.bufCap ≤ a then exec (.ldb rd imm rs1) s = .next (faultedState s 2 a)
     else ∃ t, exec (.ldb rd imm rs1) s = .next t ∧ WroteReg s t rd (BitVec.ofNat 32 (s.buf.read a).toNat)) ∧
    (if s.params.cwCap ≤ a then exec (.ldc rd imm rs1) s = .next (faultedState s 2 a)
     else ∃ t, exec (.ldc rd imm rs1) s = .next t ∧ WroteReg s t rd (BitVec.ofNat 32 (s.cw.read a).toNat))

/-- R86, R88: STB and STC; the store goes to index x[rs1] + imm and every other entry is unchanged. -/
def Obligations.StoresWriteByteAndCodeword : Prop :=
  ∀ (rs2 : Reg) (imm : Word) (rs1 : Reg) (s : State), s.memoryInv →
    let a := (s.reg rs1).toNat + imm.toNat
    let v := (s.reg rs2).toNat
    HasOpcode (.stb rs2 imm rs1) 0x09 ∧ HasOpcode (.stc rs2 imm rs1) 0x0B ∧
    (if s.params.bufCap ≤ a then exec (.stb rs2 imm rs1) s = .next (faultedState s 2 a)
     else if 256 ≤ v then exec (.stb rs2 imm rs1) s = .next (faultedState s 2 v)
     else ∃ t, exec (.stb rs2 imm rs1) s = .next t ∧ t = { s with buf := t.buf, cp := s.cp + 1 } ∧
       ∀ b, (t.buf.read b).toNat = if b = a then v else (s.buf.read b).toNat) ∧
    (if s.params.cwCap ≤ a then exec (.stc rs2 imm rs1) s = .next (faultedState s 2 a)
     else if 65536 ≤ v then exec (.stc rs2 imm rs1) s = .next (faultedState s 2 v)
     else ∃ t, exec (.stc rs2 imm rs1) s = .next t ∧ WroteCodewords s t a [v])

/-! ## BitStream unit (41_bitstream.md) -/

/-- R101, R104, R108, R110: BS.CLR, BS.SIZE, BS.REVERSE, BS.CLONE. -/
def Obligations.StreamClearSizeReverseClone : Prop :=
  ∀ (k ks : StreamId) (rd : Reg) (s : State),
    HasOpcode (.bsClr k) 0x10 ∧ HasOpcode (.bsSize rd k) 0x13 ∧ HasOpcode (.bsReverse k) 0x17 ∧
    HasOpcode (.bsClone k ks) 0x19 ∧
    (∃ t, exec (.bsClr k) s = .next t ∧ WroteStream s t k []) ∧
    (∃ t, exec (.bsSize rd k) s = .next t ∧ WroteReg s t rd (BitVec.ofNat 32 (s.stream k).length)) ∧
    (∃ t, exec (.bsReverse k) s = .next t ∧ WroteStream s t k (t.stream k) ∧
      (t.stream k).length = (s.stream k).length ∧
      ∀ i < (s.stream k).length, (t.stream k)[i]? = (s.stream k)[(s.stream k).length - 1 - i]?) ∧
    (∃ t, exec (.bsClone k ks) s = .next t ∧ WroteStream s t k (s.stream ks))

/-- R102, R112. -/
def Obligations.AppendbitAppendsTruthValue : Prop :=
  ∀ (k : StreamId) (rs1 : Reg) (s : State),
    HasOpcode (.bsAppendbit k rs1) 0x11 ∧
    Appends (.bsAppendbit k rs1) s k [decide ((s.reg rs1).toNat ≠ 0)] id

/-- R103, R112. -/
def Obligations.AppendAppendsLowBits : Prop :=
  ∀ (k : StreamId) (rs1 rs2 : Reg) (s : State),
    let v := (s.reg rs1).toNat
    let n := (s.reg rs2).toNat
    HasOpcode (.bsAppend k rs1 rs2) 0x12 ∧
    if 32 < n ∨ (n < 32 ∧ 2 ^ n ≤ v) then exec (.bsAppend k rs1 rs2) s = .next (faultedState s 3 n)
    else Appends (.bsAppend k rs1 rs2) s k (bitList v n) id

/-- R105. -/
def Obligations.GetReadsOneBit : Prop :=
  ∀ (rd : Reg) (k : StreamId) (rs1 : Reg) (s : State),
    HasOpcode (.bsGet rd k rs1) 0x14 ∧
    match (s.stream k)[(s.reg rs1).toNat]? with
    | none => exec (.bsGet rd k rs1) s = .next (faultedState s 2 (s.reg rs1).toNat)
    | some b => ∃ t, exec (.bsGet rd k rs1) s = .next t ∧ WroteReg s t rd (if b then 1 else 0)

/-- R106. -/
def Obligations.IsrangeTestsEveryBit : Prop :=
  ∀ (rd : Reg) (k : StreamId) (rs1 rs2 rs3 : Reg) (s : State),
    let b := (s.reg rs1).toNat
    let e := (s.reg rs2).toNat
    let val := decide ((s.reg rs3).toNat ≠ 0)
    HasOpcode (.bsIsrange rd k rs1 rs2 rs3) 0x15 ∧
    if e < b ∨ (s.stream k).length < e then exec (.bsIsrange rd k rs1 rs2 rs3) s = .next (faultedState s 2 e)
    else ∃ t v, exec (.bsIsrange rd k rs1 rs2 rs3) s = .next t ∧ WroteReg s t rd v ∧
      (((∀ i, b ≤ i → i < e → (s.stream k)[i]? = some val) ∧ v = 1) ∨
       ((∃ i, b ≤ i ∧ i < e ∧ (s.stream k)[i]? = some (!val)) ∧ v = 0))

/-- R107. -/
def Obligations.TobytesPacksMsbFirst : Prop :=
  ∀ (k : StreamId) (rs1 rs2 rs3 : Reg) (s : State), s.memoryInv →
    let o := (s.reg rs1).toNat
    let y := (s.reg rs2).toNat
    let nb := (s.reg rs3).toNat
    let size := (s.stream k).length
    HasOpcode (.bsTobytes k rs1 rs2 rs3) 0x16 ∧
    if size < o then exec (.bsTobytes k rs1 rs2 rs3) s = .next (faultedState s 2 o)
    else if roundUp8 (size - o) < 8 * nb then exec (.bsTobytes k rs1 rs2 rs3) s = .next (faultedState s 2 nb)
    else if s.params.bufCap < y + nb then exec (.bsTobytes k rs1 rs2 rs3) s = .next (faultedState s 2 (y + nb))
    else ∃ t, exec (.bsTobytes k rs1 rs2 rs3) s = .next t ∧ t = { s with buf := t.buf, cp := s.cp + 1 } ∧
      (∀ a, ¬(y ≤ a ∧ a < y + nb) → t.buf.read a = s.buf.read a) ∧
      (∀ j < nb, ∀ u < 8, (t.buf.read (y + j)).getLsbD (7 - u) = (s.stream k).getD (o + 8 * j + u) false)

/-- R109, R112. -/
def Obligations.CopyAppendsSubrange : Prop :=
  ∀ (k ks : StreamId) (rs1 rs2 : Reg) (s : State),
    let b := (s.reg rs1).toNat
    let l := (s.reg rs2).toNat
    HasOpcode (.bsCopy k ks rs1 rs2) 0x18 ∧
    if (s.stream ks).length < b + l then exec (.bsCopy k ks rs1 rs2) s = .next (faultedState s 2 (b + l))
    else ∃ seg : List Bool, seg.length = l ∧ (∀ i < l, seg[i]? = (s.stream ks)[b + i]?) ∧
      Appends (.bsCopy k ks rs1 rs2) s k seg id

/-- R111: BS.TERM pads with zeros to a multiple of 8 and cannot fault on a stream within BS_CAP. -/
def Obligations.TermPadsToByteBoundary : Prop :=
  ∀ (k : StreamId) (s : State), (s.stream k).length ≤ s.params.bsCap → HasOpcode (.bsTerm k) 0x1A ∧
    ∃ t, exec (.bsTerm k) s = .next t ∧
      WroteStream s t k
        (s.stream k ++ List.replicate (roundUp8 (s.stream k).length - (s.stream k).length) false)

/-- R113: the laws (a) to (e). -/
def Obligations.BitStreamLaws : Prop :=
  (∀ (k : StreamId) (s t u : State), exec (.bsReverse k) s = .next t → exec (.bsReverse k) t = .next u →
    u.stream k = s.stream k) ∧
  (∀ (k : StreamId) (r1 r2 r3 : Reg) (s t : State), exec (.bsTobytes k r1 r2 r3) s = .next t → t.runstate = s.runstate →
    s.runstate = .run → t = { s with buf := t.buf, cp := s.cp + 1 }) ∧
  (∀ (k : StreamId) (r1 r2 r3 : Reg) (s t u v : State), s.runstate = .run → (s.stream k).length ≤ s.params.bsCap →
    (s.reg r1).toNat = 0 → 8 * (s.reg r3).toNat = roundUp8 (s.stream k).length →
    exec (.bsTerm k) s = .next t → exec (.bsTobytes k r1 r2 r3) s = .next u → exec (.bsTobytes k r1 r2 r3) t = .next v →
    (t.stream k).length % 8 = 0 ∧ (u.runstate = .run → v.runstate = .run ∧ v.buf = u.buf)) ∧
  (∀ (k : StreamId) (r1 r2 r3 r4 r5 : Reg) (s t u : State), s.runstate = .run → s.memoryInv →
    (s.reg r2).toNat = 8 → (s.reg r3).toNat = (s.stream k).length → (s.stream k).length % 8 = 0 → (s.reg r5).toNat = 1 →
    exec (.bsAppend k r1 r2) s = .next t → t.runstate = .run →
    exec (.bsTobytes k r3 r4 r5) t = .next u → u.runstate = .run →
    (u.buf.read (s.reg r4).toNat).toNat = (s.reg r1).toNat) ∧
  (∀ (k ks : StreamId) (i : Instr) (s t u : State), k ≠ ks → exec (.bsClone k ks) s = .next t → exec i t = .next u →
    (writesStream i ≠ some ks → u.stream ks = s.stream ks) ∧ (writesStream i ≠ some k → u.stream k = s.stream ks))

/-! ## Galois-field unit (42_galois_field.md) -/

/-- R122. -/
def Obligations.BuildFollowsItsChecks : Prop :=
  ∀ s : State,
    let q := s.gfSize.toNat
    let poly := s.gfPoly.toNat
    let alpha := s.gfAlpha.toNat
    let badSize := s.params.gfMaxSize < q
    decode 0x2000000000000000 = .ok .gfBuild ∧
    (s.gfKind.toNat = 0 →
      (q < 4 ∨ badSize ∨ (∀ m, q ≠ 2 ^ m) → exec .gfBuild s = .next (faultedState s 10 1)) ∧
      (¬(q < 4 ∨ badSize ∨ ∀ m, q ≠ 2 ^ m) →
        (poly < q ∨ 2 * q ≤ poly → exec .gfBuild s = .next (faultedState s 10 2)) ∧
        (¬(poly < q ∨ 2 * q ≤ poly) → BuildOutcome s fun v => if 2 * v < q then 2 * v else (2 * v) ^^^ poly))) ∧
    (s.gfKind.toNat = 1 →
      (q < 3 ∨ badSize → exec .gfBuild s = .next (faultedState s 10 1)) ∧
      (¬(q < 3 ∨ badSize) →
        (alpha < 2 ∨ q ≤ alpha → exec .gfBuild s = .next (faultedState s 10 3)) ∧
        (¬(alpha < 2 ∨ q ≤ alpha) → BuildOutcome s fun v => (v * alpha) % q))) ∧
    (2 ≤ s.gfKind.toNat → exec .gfBuild s = .next (faultedState s 10 0))

/-- R125: after a successful GF.BUILD the tables are inverse to each other. -/
def Obligations.BuiltTablesAreInverse : Prop :=
  ∀ s t : State, s.runstate = .run → exec .gfBuild s = .next t → t.runstate = .run →
    let q := s.gfSize.toNat
    let F := t.field
    F.exp 0 = 1 ∧ F.glog 1 = 0 ∧
    (∀ i ≤ q - 2, F.exp i = F.gexp i ∧ 0 < F.exp i ∧ F.exp i < q ∧ F.glog (F.exp i) = i) ∧
    (∀ a, 1 ≤ a → a < q → F.glog a ≤ q - 2 ∧ F.exp (F.glog a) = a)

/-- R127: multiplication by the tables is multiplication modulo GF_POLY or modulo q. -/
def Obligations.TableProductIsFieldProduct : Prop :=
  ∀ s : State, s.fieldInv → s.gfValid = true → ∀ a b, a < s.gfSize.toNat → b < s.gfSize.toNat →
    let logOf := fun v => s.log.getD (v - 1) 0
    let product :=
      if a = 0 ∨ b = 0 then 0 else s.exp.getD ((logOf a + logOf b) % (s.gfSize.toNat - 1)) 0
    s.field.mul a b = product ∧
      product =
        if s.gfKind.toNat = 0 then polyMulMod s.gfSize.toNat s.gfPoly.toNat a b else (a * b) % s.gfSize.toNat

/-- R140: a built field is a field. -/
def Obligations.BuiltFieldIsField : Prop :=
  ∀ s : State, s.fieldInv → s.gfValid = true →
    let q := s.gfSize.toNat
    let F := s.field
    ∀ a b c, a < q → b < q → c < q →
      F.add a b < q ∧ F.mul a b < q ∧ F.neg a < q ∧
      F.add a b = F.add b a ∧ F.add (F.add a b) c = F.add a (F.add b c) ∧
      F.mul a b = F.mul b a ∧ F.mul (F.mul a b) c = F.mul a (F.mul b c) ∧
      F.mul a (F.add b c) = F.add (F.mul a b) (F.mul a c) ∧
      F.add a 0 = a ∧ F.mul a 1 = a ∧ F.add a (F.neg a) = 0 ∧ F.sub a b = F.add a (F.neg b) ∧
      (a ≠ 0 → F.inv a < q ∧ F.mul a (F.inv a) = 1) ∧ (b ≠ 0 → F.div a b = F.mul a (F.inv b)) ∧
      (s.gfKind.toNat = 0 → F.neg a = a) ∧ (s.gfKind.toNat = 1 → F.neg 1 = q - 1)

/-- R130, R131, R132: GF.ADD and GF.SUB in both kinds. -/
def Obligations.GfAddSubResults : Prop :=
  ∀ (rd rs1 rs2 : Reg) (s : State),
    let q := s.gfSize.toNat
    let a := (s.reg rs1).toNat
    let b := (s.reg rs2).toNat
    HasOpcode (.gfAdd rd rs1 rs2) 0x21 ∧ HasOpcode (.gfSub rd rs1 rs2) 0x22 ∧
    FieldCommand (.gfAdd rd rs1 rs2) s [a, b]
      (∃ t, exec (.gfAdd rd rs1 rs2) s = .next t ∧
        WroteReg s t rd (BitVec.ofNat 32 (if s.gfKind.toNat = 0 then a ^^^ b else (a + b) % q))) ∧
    FieldCommand (.gfSub rd rs1 rs2) s [a, b]
      (∃ t, exec (.gfSub rd rs1 rs2) s = .next t ∧
        WroteReg s t rd (BitVec.ofNat 32 (if s.gfKind.toNat = 0 then a ^^^ b else (a + q - b) % q)))

/-- R127, R128, R133, R134, R135: GF.MUL, GF.DIV and GF.INV by the tables; a zero divisor is FieldDomain. -/
def Obligations.GfMulDivInvResults : Prop :=
  ∀ (rd rs1 rs2 : Reg) (s : State),
    let q := s.gfSize.toNat
    let a := (s.reg rs1).toNat
    let b := (s.reg rs2).toNat
    let logOf := fun v => s.log.getD (v - 1) 0
    HasOpcode (.gfMul rd rs1 rs2) 0x23 ∧ HasOpcode (.gfDiv rd rs1 rs2) 0x24 ∧ HasOpcode (.gfInv rd rs1) 0x25 ∧
    FieldCommand (.gfMul rd rs1 rs2) s [a, b]
      (∃ t, exec (.gfMul rd rs1 rs2) s = .next t ∧
        WroteReg s t rd
          (BitVec.ofNat 32 (if a = 0 ∨ b = 0 then 0 else s.exp.getD ((logOf a + logOf b) % (q - 1)) 0))) ∧
    FieldCommand (.gfDiv rd rs1 rs2) s [a, b]
      (if b = 0 then exec (.gfDiv rd rs1 rs2) s = .next (faultedState s 11 0)
       else ∃ t, exec (.gfDiv rd rs1 rs2) s = .next t ∧
        WroteReg s t rd
          (BitVec.ofNat 32 (if a = 0 then 0 else s.exp.getD ((logOf a + (q - 1) - logOf b) % (q - 1)) 0))) ∧
    FieldCommand (.gfInv rd rs1) s [a]
      (if a = 0 then exec (.gfInv rd rs1) s = .next (faultedState s 11 0)
       else ∃ t, exec (.gfInv rd rs1) s = .next t ∧
        WroteReg s t rd (BitVec.ofNat 32 (s.exp.getD ((q - 1 - logOf a) % (q - 1)) 0)))

/-- R129, R136, R137: GF.EXP and GF.LOG. -/
def Obligations.GfExpLogResults : Prop :=
  ∀ (rd rs1 : Reg) (s : State),
    let q := s.gfSize.toNat
    let a := (s.reg rs1).toNat
    HasOpcode (.gfExp rd rs1) 0x26 ∧ HasOpcode (.gfLog rd rs1) 0x27 ∧
    FieldCommand (.gfExp rd rs1) s []
      (∃ t, exec (.gfExp rd rs1) s = .next t ∧ WroteReg s t rd (BitVec.ofNat 32 (s.exp.getD (a % (q - 1)) 0))) ∧
    FieldCommand (.gfLog rd rs1) s [a]
      (if a = 0 then exec (.gfLog rd rs1) s = .next (faultedState s 11 0)
       else ∃ t, exec (.gfLog rd rs1) s = .next t ∧ WroteReg s t rd (BitVec.ofNat 32 (s.log.getD (a - 1) 0)))

/-! ## Reed-Solomon unit (43_reed_solomon.md) -/

/-- R150, R154: RS.ENC writes exactly the parity after the data. -/
def Obligations.EncWritesParityAfterData : Prop :=
  ∀ (rs1 rs2 : Reg) (s : State), s.Inv →
    let k := (s.reg rs1).toNat
    let ec := (s.reg rs2).toNat
    HasOpcode (.rsEnc rs1 rs2) 0x30 ∧
    if s.gfValid = false then exec (.rsEnc rs1 rs2) s = .next (faultedState s 10 0)
    else if s.gfSize.toNat < k + ec ∨ s.params.cwCap < k + ec then
      exec (.rsEnc rs1 rs2) s = .next (faultedState s 2 (k + ec))
    else CodewordChecks (.rsEnc rs1 rs2) s k
      (∃ t, exec (.rsEnc rs1 rs2) s = .next t ∧
        WroteCodewords s t k (parity s.field s.gfBase.toNat ec (s.codewords k)) ∧
        (parity s.field s.gfBase.toNat ec (s.codewords k)).length = ec)

/-- R153: the long-hand LFSR computes the parity of every data over a built field. -/
def Obligations.LfsrComputesParity : Prop :=
  ∀ (s : State) (ec : Nat) (d : List Nat), s.fieldInv → s.gfValid = true → (∀ v ∈ d, v < s.gfSize.toNat) →
    parity s.field s.gfBase.toNat ec d =
      lfsrParity s.field ec
        ((List.range ec).map fun j => (generator s.field s.gfBase.toNat ec).getD (ec - 1 - j) 0) d

/-- R153, R155: the block RS.ENC makes is a code block: every syndrome is zero. -/
def Obligations.EncodedBlockHasZeroSyndromes : Prop :=
  ∀ (rs1 rs2 : Reg) (s t : State), s.Inv → s.runstate = .run →
    exec (.rsEnc rs1 rs2) s = .next t → t.runstate = .run →
    IsBlock t.field t.gfBase.toNat (s.reg rs2).toNat (t.codewords ((s.reg rs1).toNat + (s.reg rs2).toNat))

/-- R150, R155, R156: RS.CHK tells code blocks from others and changes nothing but rd. -/
def Obligations.ChkTestsSyndromes : Prop :=
  ∀ (rd rs1 rs2 : Reg) (s : State),
    let n := (s.reg rs1).toNat
    let ec := (s.reg rs2).toNat
    HasOpcode (.rsChk rd rs1 rs2) 0x31 ∧
    if s.gfValid = false then exec (.rsChk rd rs1 rs2) s = .next (faultedState s 10 0)
    else if s.gfSize.toNat < n ∨ s.params.cwCap < n then exec (.rsChk rd rs1 rs2) s = .next (faultedState s 2 n)
    else if n < ec then exec (.rsChk rd rs1 rs2) s = .next (faultedState s 2 ec)
    else CodewordChecks (.rsChk rd rs1 rs2) s n
      (∃ t v, exec (.rsChk rd rs1 rs2) s = .next t ∧ WroteReg s t rd v ∧
        ((IsBlock s.field s.gfBase.toNat ec (s.codewords n) ∧ v = 1) ∨
         (¬IsBlock s.field s.gfBase.toNat ec (s.codewords n) ∧ v = 0)))

/-- R157, R158. -/
def Obligations.ErasureMarksSetAndCleared : Prop :=
  ∀ (rs1 : Reg) (s : State), s.memoryInv →
    let p := (s.reg rs1).toNat
    HasOpcode (.rsErase rs1) 0x33 ∧ decode 0x3400000000000000 = .ok .rsErclr ∧
    (if s.params.cwCap ≤ p then exec (.rsErase rs1) s = .next (faultedState s 2 p)
     else ∃ t, exec (.rsErase rs1) s = .next t ∧ t = { s with er := t.er, cp := s.cp + 1 } ∧
       ∀ i, t.er.read i = if i = p then 1 else s.er.read i) ∧
    (∃ t, exec .rsErclr s = .next t ∧ t = { s with er := t.er, cp := s.cp + 1 } ∧ ∀ i, t.er.read i = 0)

/-- R150, R159, R171: the checks of RS.DEC in order, and its two results. -/
def Obligations.DecChecksAndResults : Prop :=
  ∀ (rd rs1 rs2 : Reg) (s : State), s.Inv →
    let n := (s.reg rs1).toNat
    let ec := (s.reg rs2).toNat
    let i := Instr.rsDec rd rs1 rs2
    HasOpcode i 0x32 ∧
    if s.gfValid = false then exec i s = .next (faultedState s 10 0)
    else if s.gfSize.toNat - 1 < n ∨ s.params.cwCap < n then exec i s = .next (faultedState s 2 n)
    else if n < ec then exec i s = .next (faultedState s 2 ec)
    else CodewordChecks i s n (ErasureChecks i s n
      (match decodeBlock s.field s.gfBase.toNat n ec ((List.range n).filter fun j => s.er.read j = 1)
          (s.codewords n) with
       | some out => out.length = n ∧ ∃ t, exec i s = .next t ∧
          t = { s with x := t.x, cw := t.cw, cp := s.cp + 1 } ∧
          (∀ r, t.reg r = if r = rd then 0 else s.reg r) ∧
          (∀ j, (t.cw.read j).toNat = if j < n then out.getD j 0 else (s.cw.read j).toNat)
       | none => ∃ t, exec i s = .next t ∧ WroteReg s t rd 1))

/-- R160, R161: a block with zero syndromes is Ok and unchanged, whatever marks are set below n; any other with more than
ec marks is ChecksumException. -/
def Obligations.CleanBlockUnchangedElseErasureBudget : Prop :=
  ∀ (rd rs1 rs2 : Reg) (s : State), s.memoryInv →
    let n := (s.reg rs1).toNat
    let ec := (s.reg rs2).toNat
    let erased := (List.range n).filter fun j => s.er.read j = 1
    s.gfValid = true → n ≤ s.gfSize.toNat - 1 → n ≤ s.params.cwCap → ec ≤ n →
    (∀ j < n, (s.cw.read j).toNat < s.gfSize.toNat) → (∀ j, n ≤ j → j < s.params.cwCap → s.er.read j = 0) →
    (IsBlock s.field s.gfBase.toNat ec (s.codewords n) →
      ∃ t, exec (.rsDec rd rs1 rs2) s = .next t ∧ t = { s with x := t.x, cw := t.cw, cp := s.cp + 1 } ∧
        (∀ r, t.reg r = if r = rd then 0 else s.reg r) ∧ ∀ j, t.cw.read j = s.cw.read j) ∧
    (¬IsBlock s.field s.gfBase.toNat ec (s.codewords n) → ec < erased.length →
      ∃ t, exec (.rsDec rd rs1 rs2) s = .next t ∧ WroteReg s t rd 1)

/-- R170, R173: an Ok result is a code block, and unless the received word was one already it is within the budget
2·errors + erasures ≤ ec of it. -/
def Obligations.OkResultIsCodeBlockWithinBudget : Prop :=
  ∀ (rd rs1 rs2 : Reg) (s t : State), s.Inv → s.runstate = .run →
    exec (.rsDec rd rs1 rs2) s = .next t → t.runstate = .run → t.reg rd = 0 →
    let n := (s.reg rs1).toNat
    let ec := (s.reg rs2).toNat
    let erased := (List.range n).filter fun j => s.er.read j = 1
    let wrong := (List.range n).filter fun j => s.er.read j = 0 ∧ t.cw.read j ≠ s.cw.read j
    IsBlock s.field s.gfBase.toNat ec (t.codewords n) ∧ (∀ j < n, (t.cw.read j).toNat < s.gfSize.toNat) ∧
    (t.cw = s.cw ∨ 2 * wrong.length + erased.length ≤ ec)

/-- R172: a received word within the budget of a code block is decoded to that block. -/
def Obligations.DecodeWithinBudgetRestoresBlock : Prop :=
  ∀ (rd rs1 rs2 : Reg) (s : State) (c : List Nat), s.Inv → s.gfValid = true →
    let n := (s.reg rs1).toNat
    let ec := (s.reg rs2).toNat
    let erased := (List.range n).filter fun j => s.er.read j = 1
    let wrong := (List.range n).filter fun j => s.er.read j = 0 ∧ c.getD j 0 ≠ (s.cw.read j).toNat
    n ≤ s.gfSize.toNat - 1 → n ≤ s.params.cwCap → ec ≤ n →
    (∀ j < n, (s.cw.read j).toNat < s.gfSize.toNat) → (∀ j, n ≤ j → j < s.params.cwCap → s.er.read j = 0) →
    c.length = n → (∀ v ∈ c, v < s.gfSize.toNat) → IsBlock s.field s.gfBase.toNat ec c →
    2 * wrong.length + erased.length ≤ ec →
    ∃ t, exec (.rsDec rd rs1 rs2) s = .next t ∧ t.reg rd = 0 ∧ t.codewords n = c

/-! ## Mode-encoder unit (44_mode_encoder.md) -/

/-- From R185 and, for MT absent, 92_eei_decisions.md D23: ME.INIT is the one mode-encoder command that raises no InvalidConfig
there. That D23 decides against the words of R180 and R185, and that ME_MODE is then 0, is the model's reading (log 8). -/
def Obligations.InitReturnsToDefaultMode : Prop :=
  decode 0x4000000000000000 = .ok .meInit ∧
  ∀ s : State,
    (∀ mt : ModeTable, s.mt = some mt →
      exec .meInit s = .next { s with meMode := BitVec.ofNat 8 mt.raw.dm, shv := false, shm := 0, cp := s.cp + 1 }) ∧
    (s.mt = none → exec .meInit s = .next { s with meMode := 0, shv := false, shm := 0, cp := s.cp + 1 })

/-- From R186, R188: ME.LATCH and ME.UNLATCH. In the default mode, no shift pending (D24), ME.UNLATCH is a no-op by
92_eei_decisions.md D25; that D25 decides against the corner case of R188 is the model's reading (log 7). -/
def Obligations.LatchAndUnlatchChangeMode : Prop :=
  ∀ (k : StreamId) (mode : BitVec 8) (s : State),
    HasOpcode (.meLatch k mode) 0x41 ∧ HasOpcode (.meUnlatch k) 0x43 ∧
    TableCommand (.meLatch k mode) s (fun t =>
      if t.nm ≤ mode.toNat then exec (.meLatch k mode) s = .next (faultedState s 2 mode.toNat)
      else LatchesTo (.meLatch k mode) s t k mode.toNat) ∧
    TableCommand (.meUnlatch k) s (fun t =>
      if s.shv = false ∧ s.meMode.toNat = t.dm then exec (.meUnlatch k) s = .next { s with cp := s.cp + 1 }
      else LatchesTo (.meUnlatch k) s t k t.dm) ∧
    (∀ w : CmdWord, opByte w = 0x41 → 2 ^ 8 ≤ immField w → IsIllegal w)

/-- R187: ME.SHIFT; a pending shift is consumed by ME.SYM (and dropped by ME.INIT, R185) and by nothing else. -/
def Obligations.ShiftPendsForOneSymbol : Prop :=
  ∀ (k : StreamId) (mode : BitVec 8) (s : State),
    HasOpcode (.meShift k mode) 0x42 ∧
    TableCommand (.meShift k mode) s (fun t =>
      if t.nm ≤ mode.toNat then exec (.meShift k mode) s = .next (faultedState s 2 mode.toNat)
      else if s.shv = true then exec (.meShift k mode) s = .next (faultedState s 12 1)
      else
        match t.shiftCode s.meMode.toNat mode.toNat with
        | none => exec (.meShift k mode) s = .next (faultedState s 12 2)
        | some c => Appends (.meShift k mode) s k (bitList c (t.w s.meMode.toNat))
            fun s => { s with shv := true, shm := mode }) ∧
    (∀ (i : Instr) (t : State), exec i s = .next t → s.shv = true →
      (t.shv = true ∧ t.shm = s.shm) ∨ (∃ k' r l, i = .meSym k' r l) ∨ i = .meInit) ∧
    (∀ w : CmdWord, opByte w = 0x42 → 2 ^ 8 ≤ immField w → IsIllegal w)

/-- R183, R189: ME.SYM in the effective mode. -/
def Obligations.SymEmitsCodeOfEffectiveMode : Prop :=
  (∀ (k : StreamId) (rs1 : Reg) (len : BitVec 2) (s : State), len = 1 ∨ len = 2 →
    let o := (s.reg rs1).toNat
    let e := if s.shv = true then s.shm.toNat else s.meMode.toNat
    let key := (List.range len.toNat).map fun j => s.buf.read (o + j)
    HasOpcode (.meSym k rs1 len) 0x44 ∧
    TableCommand (.meSym k rs1 len) s fun t =>
      if s.params.bufCap < o + len.toNat then exec (.meSym k rs1 len) s = .next (faultedState s 2 (o + len.toNat))
      else
        match t.symCode e key with
        | none => exec (.meSym k rs1 len) s = .next (faultedState s 8 o)
        | some c => Appends (.meSym k rs1 len) s k (bitList c (t.w e)) fun s => { s with shv := false, shm := 0 }) ∧
  (∀ w : CmdWord, opByte w = 0x44 → immField w ≠ 1 → immField w ≠ 2 → IsIllegal w)

/-- R190, R191: ME.BSHIFT. -/
def Obligations.BshiftEmitsLengthAndBytes : Prop :=
  ∀ (k : StreamId) (rs1 rs2 : Reg) (s : State),
    let o := (s.reg rs1).toNat
    let l := (s.reg rs2).toNat
    let i := Instr.meBshift k rs1 rs2
    HasOpcode i 0x45 ∧
    TableCommand i s fun t =>
      if s.shv = true then exec i s = .next (faultedState s 12 1)
      else
        match t.bshCode s.meMode.toNat with
        | none => exec i s = .next (faultedState s 12 2)
        | some c =>
          if l < 1 ∨ (2 ^ t.ws - 1) + (2 ^ t.wl - 1) < l then exec i s = .next (faultedState s 2 l)
          else if s.params.bufCap < o + l then exec i s = .next (faultedState s 2 (o + l))
          else Appends i s k
            (bitList c (t.w s.meMode.toNat) ++ lengthField t l ++
              (List.range l).flatMap fun j => bitList (s.buf.read (o + j)).toNat 8) id

/-- R195: the checks of ME.ENCODE in order and its effects: exactly c bits, those of the chosen plan, whose moves are allowed
and cost c; the mode becomes the one the plan ends in; rd = c; nothing else changes. -/
def Obligations.EncodeChecksAndEffects : Prop :=
  ∀ (rd : Reg) (k : StreamId) (rs1 rs2 rs3 : Reg) (s : State), s.Inv →
    let o := (s.reg rs1).toNat
    let l := (s.reg rs2).toNat
    let cap := (s.reg rs3).toNat
    let m := s.meMode.toNat
    let msg := (List.range l).map fun j => s.buf.read (o + j)
    let size := (s.stream k).length
    let i := Instr.meEncode rd k rs1 rs2 rs3
    HasOpcode i 0x46 ∧
    TableCommand i s fun t =>
      if s.shv = true then exec i s = .next (faultedState s 12 1)
      else if s.params.bufCap < o + l then exec i s = .next (faultedState s 2 (o + l))
      else
        match costToGo t msg m with
        | none => exec i s = .next (faultedState s 8 0)
        | some c =>
          if cap < c then exec i s = .next (faultedState s 9 c)
          else if s.params.bsCap < size + c then exec i s = .next (faultedState s 9 (size + c))
          else
            let plan := chosenPlan t m msg c
            planCost t m msg plan = some c ∧ (planBits t m msg plan).length = c ∧
            ∃ u, exec i s = .next u ∧
              u = { s with x := u.x, bs0 := u.bs0, bs1 := u.bs1, meMode := BitVec.ofNat 8 (planEnd m plan),
                           cp := s.cp + 1 } ∧
              (∀ r, u.reg r = if r = rd then BitVec.ofNat 32 c else s.reg r) ∧
              (∀ k', u.stream k' = if k' = k then s.stream k ++ planBits t m msg plan else s.stream k')

/-- R193, R196: G[0][m0] is the least cost over all plans, and infinite exactly when there is none. -/
def Obligations.CostToGoIsLeastPlanCost : Prop :=
  ∀ (mt : ModeTable) (msg : List Byte) (m : Nat), m < mt.raw.nm →
    (∀ plan c, planCost mt.raw m msg plan = some c → ∃ g, costToGo mt.raw msg m = some g ∧ g ≤ c) ∧
    (∀ g, costToGo mt.raw msg m = some g → ∃ plan, planCost mt.raw m msg plan = some g)

/-- R197: the size and the runs of a message of i bytes outside every symbol table, from a mode of width 5 that opens runs,
with WS = 5 and WL = 11. The rule tacitly takes that no mode that opens runs is narrower (assumption 20). -/
def Obligations.BinaryShiftBreakpoints : Prop :=
  ∀ (mt : ModeTable) (msg : List Byte) (m : Nat),
    m < mt.raw.nm → mt.raw.bshCode m ≠ none → mt.raw.w m = 5 → mt.raw.ws = 5 → mt.raw.wl = 11 →
    (∀ m', mt.raw.bshCode m' ≠ none → 5 ≤ mt.raw.w m') →
    (∀ m', ∀ e ∈ mt.raw.symOf m', ∀ b ∈ e.1, b ∉ msg) →
    1 ≤ msg.length → msg.length ≤ 2141 →
    costToGo mt.raw msg m = some (8 * msg.length + runOverhead msg.length) ∧
    chosenPlan mt.raw m msg (8 * msg.length + runOverhead msg.length) = (runLengths msg.length).map Move.run

/-- R215: ME.ENCODE into an empty stream, then MDecode, gives the message back; and the bits that any fault-free sequence of
commands appends to BS[k] by mode-encoder commands, ending with no shift pending, followed by fewer bits than one code of the
mode it ends in, decode to the concatenation of the keys and runs given. -/
def Obligations.EncodeRoundTrip : Prop :=
  (∀ (rd : Reg) (k : StreamId) (rs1 rs2 rs3 : Reg) (s t : State) (mt : ModeTable),
    s.Inv → s.mt = some mt → s.stream k = [] → s.shv = false → s.runstate = .run →
    exec (.meEncode rd k rs1 rs2 rs3) s = .next t → t.runstate = .run →
    mdecode mt.raw (t.stream k) s.meMode.toNat =
      some ((List.range (s.reg rs2).toNat).map fun j => s.buf.read ((s.reg rs1).toNat + j))) ∧
  (∀ (k : StreamId) (s t : State) (mt : ModeTable) (commands : List Instr) (bytes : List Byte),
    s.Inv → s.mt = some mt → s.shv = false → s.runstate = .run →
    TokenRun k commands s bytes t → t.shv = false →
    ∃ bits, t.stream k = s.stream k ++ bits ∧
      ∀ extra : List Bool, extra.length < mt.raw.w t.meMode.toNat →
        mdecode mt.raw (bits ++ extra) s.meMode.toNat = some bytes)
end

