-- ==== Sys2Proof/Laws/Bits.lean ====
section
/-! SUPPORT. Bit sequences and numbers: Bits(v, n), its inverse, and the packing of stream bits into bytes. -/

namespace Sys2Proof.Machine

@[simp] theorem bitsValue_nil : bitsValue [] = 0 := rfl

theorem bitsValue_concat (bits : List Bool) (b : Bool) : bitsValue (bits ++ [b]) = 2 * bitsValue bits + b.toNat := by
  simp [bitsValue]

theorem bitsValue_lt (bits : List Bool) : bitsValue bits < 2 ^ bits.length := by
  induction bits using List.reverseRecOn with
  | nil => simp
  | append_singleton bits b ih =>
    rw [bitsValue_concat, List.length_append, List.length_singleton, pow_succ]
    cases b <;> simp <;> omega

/-- Bit i of the number of a sequence is the i-th from its end (20_memory.md R42). -/
theorem bitsValue_testBit (bits : List Bool) (i : Nat) : (bitsValue bits).testBit i = bits.reverse.getD i false := by
  induction bits using List.reverseRecOn generalizing i with
  | nil => simp
  | append_singleton bits b ih =>
    rw [bitsValue_concat, List.reverse_append]
    cases i with
    | zero => cases b <;> simp [Nat.testBit_zero]
    | succ i =>
      rw [Nat.testBit_succ, show (2 * bitsValue bits + b.toNat) / 2 = bitsValue bits by cases b <;> simp; omega, ih]
      simp

theorem bitsOf_getElem? (v : Nat) {n i : Nat} (h : i < n) : (bitsOf v n)[i]? = some (v.testBit (n - 1 - i)) := by
  simp [bitsOf, h]

/-- Bits(v, n) is the binary number v (41_bitstream.md R112). -/
theorem bitsValue_bitsOf {v n : Nat} (h : v < 2 ^ n) : bitsValue (bitsOf v n) = v := by
  apply Nat.eq_of_testBit_eq
  intro i
  rw [bitsValue_testBit, List.getD]
  by_cases hi : i < n
  · rw [List.getElem?_reverse (by simpa [bitsOf] using hi), show (bitsOf v n).length = n by simp [bitsOf],
      bitsOf_getElem? v (by omega), show n - 1 - (n - 1 - i) = i by omega]
    rfl
  · rw [List.getElem?_eq_none_iff.2 (by simp [bitsOf]; omega)]
    rw [Nat.testBit_lt_two_pow (lt_of_lt_of_le h (Nat.pow_le_pow_right (by omega) (by omega)))]
    rfl

theorem bitsOf_bitsValue (bits : List Bool) : bitsOf (bitsValue bits) bits.length = bits := by
  apply List.ext_getElem?
  intro i
  by_cases hi : i < bits.length
  · rw [bitsOf_getElem? _ hi, bitsValue_testBit, List.getD, List.getElem?_reverse (by omega),
      show bits.length - 1 - (bits.length - 1 - i) = i by omega]
    simp [hi]
  · rw [List.getElem?_eq_none_iff.2 (by simp [bitsOf]; omega), List.getElem?_eq_none_iff.2 (by omega)]

@[simp] theorem bytesFrom_length (bits : List Bool) (o nb : Nat) : (bytesFrom bits o nb).length = nb := by
  simp [bytesFrom]

/-- The stream bit of the lowest index stands in bit 7 of its byte; past the end the bits are 0 (41_bitstream.md R107). -/
theorem byteAt_getLsbD (bits : List Bool) (p : Nat) {u : Nat} (hu : u < 8) :
    (byteAt bits p).getLsbD (7 - u) = bits.getD (p + u) false := by
  rw [byteAt, BitVec.getLsbD_ofNat, bitsValue_testBit, List.getD, List.getElem?_reverse (by simp; omega)]
  simp only [List.length_map, List.length_range]
  rw [show 8 - 1 - (7 - u) = u by omega]
  simp [hu, bitAt, show 7 - u < 8 by omega]

theorem ceil8_spec (v : Nat) : v ≤ ceil8 v ∧ ceil8 v < v + 8 ∧ ceil8 v % 8 = 0 := by
  unfold ceil8
  omega

end Sys2Proof.Machine
end

