-- ==== Sys2Proof/Laws/Encoding.lean ====
section
/-! SUPPORT. The fields of a command word: packing and unpacking are inverse, and each opcode byte names one command. -/

namespace Sys2Proof

theorem Fields.ofWord_toWord (f : Fields) : Fields.ofWord f.toWord = f := by
  obtain ⟨op, rd, rs1, rs2, rs3, sel, imm⟩ := f
  simp only [Fields.ofWord, Fields.toWord, Fields.mk.injEq]
  refine ⟨?_, ?_, ?_, ?_, ?_, ?_, ?_⟩ <;>
  · apply BitVec.eq_of_getLsbD_eq
    intro i hi
    simp only [BitVec.getLsbD_extractLsb', BitVec.getLsbD_append, hi, decide_true, Bool.true_and]
    repeat' split
    all_goals first | omega | skip
    all_goals congr 1
    all_goals omega

theorem Fields.toWord_ofWord (w : CmdWord) : (Fields.ofWord w).toWord = w := by
  apply BitVec.eq_of_getLsbD_eq
  intro i hi
  simp only [Fields.ofWord, Fields.toWord, BitVec.getLsbD_extractLsb', BitVec.getLsbD_append]
  repeat' split
  all_goals
    rw [decide_eq_true (by omega), Bool.true_and]
    congr 1
    omega

/-- The opcode byte of a packed word (30_encoding.md R60). -/
theorem Fields.opByte_toWord (f : Fields) : f.toWord.toNat / 2 ^ 56 = f.op.toNat := by
  have h := congrArg (fun g => (Fields.op g).toNat) (Fields.ofWord_toWord f)
  simp only [Fields.ofWord, BitVec.extractLsb'_toNat, Nat.shiftRight_eq_div_pow] at h
  have hw := f.toWord.isLt
  rw [Nat.mod_eq_of_lt (by omega)] at h
  exact h

/-- The immediate of a word (30_encoding.md R60). -/
theorem Fields.imm_ofWord (w : CmdWord) : (Fields.ofWord w).imm.toNat = w.toNat % 2 ^ 32 := by
  simp [Fields.ofWord]

/-- The opcode byte of a word (30_encoding.md R60). -/
theorem Fields.op_ofWord (w : CmdWord) : (Fields.ofWord w).op.toNat = w.toNat / 2 ^ 56 := by
  have h := Fields.opByte_toWord (Fields.ofWord w)
  rw [Fields.toWord_ofWord] at h
  exact h.symm

theorem Op.ofCode_code (o : Op) : Op.ofCode o.code = some o := by cases o <;> decide

theorem Op.code_of_ofCode {c : BitVec 8} {o : Op} (h : Op.ofCode c = some o) : o.code = c := by
  have := List.find?_some h
  simpa using this

theorem Op.code_injective {o o' : Op} (h : o.code = o'.code) : o = o' := by
  have := Op.ofCode_code o
  rw [h, Op.ofCode_code] at this
  exact (Option.some.inj this).symm

/-- The encoder writes the command's opcode (30_encoding.md R65). -/
theorem Instr.fields_op (i : Instr) : i.fields.op = i.op.code := by cases i <;> rfl

theorem encode_opByte (i : Instr) : (encode i).toNat / 2 ^ 56 = i.op.code.toNat := by
  rw [encode, Fields.opByte_toWord, Instr.fields_op]

@[simp] theorem regField_toFin (r : Reg) : (regField r).toFin = r := by
  apply Fin.ext
  simp [regField]

@[simp] theorem regField_ofToFin (v : BitVec 4) : regField v.toFin = v := by
  apply BitVec.eq_of_toNat_eq
  simp [regField]

@[simp] theorem StreamId.ofBit_bit (k : StreamId) : StreamId.ofBit k.bit = k := by cases k <;> rfl

@[simp] theorem StreamId.bit_ofBit (b : Bool) : (StreamId.ofBit b).bit = b := by cases b <;> rfl

/-- Decoding is the opcode's own build, behind the field checks (30_encoding.md R66). -/
theorem decode_ok_iff {w : CmdWord} {i : Instr} :
    decode w = .ok i ↔
      ∃ o, Op.ofCode (Fields.ofWord w).op = some o ∧ (Fields.ofWord w).unusedZero o.uses = true ∧
        (Fields.ofWord w).reserved = 0 ∧ o.build (Fields.ofWord w) = .ok i := by
  simp only [decode]
  generalize Fields.ofWord w = f
  cases hc : Op.ofCode f.op with
  | none => simp
  | some o =>
    cases hu : f.unusedZero o.uses with
    | false => simp [hu]
    | true =>
      by_cases hr : f.reserved = 0
      · simp [hu, hr]
      · simp [hu, show ¬f.reserved = 0#6 from hr]

/-- A CSR number names at most the CSR whose number it is (10_state.md R16). -/
theorem Csr.number_of_ofNumber {n : BitVec 12} {c : Csr} (h : Csr.ofNumber n = some c) : c.number = n := by
  have := List.find?_some h
  simpa using this

theorem Csr.ofNumber_number (c : Csr) : Csr.ofNumber c.number = some c := by cases c <;> decide

end Sys2Proof
end

