-- ==== Sys2Proof/Laws/State.lean ====
section
/-! SUPPORT. One lemma for each field of State under each named update, so that no proof unfolds a record update. -/

namespace Sys2Proof.Machine

/-! ### `State.setReg` -/

@[simp] theorem State.setReg_x (s : State) (r : Reg) (v : Word) :
    (s.setReg r v).x = s.x.set r.val v := rfl

@[simp] theorem State.setReg_cp (s : State) (r : Reg) (v : Word) :
    (s.setReg r v).cp = s.cp := rfl

@[simp] theorem State.setReg_runstate (s : State) (r : Reg) (v : Word) :
    (s.setReg r v).runstate = s.runstate := rfl

@[simp] theorem State.setReg_fcode (s : State) (r : Reg) (v : Word) :
    (s.setReg r v).fcode = s.fcode := rfl

@[simp] theorem State.setReg_epc (s : State) (r : Reg) (v : Word) :
    (s.setReg r v).epc = s.epc := rfl

@[simp] theorem State.setReg_einfo (s : State) (r : Reg) (v : Word) :
    (s.setReg r v).einfo = s.einfo := rfl

@[simp] theorem State.setReg_gfKind (s : State) (r : Reg) (v : Word) :
    (s.setReg r v).gfKind = s.gfKind := rfl

@[simp] theorem State.setReg_gfSize (s : State) (r : Reg) (v : Word) :
    (s.setReg r v).gfSize = s.gfSize := rfl

@[simp] theorem State.setReg_gfPoly (s : State) (r : Reg) (v : Word) :
    (s.setReg r v).gfPoly = s.gfPoly := rfl

@[simp] theorem State.setReg_gfAlpha (s : State) (r : Reg) (v : Word) :
    (s.setReg r v).gfAlpha = s.gfAlpha := rfl

@[simp] theorem State.setReg_gfBase (s : State) (r : Reg) (v : Word) :
    (s.setReg r v).gfBase = s.gfBase := rfl

@[simp] theorem State.setReg_gfValid (s : State) (r : Reg) (v : Word) :
    (s.setReg r v).gfValid = s.gfValid := rfl

@[simp] theorem State.setReg_exp (s : State) (r : Reg) (v : Word) :
    (s.setReg r v).exp = s.exp := rfl

@[simp] theorem State.setReg_log (s : State) (r : Reg) (v : Word) :
    (s.setReg r v).log = s.log := rfl

@[simp] theorem State.setReg_bs0 (s : State) (r : Reg) (v : Word) :
    (s.setReg r v).bs0 = s.bs0 := rfl

@[simp] theorem State.setReg_bs1 (s : State) (r : Reg) (v : Word) :
    (s.setReg r v).bs1 = s.bs1 := rfl

@[simp] theorem State.setReg_buf (s : State) (r : Reg) (v : Word) :
    (s.setReg r v).buf = s.buf := rfl

@[simp] theorem State.setReg_cw (s : State) (r : Reg) (v : Word) :
    (s.setReg r v).cw = s.cw := rfl

@[simp] theorem State.setReg_er (s : State) (r : Reg) (v : Word) :
    (s.setReg r v).er = s.er := rfl

@[simp] theorem State.setReg_meMode (s : State) (r : Reg) (v : Word) :
    (s.setReg r v).meMode = s.meMode := rfl

@[simp] theorem State.setReg_shv (s : State) (r : Reg) (v : Word) :
    (s.setReg r v).shv = s.shv := rfl

@[simp] theorem State.setReg_shm (s : State) (r : Reg) (v : Word) :
    (s.setReg r v).shm = s.shm := rfl

@[simp] theorem State.setReg_prog (s : State) (r : Reg) (v : Word) :
    (s.setReg r v).prog = s.prog := rfl

@[simp] theorem State.setReg_mt (s : State) (r : Reg) (v : Word) :
    (s.setReg r v).mt = s.mt := rfl

@[simp] theorem State.setReg_params (s : State) (r : Reg) (v : Word) :
    (s.setReg r v).params = s.params := rfl

/-! ### `State.faultEntry` -/

@[simp] theorem State.faultEntry_x (s : State) (f : FaultName) (info : Nat) :
    (s.faultEntry f info).x = s.x := rfl

@[simp] theorem State.faultEntry_cp (s : State) (f : FaultName) (info : Nat) :
    (s.faultEntry f info).cp = s.cp := rfl

@[simp] theorem State.faultEntry_runstate (s : State) (f : FaultName) (info : Nat) :
    (s.faultEntry f info).runstate = .faulted := rfl

@[simp] theorem State.faultEntry_fcode (s : State) (f : FaultName) (info : Nat) :
    (s.faultEntry f info).fcode = f.code := rfl

@[simp] theorem State.faultEntry_epc (s : State) (f : FaultName) (info : Nat) :
    (s.faultEntry f info).epc = s.cp := rfl

@[simp] theorem State.faultEntry_einfo (s : State) (f : FaultName) (info : Nat) :
    (s.faultEntry f info).einfo = BitVec.ofNat 32 info := rfl

@[simp] theorem State.faultEntry_gfKind (s : State) (f : FaultName) (info : Nat) :
    (s.faultEntry f info).gfKind = s.gfKind := rfl

@[simp] theorem State.faultEntry_gfSize (s : State) (f : FaultName) (info : Nat) :
    (s.faultEntry f info).gfSize = s.gfSize := rfl

@[simp] theorem State.faultEntry_gfPoly (s : State) (f : FaultName) (info : Nat) :
    (s.faultEntry f info).gfPoly = s.gfPoly := rfl

@[simp] theorem State.faultEntry_gfAlpha (s : State) (f : FaultName) (info : Nat) :
    (s.faultEntry f info).gfAlpha = s.gfAlpha := rfl

@[simp] theorem State.faultEntry_gfBase (s : State) (f : FaultName) (info : Nat) :
    (s.faultEntry f info).gfBase = s.gfBase := rfl

@[simp] theorem State.faultEntry_gfValid (s : State) (f : FaultName) (info : Nat) :
    (s.faultEntry f info).gfValid = s.gfValid := rfl

@[simp] theorem State.faultEntry_exp (s : State) (f : FaultName) (info : Nat) :
    (s.faultEntry f info).exp = s.exp := rfl

@[simp] theorem State.faultEntry_log (s : State) (f : FaultName) (info : Nat) :
    (s.faultEntry f info).log = s.log := rfl

@[simp] theorem State.faultEntry_bs0 (s : State) (f : FaultName) (info : Nat) :
    (s.faultEntry f info).bs0 = s.bs0 := rfl

@[simp] theorem State.faultEntry_bs1 (s : State) (f : FaultName) (info : Nat) :
    (s.faultEntry f info).bs1 = s.bs1 := rfl

@[simp] theorem State.faultEntry_buf (s : State) (f : FaultName) (info : Nat) :
    (s.faultEntry f info).buf = s.buf := rfl

@[simp] theorem State.faultEntry_cw (s : State) (f : FaultName) (info : Nat) :
    (s.faultEntry f info).cw = s.cw := rfl

@[simp] theorem State.faultEntry_er (s : State) (f : FaultName) (info : Nat) :
    (s.faultEntry f info).er = s.er := rfl

@[simp] theorem State.faultEntry_meMode (s : State) (f : FaultName) (info : Nat) :
    (s.faultEntry f info).meMode = s.meMode := rfl

@[simp] theorem State.faultEntry_shv (s : State) (f : FaultName) (info : Nat) :
    (s.faultEntry f info).shv = s.shv := rfl

@[simp] theorem State.faultEntry_shm (s : State) (f : FaultName) (info : Nat) :
    (s.faultEntry f info).shm = s.shm := rfl

@[simp] theorem State.faultEntry_prog (s : State) (f : FaultName) (info : Nat) :
    (s.faultEntry f info).prog = s.prog := rfl

@[simp] theorem State.faultEntry_mt (s : State) (f : FaultName) (info : Nat) :
    (s.faultEntry f info).mt = s.mt := rfl

@[simp] theorem State.faultEntry_params (s : State) (f : FaultName) (info : Nat) :
    (s.faultEntry f info).params = s.params := rfl

/-! ### `State.advance` -/

@[simp] theorem State.advance_x (s : State) :
    s.advance.x = s.x := rfl

@[simp] theorem State.advance_cp (s : State) :
    s.advance.cp = s.cp + 1 := rfl

@[simp] theorem State.advance_runstate (s : State) :
    s.advance.runstate = s.runstate := rfl

@[simp] theorem State.advance_fcode (s : State) :
    s.advance.fcode = s.fcode := rfl

@[simp] theorem State.advance_epc (s : State) :
    s.advance.epc = s.epc := rfl

@[simp] theorem State.advance_einfo (s : State) :
    s.advance.einfo = s.einfo := rfl

@[simp] theorem State.advance_gfKind (s : State) :
    s.advance.gfKind = s.gfKind := rfl

@[simp] theorem State.advance_gfSize (s : State) :
    s.advance.gfSize = s.gfSize := rfl

@[simp] theorem State.advance_gfPoly (s : State) :
    s.advance.gfPoly = s.gfPoly := rfl

@[simp] theorem State.advance_gfAlpha (s : State) :
    s.advance.gfAlpha = s.gfAlpha := rfl

@[simp] theorem State.advance_gfBase (s : State) :
    s.advance.gfBase = s.gfBase := rfl

@[simp] theorem State.advance_gfValid (s : State) :
    s.advance.gfValid = s.gfValid := rfl

@[simp] theorem State.advance_exp (s : State) :
    s.advance.exp = s.exp := rfl

@[simp] theorem State.advance_log (s : State) :
    s.advance.log = s.log := rfl

@[simp] theorem State.advance_bs0 (s : State) :
    s.advance.bs0 = s.bs0 := rfl

@[simp] theorem State.advance_bs1 (s : State) :
    s.advance.bs1 = s.bs1 := rfl

@[simp] theorem State.advance_buf (s : State) :
    s.advance.buf = s.buf := rfl

@[simp] theorem State.advance_cw (s : State) :
    s.advance.cw = s.cw := rfl

@[simp] theorem State.advance_er (s : State) :
    s.advance.er = s.er := rfl

@[simp] theorem State.advance_meMode (s : State) :
    s.advance.meMode = s.meMode := rfl

@[simp] theorem State.advance_shv (s : State) :
    s.advance.shv = s.shv := rfl

@[simp] theorem State.advance_shm (s : State) :
    s.advance.shm = s.shm := rfl

@[simp] theorem State.advance_prog (s : State) :
    s.advance.prog = s.prog := rfl

@[simp] theorem State.advance_mt (s : State) :
    s.advance.mt = s.mt := rfl

@[simp] theorem State.advance_params (s : State) :
    s.advance.params = s.params := rfl

/-! ### `State.setMode` -/

@[simp] theorem State.setMode_x (s : State) (m : Nat) :
    (s.setMode m).x = s.x := rfl

@[simp] theorem State.setMode_cp (s : State) (m : Nat) :
    (s.setMode m).cp = s.cp := rfl

@[simp] theorem State.setMode_runstate (s : State) (m : Nat) :
    (s.setMode m).runstate = s.runstate := rfl

@[simp] theorem State.setMode_fcode (s : State) (m : Nat) :
    (s.setMode m).fcode = s.fcode := rfl

@[simp] theorem State.setMode_epc (s : State) (m : Nat) :
    (s.setMode m).epc = s.epc := rfl

@[simp] theorem State.setMode_einfo (s : State) (m : Nat) :
    (s.setMode m).einfo = s.einfo := rfl

@[simp] theorem State.setMode_gfKind (s : State) (m : Nat) :
    (s.setMode m).gfKind = s.gfKind := rfl

@[simp] theorem State.setMode_gfSize (s : State) (m : Nat) :
    (s.setMode m).gfSize = s.gfSize := rfl

@[simp] theorem State.setMode_gfPoly (s : State) (m : Nat) :
    (s.setMode m).gfPoly = s.gfPoly := rfl

@[simp] theorem State.setMode_gfAlpha (s : State) (m : Nat) :
    (s.setMode m).gfAlpha = s.gfAlpha := rfl

@[simp] theorem State.setMode_gfBase (s : State) (m : Nat) :
    (s.setMode m).gfBase = s.gfBase := rfl

@[simp] theorem State.setMode_gfValid (s : State) (m : Nat) :
    (s.setMode m).gfValid = s.gfValid := rfl

@[simp] theorem State.setMode_exp (s : State) (m : Nat) :
    (s.setMode m).exp = s.exp := rfl

@[simp] theorem State.setMode_log (s : State) (m : Nat) :
    (s.setMode m).log = s.log := rfl

@[simp] theorem State.setMode_bs0 (s : State) (m : Nat) :
    (s.setMode m).bs0 = s.bs0 := rfl

@[simp] theorem State.setMode_bs1 (s : State) (m : Nat) :
    (s.setMode m).bs1 = s.bs1 := rfl

@[simp] theorem State.setMode_buf (s : State) (m : Nat) :
    (s.setMode m).buf = s.buf := rfl

@[simp] theorem State.setMode_cw (s : State) (m : Nat) :
    (s.setMode m).cw = s.cw := rfl

@[simp] theorem State.setMode_er (s : State) (m : Nat) :
    (s.setMode m).er = s.er := rfl

@[simp] theorem State.setMode_meMode (s : State) (m : Nat) :
    (s.setMode m).meMode = BitVec.ofNat 8 m := rfl

@[simp] theorem State.setMode_shv (s : State) (m : Nat) :
    (s.setMode m).shv = s.shv := rfl

@[simp] theorem State.setMode_shm (s : State) (m : Nat) :
    (s.setMode m).shm = s.shm := rfl

@[simp] theorem State.setMode_prog (s : State) (m : Nat) :
    (s.setMode m).prog = s.prog := rfl

@[simp] theorem State.setMode_mt (s : State) (m : Nat) :
    (s.setMode m).mt = s.mt := rfl

@[simp] theorem State.setMode_params (s : State) (m : Nat) :
    (s.setMode m).params = s.params := rfl

/-! ### `State.setShift` -/

@[simp] theorem State.setShift_x (s : State) (m : Nat) :
    (s.setShift m).x = s.x := rfl

@[simp] theorem State.setShift_cp (s : State) (m : Nat) :
    (s.setShift m).cp = s.cp := rfl

@[simp] theorem State.setShift_runstate (s : State) (m : Nat) :
    (s.setShift m).runstate = s.runstate := rfl

@[simp] theorem State.setShift_fcode (s : State) (m : Nat) :
    (s.setShift m).fcode = s.fcode := rfl

@[simp] theorem State.setShift_epc (s : State) (m : Nat) :
    (s.setShift m).epc = s.epc := rfl

@[simp] theorem State.setShift_einfo (s : State) (m : Nat) :
    (s.setShift m).einfo = s.einfo := rfl

@[simp] theorem State.setShift_gfKind (s : State) (m : Nat) :
    (s.setShift m).gfKind = s.gfKind := rfl

@[simp] theorem State.setShift_gfSize (s : State) (m : Nat) :
    (s.setShift m).gfSize = s.gfSize := rfl

@[simp] theorem State.setShift_gfPoly (s : State) (m : Nat) :
    (s.setShift m).gfPoly = s.gfPoly := rfl

@[simp] theorem State.setShift_gfAlpha (s : State) (m : Nat) :
    (s.setShift m).gfAlpha = s.gfAlpha := rfl

@[simp] theorem State.setShift_gfBase (s : State) (m : Nat) :
    (s.setShift m).gfBase = s.gfBase := rfl

@[simp] theorem State.setShift_gfValid (s : State) (m : Nat) :
    (s.setShift m).gfValid = s.gfValid := rfl

@[simp] theorem State.setShift_exp (s : State) (m : Nat) :
    (s.setShift m).exp = s.exp := rfl

@[simp] theorem State.setShift_log (s : State) (m : Nat) :
    (s.setShift m).log = s.log := rfl

@[simp] theorem State.setShift_bs0 (s : State) (m : Nat) :
    (s.setShift m).bs0 = s.bs0 := rfl

@[simp] theorem State.setShift_bs1 (s : State) (m : Nat) :
    (s.setShift m).bs1 = s.bs1 := rfl

@[simp] theorem State.setShift_buf (s : State) (m : Nat) :
    (s.setShift m).buf = s.buf := rfl

@[simp] theorem State.setShift_cw (s : State) (m : Nat) :
    (s.setShift m).cw = s.cw := rfl

@[simp] theorem State.setShift_er (s : State) (m : Nat) :
    (s.setShift m).er = s.er := rfl

@[simp] theorem State.setShift_meMode (s : State) (m : Nat) :
    (s.setShift m).meMode = s.meMode := rfl

@[simp] theorem State.setShift_shv (s : State) (m : Nat) :
    (s.setShift m).shv = true := rfl

@[simp] theorem State.setShift_shm (s : State) (m : Nat) :
    (s.setShift m).shm = BitVec.ofNat 8 m := rfl

@[simp] theorem State.setShift_prog (s : State) (m : Nat) :
    (s.setShift m).prog = s.prog := rfl

@[simp] theorem State.setShift_mt (s : State) (m : Nat) :
    (s.setShift m).mt = s.mt := rfl

@[simp] theorem State.setShift_params (s : State) (m : Nat) :
    (s.setShift m).params = s.params := rfl

/-! ### `State.clearShift` -/

@[simp] theorem State.clearShift_x (s : State) :
    s.clearShift.x = s.x := rfl

@[simp] theorem State.clearShift_cp (s : State) :
    s.clearShift.cp = s.cp := rfl

@[simp] theorem State.clearShift_runstate (s : State) :
    s.clearShift.runstate = s.runstate := rfl

@[simp] theorem State.clearShift_fcode (s : State) :
    s.clearShift.fcode = s.fcode := rfl

@[simp] theorem State.clearShift_epc (s : State) :
    s.clearShift.epc = s.epc := rfl

@[simp] theorem State.clearShift_einfo (s : State) :
    s.clearShift.einfo = s.einfo := rfl

@[simp] theorem State.clearShift_gfKind (s : State) :
    s.clearShift.gfKind = s.gfKind := rfl

@[simp] theorem State.clearShift_gfSize (s : State) :
    s.clearShift.gfSize = s.gfSize := rfl

@[simp] theorem State.clearShift_gfPoly (s : State) :
    s.clearShift.gfPoly = s.gfPoly := rfl

@[simp] theorem State.clearShift_gfAlpha (s : State) :
    s.clearShift.gfAlpha = s.gfAlpha := rfl

@[simp] theorem State.clearShift_gfBase (s : State) :
    s.clearShift.gfBase = s.gfBase := rfl

@[simp] theorem State.clearShift_gfValid (s : State) :
    s.clearShift.gfValid = s.gfValid := rfl

@[simp] theorem State.clearShift_exp (s : State) :
    s.clearShift.exp = s.exp := rfl

@[simp] theorem State.clearShift_log (s : State) :
    s.clearShift.log = s.log := rfl

@[simp] theorem State.clearShift_bs0 (s : State) :
    s.clearShift.bs0 = s.bs0 := rfl

@[simp] theorem State.clearShift_bs1 (s : State) :
    s.clearShift.bs1 = s.bs1 := rfl

@[simp] theorem State.clearShift_buf (s : State) :
    s.clearShift.buf = s.buf := rfl

@[simp] theorem State.clearShift_cw (s : State) :
    s.clearShift.cw = s.cw := rfl

@[simp] theorem State.clearShift_er (s : State) :
    s.clearShift.er = s.er := rfl

@[simp] theorem State.clearShift_meMode (s : State) :
    s.clearShift.meMode = s.meMode := rfl

@[simp] theorem State.clearShift_shv (s : State) :
    s.clearShift.shv = false := rfl

@[simp] theorem State.clearShift_shm (s : State) :
    s.clearShift.shm = 0 := rfl

@[simp] theorem State.clearShift_prog (s : State) :
    s.clearShift.prog = s.prog := rfl

@[simp] theorem State.clearShift_mt (s : State) :
    s.clearShift.mt = s.mt := rfl

@[simp] theorem State.clearShift_params (s : State) :
    s.clearShift.params = s.params := rfl

/-! ### `State.writeCodewords` -/

@[simp] theorem State.writeCodewords_x (s : State) (a : Nat) (vals : List Nat) :
    (s.writeCodewords a vals).x = s.x := rfl

@[simp] theorem State.writeCodewords_cp (s : State) (a : Nat) (vals : List Nat) :
    (s.writeCodewords a vals).cp = s.cp := rfl

@[simp] theorem State.writeCodewords_runstate (s : State) (a : Nat) (vals : List Nat) :
    (s.writeCodewords a vals).runstate = s.runstate := rfl

@[simp] theorem State.writeCodewords_fcode (s : State) (a : Nat) (vals : List Nat) :
    (s.writeCodewords a vals).fcode = s.fcode := rfl

@[simp] theorem State.writeCodewords_epc (s : State) (a : Nat) (vals : List Nat) :
    (s.writeCodewords a vals).epc = s.epc := rfl

@[simp] theorem State.writeCodewords_einfo (s : State) (a : Nat) (vals : List Nat) :
    (s.writeCodewords a vals).einfo = s.einfo := rfl

@[simp] theorem State.writeCodewords_gfKind (s : State) (a : Nat) (vals : List Nat) :
    (s.writeCodewords a vals).gfKind = s.gfKind := rfl

@[simp] theorem State.writeCodewords_gfSize (s : State) (a : Nat) (vals : List Nat) :
    (s.writeCodewords a vals).gfSize = s.gfSize := rfl

@[simp] theorem State.writeCodewords_gfPoly (s : State) (a : Nat) (vals : List Nat) :
    (s.writeCodewords a vals).gfPoly = s.gfPoly := rfl

@[simp] theorem State.writeCodewords_gfAlpha (s : State) (a : Nat) (vals : List Nat) :
    (s.writeCodewords a vals).gfAlpha = s.gfAlpha := rfl

@[simp] theorem State.writeCodewords_gfBase (s : State) (a : Nat) (vals : List Nat) :
    (s.writeCodewords a vals).gfBase = s.gfBase := rfl

@[simp] theorem State.writeCodewords_gfValid (s : State) (a : Nat) (vals : List Nat) :
    (s.writeCodewords a vals).gfValid = s.gfValid := rfl

@[simp] theorem State.writeCodewords_exp (s : State) (a : Nat) (vals : List Nat) :
    (s.writeCodewords a vals).exp = s.exp := rfl

@[simp] theorem State.writeCodewords_log (s : State) (a : Nat) (vals : List Nat) :
    (s.writeCodewords a vals).log = s.log := rfl

@[simp] theorem State.writeCodewords_bs0 (s : State) (a : Nat) (vals : List Nat) :
    (s.writeCodewords a vals).bs0 = s.bs0 := rfl

@[simp] theorem State.writeCodewords_bs1 (s : State) (a : Nat) (vals : List Nat) :
    (s.writeCodewords a vals).bs1 = s.bs1 := rfl

@[simp] theorem State.writeCodewords_buf (s : State) (a : Nat) (vals : List Nat) :
    (s.writeCodewords a vals).buf = s.buf := rfl

@[simp] theorem State.writeCodewords_cw (s : State) (a : Nat) (vals : List Nat) :
    (s.writeCodewords a vals).cw = s.cw.writeList a (vals.map (BitVec.ofNat 16)) := rfl

@[simp] theorem State.writeCodewords_er (s : State) (a : Nat) (vals : List Nat) :
    (s.writeCodewords a vals).er = s.er := rfl

@[simp] theorem State.writeCodewords_meMode (s : State) (a : Nat) (vals : List Nat) :
    (s.writeCodewords a vals).meMode = s.meMode := rfl

@[simp] theorem State.writeCodewords_shv (s : State) (a : Nat) (vals : List Nat) :
    (s.writeCodewords a vals).shv = s.shv := rfl

@[simp] theorem State.writeCodewords_shm (s : State) (a : Nat) (vals : List Nat) :
    (s.writeCodewords a vals).shm = s.shm := rfl

@[simp] theorem State.writeCodewords_prog (s : State) (a : Nat) (vals : List Nat) :
    (s.writeCodewords a vals).prog = s.prog := rfl

@[simp] theorem State.writeCodewords_mt (s : State) (a : Nat) (vals : List Nat) :
    (s.writeCodewords a vals).mt = s.mt := rfl

@[simp] theorem State.writeCodewords_params (s : State) (a : Nat) (vals : List Nat) :
    (s.writeCodewords a vals).params = s.params := rfl

/-! ### `State.setStream` -/

@[simp] theorem State.setStream_x (s : State) (k : StreamId) (bits : List Bool) :
    (s.setStream k bits).x = s.x := by cases k <;> rfl

@[simp] theorem State.setStream_cp (s : State) (k : StreamId) (bits : List Bool) :
    (s.setStream k bits).cp = s.cp := by cases k <;> rfl

@[simp] theorem State.setStream_runstate (s : State) (k : StreamId) (bits : List Bool) :
    (s.setStream k bits).runstate = s.runstate := by cases k <;> rfl

@[simp] theorem State.setStream_fcode (s : State) (k : StreamId) (bits : List Bool) :
    (s.setStream k bits).fcode = s.fcode := by cases k <;> rfl

@[simp] theorem State.setStream_epc (s : State) (k : StreamId) (bits : List Bool) :
    (s.setStream k bits).epc = s.epc := by cases k <;> rfl

@[simp] theorem State.setStream_einfo (s : State) (k : StreamId) (bits : List Bool) :
    (s.setStream k bits).einfo = s.einfo := by cases k <;> rfl

@[simp] theorem State.setStream_gfKind (s : State) (k : StreamId) (bits : List Bool) :
    (s.setStream k bits).gfKind = s.gfKind := by cases k <;> rfl

@[simp] theorem State.setStream_gfSize (s : State) (k : StreamId) (bits : List Bool) :
    (s.setStream k bits).gfSize = s.gfSize := by cases k <;> rfl

@[simp] theorem State.setStream_gfPoly (s : State) (k : StreamId) (bits : List Bool) :
    (s.setStream k bits).gfPoly = s.gfPoly := by cases k <;> rfl

@[simp] theorem State.setStream_gfAlpha (s : State) (k : StreamId) (bits : List Bool) :
    (s.setStream k bits).gfAlpha = s.gfAlpha := by cases k <;> rfl

@[simp] theorem State.setStream_gfBase (s : State) (k : StreamId) (bits : List Bool) :
    (s.setStream k bits).gfBase = s.gfBase := by cases k <;> rfl

@[simp] theorem State.setStream_gfValid (s : State) (k : StreamId) (bits : List Bool) :
    (s.setStream k bits).gfValid = s.gfValid := by cases k <;> rfl

@[simp] theorem State.setStream_exp (s : State) (k : StreamId) (bits : List Bool) :
    (s.setStream k bits).exp = s.exp := by cases k <;> rfl

@[simp] theorem State.setStream_log (s : State) (k : StreamId) (bits : List Bool) :
    (s.setStream k bits).log = s.log := by cases k <;> rfl

@[simp] theorem State.setStream_buf (s : State) (k : StreamId) (bits : List Bool) :
    (s.setStream k bits).buf = s.buf := by cases k <;> rfl

@[simp] theorem State.setStream_cw (s : State) (k : StreamId) (bits : List Bool) :
    (s.setStream k bits).cw = s.cw := by cases k <;> rfl

@[simp] theorem State.setStream_er (s : State) (k : StreamId) (bits : List Bool) :
    (s.setStream k bits).er = s.er := by cases k <;> rfl

@[simp] theorem State.setStream_meMode (s : State) (k : StreamId) (bits : List Bool) :
    (s.setStream k bits).meMode = s.meMode := by cases k <;> rfl

@[simp] theorem State.setStream_shv (s : State) (k : StreamId) (bits : List Bool) :
    (s.setStream k bits).shv = s.shv := by cases k <;> rfl

@[simp] theorem State.setStream_shm (s : State) (k : StreamId) (bits : List Bool) :
    (s.setStream k bits).shm = s.shm := by cases k <;> rfl

@[simp] theorem State.setStream_prog (s : State) (k : StreamId) (bits : List Bool) :
    (s.setStream k bits).prog = s.prog := by cases k <;> rfl

@[simp] theorem State.setStream_mt (s : State) (k : StreamId) (bits : List Bool) :
    (s.setStream k bits).mt = s.mt := by cases k <;> rfl

@[simp] theorem State.setStream_params (s : State) (k : StreamId) (bits : List Bool) :
    (s.setStream k bits).params = s.params := by cases k <;> rfl

@[simp] theorem State.setStream_bs0_bs0 (s : State) (bits : List Bool) : (s.setStream .bs0 bits).bs0 = bits := rfl

@[simp] theorem State.setStream_bs0_bs1 (s : State) (bits : List Bool) : (s.setStream .bs0 bits).bs1 = s.bs1 := rfl

@[simp] theorem State.setStream_bs1_bs1 (s : State) (bits : List Bool) : (s.setStream .bs1 bits).bs1 = bits := rfl

@[simp] theorem State.setStream_bs1_bs0 (s : State) (bits : List Bool) : (s.setStream .bs1 bits).bs0 = s.bs0 := rfl

/-! ### Registers and streams read through the accessors -/

theorem State.reg_setReg (s : State) (r r' : Reg) (v : Word) :
    (s.setReg r v).reg r' = if r' = r then v else s.reg r' := by
  simp only [State.reg, State.setReg, Vector.getElem_set]
  by_cases h : r' = r
  · simp [h]
  · rw [if_neg h, if_neg fun e => h (Fin.ext e.symm)]

@[simp] theorem State.reg_setReg_same (s : State) (r : Reg) (v : Word) : (s.setReg r v).reg r = v := by
  simp [State.reg_setReg]

theorem State.stream_setStream (s : State) (k k' : StreamId) (bits : List Bool) :
    (s.setStream k bits).stream k' = if k' = k then bits else s.stream k' := by
  cases k <;> cases k' <;> rfl

@[simp] theorem State.stream_setStream_same (s : State) (k : StreamId) (bits : List Bool) :
    (s.setStream k bits).stream k = bits := by cases k <;> rfl

/-- A stream update writes no field but bs0 and bs1. -/
theorem State.setStream_eq (s : State) (k : StreamId) (bits : List Bool) :
    s.setStream k bits = { s with bs0 := (s.setStream k bits).bs0, bs1 := (s.setStream k bits).bs1 } := by
  cases k <;> rfl

@[simp] theorem State.stream_setReg (s : State) (r : Reg) (v : Word) (k : StreamId) : (s.setReg r v).stream k = s.stream k := by
  cases k <;> rfl

@[simp] theorem State.reg_faultEntry (s : State) (f : FaultName) (info : Nat) (r' : Reg) : (s.faultEntry f info).reg r' = s.reg r' := rfl

@[simp] theorem State.stream_faultEntry (s : State) (f : FaultName) (info : Nat) (k : StreamId) : (s.faultEntry f info).stream k = s.stream k := by
  cases k <;> rfl

@[simp] theorem State.reg_advance (s : State) (r' : Reg) : s.advance.reg r' = s.reg r' := rfl

@[simp] theorem State.stream_advance (s : State) (k : StreamId) : s.advance.stream k = s.stream k := by
  cases k <;> rfl

@[simp] theorem State.reg_setMode (s : State) (m : Nat) (r' : Reg) : (s.setMode m).reg r' = s.reg r' := rfl

@[simp] theorem State.stream_setMode (s : State) (m : Nat) (k : StreamId) : (s.setMode m).stream k = s.stream k := by
  cases k <;> rfl

@[simp] theorem State.reg_setShift (s : State) (m : Nat) (r' : Reg) : (s.setShift m).reg r' = s.reg r' := rfl

@[simp] theorem State.stream_setShift (s : State) (m : Nat) (k : StreamId) : (s.setShift m).stream k = s.stream k := by
  cases k <;> rfl

@[simp] theorem State.reg_clearShift (s : State) (r' : Reg) : s.clearShift.reg r' = s.reg r' := rfl

@[simp] theorem State.stream_clearShift (s : State) (k : StreamId) : s.clearShift.stream k = s.stream k := by
  cases k <;> rfl

@[simp] theorem State.reg_writeCodewords (s : State) (a : Nat) (vals : List Nat) (r' : Reg) : (s.writeCodewords a vals).reg r' = s.reg r' := rfl

@[simp] theorem State.stream_writeCodewords (s : State) (a : Nat) (vals : List Nat) (k : StreamId) : (s.writeCodewords a vals).stream k = s.stream k := by
  cases k <;> rfl

@[simp] theorem State.reg_setStream (s : State) (k : StreamId) (bits : List Bool) (r : Reg) :
    (s.setStream k bits).reg r = s.reg r := by cases k <;> rfl

end Sys2Proof.Machine
end

