-- ==== Sys2Proof/Laws/Ops.lean ====
section
/-! SUPPORT. One lemma for each shared operation, saying everything it can do; and what every command does to the sequencer's
own registers: it raises one fault, or it completes with CP advanced. -/

namespace Sys2Proof.Machine

/-! ## The shared operations -/

theorem State.complete_eq (s : State) : s.complete = .next s.advance := rfl

theorem State.raise_eq (s : State) (f : FaultName) (info : Nat) : s.raise f info = .next (s.faultEntry f info) := rfl

@[simp] theorem State.complete_next_iff {s t : State} : s.complete = .next t ↔ s.advance = t := by
  simp [State.complete]

@[simp] theorem State.raise_next_iff {s t : State} {f : FaultName} {info : Nat} :
    s.raise f info = .next t ↔ s.faultEntry f info = t := by
  simp [State.raise]

@[simp] theorem bitsOf_length (v n : Nat) : (bitsOf v n).length = n := by simp [bitsOf]

@[simp] theorem State.size_eq (s : State) (k : StreamId) : s.size k = (s.stream k).length := rfl

@[simp] theorem State.val_eq (s : State) (r : Reg) : s.val r = (s.reg r).toNat := rfl

/-- Append as a command's last action (41_bitstream.md R112). -/
theorem State.appendThen_eq_next {s t : State} {k : StreamId} {bits : List Bool} {after : State → State} :
    s.appendThen k bits after = .next t ↔
      (s.params.bsCap < (s.stream k).length + bits.length ∧
        t = s.faultEntry .messageTooLarge ((s.stream k).length + bits.length)) ∨
      ((s.stream k).length + bits.length ≤ s.params.bsCap ∧
        t = (after (s.setStream k (s.stream k ++ bits))).advance) := by
  unfold State.appendThen
  split
  · rename_i h
    simp only [State.size_eq] at h
    rw [State.raise_next_iff]
    simp [h, Nat.not_le.2 h, eq_comm]
  · rename_i h
    simp only [State.size_eq] at h
    rw [State.complete_next_iff]
    simp [Nat.le_of_not_lt h, Nat.not_lt.2 (Nat.le_of_not_lt h), eq_comm]

/-- Append of bits that fit (41_bitstream.md R112). -/
theorem State.appendThen_of_fits {s : State} {k : StreamId} {bits : List Bool} {after : State → State}
    (h : (s.stream k).length + bits.length ≤ s.params.bsCap) :
    s.appendThen k bits after = .next (after (s.setStream k (s.stream k ++ bits))).advance := by
  rw [State.appendThen, if_neg (by simpa using h)]
  rfl

/-- Append of bits that do not fit (41_bitstream.md R112). -/
theorem State.appendThen_of_full {s : State} {k : StreamId} {bits : List Bool} {after : State → State}
    (h : s.params.bsCap < (s.stream k).length + bits.length) :
    s.appendThen k bits after = s.raise .messageTooLarge ((s.stream k).length + bits.length) := by
  rw [State.appendThen, if_pos (by simpa using h)]
  rfl

/-- The command at CP (40_system_and_memory_commands.md R90). -/
theorem State.fetch_ok_iff {s : State} {w : CmdWord} :
    s.fetch = .ok w ↔ s.runstate = .run ∧ s.prog[s.cp.toNat]? = some w := by
  unfold State.fetch
  cases s.runstate <;> simp
  cases s.prog[s.cp.toNat]? <;> simp

/-- The three quiescent conditions (70_reset_and_hazards.md R252). -/
theorem State.fetch_error_iff {s : State} {f : Fault} :
    s.fetch = .error f ↔
      (f = .halted ∧ s.runstate = .halted) ∨ (f = .faulted ∧ s.runstate = .faulted) ∨
      (f = .endOfProgram ∧ s.runstate = .run ∧ s.prog.length ≤ s.cp.toNat) := by
  unfold State.fetch
  cases hr : s.runstate with
  | halted => simp [eq_comm]
  | faulted => simp [eq_comm]
  | run =>
    cases hp : s.prog[s.cp.toNat]? with
    | none =>
      rw [List.getElem?_eq_none_iff] at hp
      simp [hp, eq_comm]
    | some w =>
      have : s.cp.toNat < s.prog.length := by
        by_contra h
        rw [List.getElem?_eq_none_iff.2 (by omega)] at hp
        cases hp
      simp
      omega

/-- CSRW's write: one of the five registers, with GF_VALID cleared, and nothing else (10_state.md R18). -/
theorem State.csrWrite_eq_some {s t : State} {c : Csr} {v : Word} (h : s.csrWrite c v = some t) :
    c.writable = true ∧ t.gfValid = false ∧ t.csrRead c = v ∧
      t = { s with gfKind := t.gfKind, gfSize := t.gfSize, gfPoly := t.gfPoly, gfAlpha := t.gfAlpha,
                   gfBase := t.gfBase, gfValid := false } := by
  cases c <;> simp [State.csrWrite] at h <;> subst h <;> simp [Csr.writable, State.csrRead]

theorem State.csrWrite_isSome (s : State) (c : Csr) (v : Word) : (s.csrWrite c v).isSome = c.writable := by
  cases c <;> rfl

/-- The common checks of a field command (42_galois_field.md R130). -/
theorem State.fieldCommand_cases (s : State) (operands : List Nat) (command : Result) :
    (s.gfValid = false ∧ s.fieldCommand operands command = s.raise .invalidConfig 0) ∨
    (s.gfValid = true ∧
      ((∃ a ∈ operands, s.field.q ≤ a ∧ s.fieldCommand operands command = s.raise .outOfRange a) ∨
       ((∀ a ∈ operands, a < s.field.q) ∧ s.fieldCommand operands command = command))) := by
  unfold State.fieldCommand State.operandFault
  cases hv : s.gfValid with
  | false => simp
  | true =>
    right
    refine ⟨rfl, ?_⟩
    cases hf : operands.find? fun a => decide (s.field.q ≤ a) with
    | none =>
      right
      rw [List.find?_eq_none] at hf
      exact ⟨fun a ha => by simpa using hf a ha, by simp⟩
    | some a =>
      left
      refine ⟨a, List.mem_of_find?_eq_some hf, ?_, by simp⟩
      simpa using List.find?_some hf

/-- A mode-encoder command without a table (44_mode_encoder.md R180). -/
theorem State.withTable_none {s : State} (h : s.mt = none) (command : RawTable → Result) :
    s.withTable command = s.raise .invalidConfig 0 := by
  rw [State.withTable, h]

/-- A mode-encoder command with its table (44_mode_encoder.md R180). -/
theorem State.withTable_some {s : State} {mt : ModeTable} (h : s.mt = some mt) (command : RawTable → Result) :
    s.withTable command = command mt.raw := by
  rw [State.withTable, h]

/-- The latch to mode m' (44_mode_encoder.md R186). -/
theorem State.latchTo_cases (s : State) (t : RawTable) (k : StreamId) (m' : Nat) :
    (s.shv = true ∧ s.latchTo t k m' = s.raise .illegalTransition 1) ∨
    (s.shv = false ∧ t.latchCode s.mode m' = none ∧ s.latchTo t k m' = s.raise .illegalTransition 2) ∨
    (s.shv = false ∧ ∃ c, t.latchCode s.mode m' = some c ∧
      s.latchTo t k m' = s.appendThen k (bitsOf c (t.w s.mode)) fun s => s.setMode m') := by
  unfold State.latchTo RawTable.latchBits
  cases hs : s.shv with
  | true => simp
  | false => cases hc : t.latchCode s.mode m' <;> simp

@[simp] theorem State.defaultMode_none {s : State} (h : s.mt = none) : s.defaultMode = 0 := by
  rw [State.defaultMode, h]

@[simp] theorem State.defaultMode_some {s : State} {mt : ModeTable} (h : s.mt = some mt) : s.defaultMode = mt.raw.dm := by
  rw [State.defaultMode, h]

/-- ME.INIT always completes (44_mode_encoder.md R185; 92_eei_decisions.md D23). -/
theorem execMeInit_eq (s : State) :
    execMeInit s =
      .next { s with meMode := BitVec.ofNat 8 s.defaultMode, shv := false, shm := 0, cp := s.cp + 1 } := rfl

/-- ME.UNLATCH with its table is a no-op or the latch to DM (44_mode_encoder.md R188; 92_eei_decisions.md D25). -/
theorem execMeUnlatch_cases {s : State} {mt : ModeTable} (h : s.mt = some mt) (k : StreamId) :
    ((s.shv = false ∧ s.mode = mt.raw.dm) ∧ execMeUnlatch k s = s.complete) ∨
    (¬(s.shv = false ∧ s.mode = mt.raw.dm) ∧ execMeUnlatch k s = s.latchTo mt.raw k mt.raw.dm) := by
  rw [execMeUnlatch, State.withTable_some h]
  split
  · exact .inl ⟨‹_›, rfl⟩
  · exact .inr ⟨‹_›, rfl⟩

/-! ## What every command does to the sequencer -/

/-- u has the sequencer's registers and the run's inputs of s. -/
structure SameRun (s u : State) : Prop where
  cp : u.cp = s.cp
  runstate : u.runstate = s.runstate
  fcode : u.fcode = s.fcode
  epc : u.epc = s.epc
  einfo : u.einfo = s.einfo
  prog : u.prog = s.prog
  mt : u.mt = s.mt
  params : u.params = s.params

theorem SameRun.refl (s : State) : SameRun s s := ⟨rfl, rfl, rfl, rfl, rfl, rfl, rfl, rfl⟩

/-- The answer raises one fault from s, or completes: it advances CP of a state with the sequencer's registers of s. -/
def Answers (s : State) (r : Result) : Prop :=
  (∃ f info, r = s.raise f info) ∨ ∃ u, r = u.complete ∧ SameRun s u

theorem Answers.raise (s : State) (f : FaultName) (info : Nat) : Answers s (s.raise f info) := .inl ⟨f, info, rfl⟩

theorem Answers.complete {s u : State} (h : SameRun s u) : Answers s u.complete := .inr ⟨u, rfl, h⟩

theorem Answers.ite {s : State} {c : Prop} [Decidable c] {a b : Result} (ha : Answers s a) (hb : Answers s b) :
    Answers s (if c then a else b) := by
  split <;> assumption

theorem SameRun.setReg (s : State) (r : Reg) (v : Word) : SameRun s (s.setReg r v) := ⟨rfl, rfl, rfl, rfl, rfl, rfl, rfl, rfl⟩

theorem SameRun.setStream (s : State) (k : StreamId) (bits : List Bool) : SameRun s (s.setStream k bits) := by
  constructor <;> simp

theorem Answers.setReg (s : State) (r : Reg) (v : Word) : Answers s (s.setReg r v).complete :=
  .complete (.setReg s r v)

theorem Answers.setStream (s : State) (k : StreamId) (bits : List Bool) : Answers s (s.setStream k bits).complete :=
  .complete (.setStream s k bits)

theorem Answers.appendThen {s : State} {k : StreamId} {bits : List Bool} {after : State → State}
    (h : SameRun s (after (s.setStream k (s.stream k ++ bits)))) : Answers s (s.appendThen k bits after) :=
  .ite (.raise ..) (.complete h)

theorem Answers.append (s : State) (k : StreamId) (bits : List Bool) : Answers s (s.appendThen k bits id) :=
  .appendThen (.setStream s k _)

theorem Answers.fieldCommand {s : State} {operands : List Nat} {command : Result} (h : Answers s command) :
    Answers s (s.fieldCommand operands command) := by
  rcases s.fieldCommand_cases operands command with ⟨-, e⟩ | ⟨-, ⟨a, -, -, e⟩ | ⟨-, e⟩⟩ <;> rw [e]
  · exact .raise ..
  · exact .raise ..
  · exact h

theorem Answers.withTable {s : State} {command : RawTable → Result} (h : ∀ t, Answers s (command t)) :
    Answers s (s.withTable command) := by
  unfold State.withTable
  split
  · exact .raise ..
  · exact h _

theorem Answers.latchTo (s : State) (t : RawTable) (k : StreamId) (m' : Nat) : Answers s (s.latchTo t k m') := by
  rcases s.latchTo_cases t k m' with ⟨-, e⟩ | ⟨-, -, e⟩ | ⟨-, c, -, e⟩ <;> rw [e]
  · exact .raise ..
  · exact .raise ..
  · exact .appendThen (by constructor <;> simp)

theorem answers_execCsrr (rd : Reg) (csr : BitVec 12) (s : State) : Answers s (execCsrr rd csr s) := by
  unfold execCsrr
  split
  · exact .raise ..
  · exact .setReg ..

theorem answers_execCsrw (csr : BitVec 12) (rs1 : Reg) (s : State) : Answers s (execCsrw csr rs1 s) := by
  unfold execCsrw
  split
  · exact .raise ..
  · rename_i u h
    cases hc : Csr.ofNumber csr with
    | none => simp [hc] at h
    | some c =>
      obtain ⟨-, -, -, e⟩ := State.csrWrite_eq_some (by simpa [hc] using h)
      rw [e]
      exact .complete ⟨rfl, rfl, rfl, rfl, rfl, rfl, rfl, rfl⟩

theorem answers_execGfBuild (s : State) : Answers s (execGfBuild s) := by
  unfold execGfBuild
  split
  · exact .raise ..
  · exact .complete ⟨rfl, rfl, rfl, rfl, rfl, rfl, rfl, rfl⟩

theorem answers_execRsEnc (rs1 rs2 : Reg) (s : State) : Answers s (execRsEnc rs1 rs2 s) := by
  unfold execRsEnc
  refine .ite (.raise ..) (.ite (.raise ..) ?_)
  split
  · exact .raise ..
  · exact .complete ⟨rfl, rfl, rfl, rfl, rfl, rfl, rfl, rfl⟩

theorem answers_execRsChk (rd rs1 rs2 : Reg) (s : State) : Answers s (execRsChk rd rs1 rs2 s) := by
  unfold execRsChk
  refine .ite (.raise ..) (.ite (.raise ..) (.ite (.raise ..) ?_))
  split
  · exact .raise ..
  · exact .setReg ..

theorem answers_execRsDec (rd rs1 rs2 : Reg) (s : State) : Answers s (execRsDec rd rs1 rs2 s) := by
  unfold execRsDec
  refine .ite (.raise ..) (.ite (.raise ..) (.ite (.raise ..) ?_))
  split
  · exact .raise ..
  split
  · exact .raise ..
  split
  · exact .complete ⟨rfl, rfl, rfl, rfl, rfl, rfl, rfl, rfl⟩
  · exact .setReg ..

theorem answers_execMeInit (s : State) : Answers s (execMeInit s) := by
  unfold execMeInit
  exact .complete ⟨rfl, rfl, rfl, rfl, rfl, rfl, rfl, rfl⟩

theorem answers_execMeLatch (k : StreamId) (mode : BitVec 8) (s : State) : Answers s (execMeLatch k mode s) := by
  unfold execMeLatch
  exact .withTable fun t => .ite (.raise ..) (.latchTo ..)

theorem answers_execMeUnlatch (k : StreamId) (s : State) : Answers s (execMeUnlatch k s) := by
  unfold execMeUnlatch
  exact .withTable fun t => .ite (.complete (.refl s)) (.latchTo ..)

theorem answers_execMeBshift (k : StreamId) (rs1 rs2 : Reg) (s : State) : Answers s (execMeBshift k rs1 rs2 s) := by
  unfold execMeBshift
  exact .withTable fun t =>
    .ite (.raise ..) (.ite (.raise ..) (.ite (.raise ..) (.ite (.raise ..) (.append ..))))

theorem answers_execMeShift (k : StreamId) (mode : BitVec 8) (s : State) : Answers s (execMeShift k mode s) := by
  unfold execMeShift
  refine .withTable fun t => .ite (.raise ..) (.ite (.raise ..) ?_)
  split
  · exact .raise ..
  · exact .appendThen (by constructor <;> simp)

theorem answers_execMeSym (k : StreamId) (rs1 : Reg) (len : BitVec 2) (s : State) :
    Answers s (execMeSym k rs1 len s) := by
  unfold execMeSym
  refine .ite (.raise ..) (.withTable fun t => .ite (.raise ..) ?_)
  split
  · exact .raise ..
  · exact .appendThen (by constructor <;> simp)

theorem answers_execMeEncode (rd : Reg) (k : StreamId) (rs1 rs2 rs3 : Reg) (s : State) :
    Answers s (execMeEncode rd k rs1 rs2 rs3 s) := by
  unfold execMeEncode State.performPlan
  refine .withTable fun t => .ite (.raise ..) (.ite (.raise ..) ?_)
  split
  · exact .raise ..
  · exact .ite (.raise ..) (.ite (.raise ..) (.appendThen (by constructor <;> simp)))

/-- Every command but HALT raises one fault or completes (10_state.md R13, 60_exceptions.md R224). -/
theorem answers_exec {i : Instr} (hi : i ≠ .halt) (s : State) : Answers s (exec i s) := by
  cases i with
  | nop => exact .complete (.refl s)
  | halt => exact absurd rfl hi
  | li rd imm => exact .setReg ..
  | csrr rd csr => exact answers_execCsrr ..
  | csrw csr rs1 => exact answers_execCsrw ..
  | ldb rd imm rs1 => exact .ite (.raise ..) (.setReg ..)
  | stb rs2 imm rs1 =>
    exact .ite (.raise ..) (.ite (.raise ..) (.complete ⟨rfl, rfl, rfl, rfl, rfl, rfl, rfl, rfl⟩))
  | ldc rd imm rs1 => exact .ite (.raise ..) (.setReg ..)
  | stc rs2 imm rs1 =>
    exact .ite (.raise ..) (.ite (.raise ..) (.complete ⟨rfl, rfl, rfl, rfl, rfl, rfl, rfl, rfl⟩))
  | bsClr k => exact .setStream ..
  | bsAppendbit k rs1 => exact .append ..
  | bsAppend k rs1 rs2 => exact .ite (.raise ..) (.ite (.raise ..) (.append ..))
  | bsSize rd k => exact .setReg ..
  | bsGet rd k rs1 => exact .ite (.raise ..) (.setReg ..)
  | bsIsrange rd k rs1 rs2 rs3 => exact .ite (.raise ..) (.setReg ..)
  | bsTobytes k rs1 rs2 rs3 =>
    exact .ite (.raise ..) (.ite (.raise ..) (.ite (.raise ..)
      (.complete ⟨rfl, rfl, rfl, rfl, rfl, rfl, rfl, rfl⟩)))
  | bsReverse k => exact .setStream ..
  | bsCopy k ks rs1 rs2 => exact .ite (.raise ..) (.append ..)
  | bsClone k ks => exact .setStream ..
  | bsTerm k => exact .append ..
  | gfBuild => exact answers_execGfBuild s
  | gfAdd rd rs1 rs2 => exact .fieldCommand (.setReg ..)
  | gfSub rd rs1 rs2 => exact .fieldCommand (.setReg ..)
  | gfMul rd rs1 rs2 => exact .fieldCommand (.setReg ..)
  | gfDiv rd rs1 rs2 => exact .fieldCommand (.ite (.raise ..) (.setReg ..))
  | gfInv rd rs1 => exact .fieldCommand (.ite (.raise ..) (.setReg ..))
  | gfExp rd rs1 => exact .fieldCommand (.setReg ..)
  | gfLog rd rs1 => exact .fieldCommand (.ite (.raise ..) (.setReg ..))
  | rsEnc rs1 rs2 => exact answers_execRsEnc ..
  | rsChk rd rs1 rs2 => exact answers_execRsChk ..
  | rsDec rd rs1 rs2 => exact answers_execRsDec ..
  | rsErase rs1 => exact .ite (.raise ..) (.complete ⟨rfl, rfl, rfl, rfl, rfl, rfl, rfl, rfl⟩)
  | rsErclr => exact .complete ⟨rfl, rfl, rfl, rfl, rfl, rfl, rfl, rfl⟩
  | meInit => exact answers_execMeInit s
  | meLatch k mode => exact answers_execMeLatch ..
  | meShift k mode => exact answers_execMeShift ..
  | meUnlatch k => exact answers_execMeUnlatch ..
  | meSym k rs1 len => exact answers_execMeSym ..
  | meBshift k rs1 rs2 => exact answers_execMeBshift ..
  | meEncode rd k rs1 rs2 rs3 => exact answers_execMeEncode ..

end Sys2Proof.Machine
end

