-- ==== Sys2Proof/Laws/Field.lean ====
section
/-! SUPPORT. What GF.BUILD's table construction answers (42_galois_field.md R122, R125). -/

namespace Sys2Proof.Machine

theorem distinct_iff_nodup {α : Type} [BEq α] [LawfulBEq α] (l : List α) : distinct l = true ↔ l.Nodup := by
  induction l with
  | nil => simp [distinct]
  | cons a l ih => simp [distinct, ih]

@[simp] theorem powersFrom_length (next : Nat → Nat) (n v : Nat) : (powersFrom next n v).length = n := by
  induction n generalizing v with
  | zero => rfl
  | succ n ih => simp [powersFrom, ih]

/-- Entry i of the sequence is next applied i times (42_galois_field.md R122). -/
theorem powersFrom_getElem? (next : Nat → Nat) {n i : Nat} (v : Nat) (h : i < n) :
    (powersFrom next n v)[i]? = some (next^[i] v) := by
  induction n generalizing v i with
  | zero => omega
  | succ n ih =>
    cases i with
    | zero => rfl
    | succ i =>
      rw [powersFrom, List.getElem?_cons_succ, ih (next v) (by omega), Function.iterate_succ_apply]

theorem mem_powersFrom (next : Nat → Nat) (n v a : Nat) : a ∈ powersFrom next n v ↔ ∃ i < n, next^[i] v = a := by
  rw [List.mem_iff_getElem?]
  constructor
  · rintro ⟨i, hi⟩
    have hl : i < n := by
      by_contra hc
      rw [List.getElem?_eq_none_iff.2 (by simpa using hc)] at hi
      cases hi
    rw [powersFrom_getElem? next v hl] at hi
    exact ⟨i, hl, Option.some.inj hi⟩
  · rintro ⟨i, hi, rfl⟩
    exact ⟨i, powersFrom_getElem? next v hi⟩

/-- The order check in terms of the sequence e_i (42_galois_field.md R124). -/
theorem orderOk_iff (next : Nat → Nat) {q : Nat} (hq : 1 ≤ q) :
    orderOk q (powersFrom next q 1) = true ↔
      next^[q - 1] 1 = 1 ∧ (∀ i < q, next^[i] 1 ≠ 0) ∧
        ∀ i j, i < j → j < q - 1 → next^[i] 1 ≠ next^[j] 1 := by
  have hget : ∀ i, i < q → (powersFrom next q 1)[i]? = some (next^[i] 1) := fun i hi => powersFrom_getElem? next 1 hi
  rw [orderOk, Bool.and_eq_true, Bool.and_eq_true, distinct_iff_nodup, and_assoc]
  refine and_congr ?_ (and_congr ?_ ?_)
  · rw [beq_iff_eq, List.getD, hget _ (by omega)]
    rfl
  · have : (!(powersFrom next q 1).elem 0) = true ↔ 0 ∉ powersFrom next q 1 := by simp
    rw [this, mem_powersFrom]
    simp
  · have htake : ∀ i, i < q - 1 → ((powersFrom next q 1).take (q - 1))[i]? = some (next^[i] 1) := fun i hi => by
      rw [List.getElem?_take, if_pos hi, hget i (by omega)]
    have hl : ((powersFrom next q 1).take (q - 1)).length = q - 1 := by simp
    rw [List.nodup_iff_getElem?_ne_getElem?, hl]
    refine forall₂_congr fun i j => ⟨fun h h1 h2 => ?_, fun h h1 h2 => ?_⟩
    · have := h h1 h2
      rw [htake i (by omega), htake j h2] at this
      exact fun e => this (congrArg some e)
    · rw [htake i (by omega), htake j h2]
      exact fun e => h h1 h2 (Option.some.inj e)

/-- GF.BUILD's tables, when every check passes (42_galois_field.md R122, R125). -/
theorem buildTables_eq_ok {maxSize kind q poly alpha : Nat} {e l : List Nat} :
    buildTables maxSize kind q poly alpha = .ok (e, l) ↔
      ∃ next, nextOf maxSize kind q poly alpha = .ok next ∧ orderOk q (powersFrom next q 1) = true ∧
        e = (powersFrom next q 1).take (q - 1) ∧ l = logTable q e := by
  unfold buildTables
  cases nextOf maxSize kind q poly alpha with
  | error c => simp
  | ok next =>
    simp only [Except.ok.injEq, exists_eq_left']
    split
    · rename_i h
      rw [Except.ok.injEq, Prod.mk.injEq]
      constructor
      · rintro ⟨rfl, rfl⟩
        exact ⟨h, rfl, rfl⟩
      · rintro ⟨-, rfl, rfl⟩
        exact ⟨rfl, rfl⟩
    · rename_i h
      simp [h]

/-- The checks of GF.BUILD before the order check (42_galois_field.md R122). -/
theorem nextOf_eq_ok {maxSize kind q poly alpha : Nat} {next : Nat → Nat} :
    nextOf maxSize kind q poly alpha = .ok next ↔
      (kind = 0 ∧ 4 ≤ q ∧ q ≤ maxSize ∧ 2 ^ q.log2 = q ∧ q ≤ poly ∧ poly < 2 * q ∧ next = binNext q poly) ∨
      (kind = 1 ∧ 3 ≤ q ∧ q ≤ maxSize ∧ 2 ≤ alpha ∧ alpha < q ∧ next = primeNext q alpha) := by
  unfold nextOf isPowerOfTwo
  split
  · rename_i hk
    subst hk
    split
    · rename_i h
      have : ¬(4 ≤ q ∧ q ≤ maxSize ∧ 2 ^ q.log2 = q) := by
        rintro ⟨h1, h2, h3⟩
        simp [h3] at h
        omega
      simp
      tauto
    · rename_i h
      push Not at h
      have h3 : 2 ^ q.log2 = q := by simpa using h.2.2
      split
      · simp
        omega
      · rename_i h2
        push Not at h2
        rw [Except.ok.injEq]
        constructor
        · rintro rfl
          exact .inl ⟨rfl, h.1, h.2.1, h3, h2.1, h2.2, rfl⟩
        · rintro (h' | h')
          · exact h'.2.2.2.2.2.2.symm
          · omega
  · split
    · rename_i h0 hk
      subst hk
      split
      · simp
        omega
      · split
        · simp
          omega
        · rename_i h1 h2
          push Not at h1 h2
          rw [Except.ok.injEq]
          constructor
          · rintro rfl
            exact .inr ⟨rfl, h1.1, h1.2, h2.1, h2.2, rfl⟩
          · rintro (h' | h')
            · omega
            · exact h'.2.2.2.2.2.symm
    · simp
      omega

/-- The size of a field that GF.BUILD accepts. -/
theorem nextOf_size {maxSize kind q poly alpha : Nat} {next : Nat → Nat}
    (h : nextOf maxSize kind q poly alpha = .ok next) : 3 ≤ q ∧ q ≤ maxSize := by
  rcases nextOf_eq_ok.1 h with h | h <;> omega

end Sys2Proof.Machine
end

