-- ==== Sys2Proof/Laws/Memory.lean ====
section
/-! SUPPORT. The laws of the storage spaces: what a read gives after each memory operation, and that each keeps the canonical
form. -/

namespace Sys2Proof.Machine

@[simp] theorem Memory.read_nil {w : Nat} (a : Nat) : Memory.read ([] : Memory w) a = 0 := rfl

theorem Memory.wfFrom_cons {w : Nat} {cap low k : Nat} {v : BitVec w} {m : Memory w} :
    Memory.wfFrom cap low ((k, v) :: m) = true ↔
      low ≤ k ∧ k < cap ∧ v ≠ 0 ∧ Memory.wfFrom cap (k + 1) m = true := by
  simp [Memory.wfFrom, Memory.unlisted, and_assoc]

theorem Memory.wfFrom_mono {w : Nat} {cap low low' : Nat} {m : Memory w} (h : Memory.wfFrom cap low m = true)
    (hl : low' ≤ low) : Memory.wfFrom cap low' m = true := by
  cases m with
  | nil => rfl
  | cons p m =>
    obtain ⟨k, v⟩ := p
    obtain ⟨h1, h2⟩ := Memory.wfFrom_cons.1 h
    exact Memory.wfFrom_cons.2 ⟨hl.trans h1, h2⟩

/-- Below the first listed index everything reads 0. -/
theorem Memory.read_eq_zero_of_lt {w : Nat} {cap a : Nat} {low : Nat} {m : Memory w}
    (h : Memory.wfFrom cap low m = true) (ha : a < low) : m.read a = 0 := by
  induction m generalizing low with
  | nil => rfl
  | cons p m ih =>
    obtain ⟨k, v⟩ := p
    rw [Memory.wfFrom_cons] at h
    rw [Memory.read, if_neg (by omega)]
    exact ih h.2.2.2 (by omega)

/-- An entry outside the space reads 0. -/
theorem Memory.read_eq_zero_of_le {w : Nat} {cap a : Nat} {low : Nat} {m : Memory w}
    (h : Memory.wfFrom cap low m = true) (ha : cap ≤ a) : m.read a = 0 := by
  induction m generalizing low with
  | nil => rfl
  | cons p m ih =>
    obtain ⟨k, v⟩ := p
    rw [Memory.wfFrom_cons] at h
    rw [Memory.read, if_neg (by omega)]
    exact ih h.2.2.2

theorem Memory.wfFrom_write {w : Nat} {cap a : Nat} {low : Nat} {m : Memory w} {v : BitVec w}
    (h : Memory.wfFrom cap low m = true) (hl : low ≤ a) (ha : a < cap) :
    Memory.wfFrom cap low (m.write a v) = true := by
  induction m generalizing low with
  | nil =>
    rw [Memory.write]
    split
    · rfl
    · simp_all [Memory.wfFrom, Memory.unlisted]
  | cons p m ih =>
    obtain ⟨k, u⟩ := p
    rw [Memory.wfFrom_cons] at h
    obtain ⟨h1, h2, h3, h4⟩ := h
    rw [Memory.write]
    split
    · rw [Memory.wfFrom_cons]
      exact ⟨h1, h2, h3, ih h4 (by omega)⟩
    · by_cases hk : k = a
      · subst hk
        simp only [if_true]
        split
        · exact Memory.wfFrom_mono h4 (by omega)
        · rename_i hv
          rw [Memory.wfFrom_cons]
          exact ⟨hl, ha, hv, h4⟩
      · simp only [if_neg hk]
        split
        · exact Memory.wfFrom_cons.2 ⟨h1, h2, h3, h4⟩
        · rename_i hv
          rw [Memory.wfFrom_cons]
          exact ⟨hl, ha, hv, Memory.wfFrom_cons.2 ⟨by omega, h2, h3, h4⟩⟩

/-- Reading after one write, in a canonical memory. -/
theorem Memory.read_write_from {w : Nat} {cap a b : Nat} {low : Nat} {m : Memory w} {v : BitVec w}
    (h : Memory.wfFrom cap low m = true) (hl : low ≤ a) :
    (m.write a v).read b = if b = a then v else m.read b := by
  induction m generalizing low with
  | nil =>
    rw [Memory.write]
    split
    · rename_i hv
      simp [Memory.unlisted] at hv
      simp [hv]
    · simp only [Memory.read]
      split <;> split <;> first | rfl | omega
  | cons p m ih =>
    obtain ⟨k, u⟩ := p
    rw [Memory.wfFrom_cons] at h
    obtain ⟨h1, h2, h3, h4⟩ := h
    rw [Memory.write]
    split
    · rename_i hka
      simp only [Memory.read]
      rw [ih h4 (by omega)]
      split <;> split <;> first | rfl | omega
    · rename_i hka
      by_cases hk : k = a
      · subst hk
        have h0 := Memory.read_eq_zero_of_lt h4 (Nat.lt_succ_self k)
        simp only [if_true, Memory.unlisted]
        split
        · rename_i hv
          subst hv
          simp only [Memory.read]
          by_cases hb : b = k
          · subst hb
            simpa using h0
          · rw [if_neg hb, if_neg (fun h => hb h.symm)]
        · simp only [Memory.read]
          by_cases hb : b = k
          · simp [hb]
          · simp only [if_neg hb, if_neg (fun h : k = b => hb h.symm)]
      · have h0 : Memory.read ((k, u) :: m) a = 0 :=
          Memory.read_eq_zero_of_lt (low := k) (Memory.wfFrom_cons.2 ⟨le_refl _, h2, h3, h4⟩) (by omega)
        simp only [if_neg hk, Memory.unlisted]
        split
        · rename_i hv
          subst hv
          by_cases hb : b = a
          · rw [if_pos hb, hb]
            exact h0
          · rw [if_neg hb]
        · rw [Memory.read]
          by_cases hb : b = a
          · simp [hb]
          · rw [if_neg (fun h => hb h.symm), if_neg hb]

/-- The reset memory is canonical (10_state.md R26). -/
@[simp] theorem Memory.wf_nil {w : Nat} (cap : Nat) : Memory.wf cap ([] : Memory w) = true := rfl

/-- A write inside the space keeps the canonical form. -/
theorem Memory.wf_write {w : Nat} {cap a : Nat} {m : Memory w} {v : BitVec w} (h : m.wf cap = true) (ha : a < cap) :
    (m.write a v).wf cap = true := Memory.wfFrom_write h (Nat.zero_le a) ha

/-- A read after a write gives the value written there and leaves every other place alone (20_memory.md R41). -/
theorem Memory.read_write {w : Nat} {cap a b : Nat} {m : Memory w} {v : BitVec w} (h : m.wf cap = true) :
    (m.write a v).read b = if b = a then v else m.read b := Memory.read_write_from h (Nat.zero_le a)

/-- Successive writes inside the space keep the canonical form. -/
theorem Memory.wf_writeList {w : Nat} {cap a : Nat} {m : Memory w} {vs : List (BitVec w)} (h : m.wf cap = true)
    (ha : a + vs.length ≤ cap) : (m.writeList a vs).wf cap = true := by
  induction vs generalizing m a with
  | nil => exact h
  | cons v vs ih =>
    rw [List.length_cons] at ha
    exact ih (Memory.wf_write h (by omega)) (by omega)

/-- Reading after successive writes inside the space. -/
theorem Memory.read_writeList {w : Nat} {cap a b : Nat} {m : Memory w} {vs : List (BitVec w)} (h : m.wf cap = true)
    (ha : a + vs.length ≤ cap) :
    (m.writeList a vs).read b = if a ≤ b ∧ b < a + vs.length then vs.getD (b - a) 0 else m.read b := by
  induction vs generalizing m a with
  | nil => simp [Memory.writeList]
  | cons v vs ih =>
    rw [List.length_cons] at ha
    rw [Memory.writeList, ih (Memory.wf_write h (by omega)) (by omega), Memory.read_write h]
    by_cases hb : b = a
    · subst hb
      simp
    · by_cases hr : a + 1 ≤ b ∧ b < a + 1 + vs.length
      · rw [if_pos hr, if_pos (by rw [List.length_cons]; omega)]
        obtain ⟨d, rfl⟩ : ∃ d, b = a + 1 + d := ⟨b - (a + 1), by omega⟩
        rw [show a + 1 + d - a = d + 1 by omega, show a + 1 + d - (a + 1) = d by omega]
        simp
      · rw [if_neg hr, if_neg hb, if_neg (by rw [List.length_cons]; omega)]

@[simp] theorem Memory.length_readRange {w : Nat} (m : Memory w) (a n : Nat) : (m.readRange a n).length = n := by
  simp [Memory.readRange]

theorem Memory.getD_readRange {w : Nat} (m : Memory w) {a n j : Nat} (h : j < n) :
    (m.readRange a n).getD j 0 = m.read (a + j) := by
  simp [Memory.readRange, h]

/-- Two canonical memories with the same reads are equal data. -/
theorem Memory.ext_of_wfFrom {w : Nat} {cap low : Nat} {m m' : Memory w} (h : Memory.wfFrom cap low m = true)
    (h' : Memory.wfFrom cap low m' = true) (hr : ∀ a, m.read a = m'.read a) : m = m' := by
  induction m generalizing low m' with
  | nil =>
    cases m' with
    | nil => rfl
    | cons p m' =>
      obtain ⟨k, v⟩ := p
      have := hr k
      rw [Memory.wfFrom_cons] at h'
      simp [Memory.read] at this
      exact absurd this.symm h'.2.2.1
  | cons p m ih =>
    obtain ⟨k, v⟩ := p
    have hk := Memory.wfFrom_cons.1 h
    cases m' with
    | nil =>
      have := hr k
      simp [Memory.read] at this
      exact absurd this hk.2.2.1
    | cons p' m' =>
      obtain ⟨k', v'⟩ := p'
      have hk' := Memory.wfFrom_cons.1 h'
      have e : k = k' := by
        rcases Nat.lt_trichotomy k k' with hl | he | hl
        · have hz : Memory.read ((k', v') :: m') k = 0 := Memory.read_eq_zero_of_lt (low := k')
            (Memory.wfFrom_cons.2 ⟨le_refl _, hk'.2⟩) hl
          have := hr k
          rw [hz] at this
          simp [Memory.read] at this
          exact absurd this hk.2.2.1
        · exact he
        · have hz : Memory.read ((k, v) :: m) k' = 0 := Memory.read_eq_zero_of_lt (low := k)
            (Memory.wfFrom_cons.2 ⟨le_refl _, hk.2⟩) hl
          have := hr k'
          rw [hz] at this
          simp [Memory.read] at this
          exact absurd this.symm hk'.2.2.1
      subst e
      have ev : v = v' := by simpa [Memory.read] using hr k
      subst ev
      rw [ih hk.2.2.2 hk'.2.2.2 fun a => by
        have := hr a
        simp only [Memory.read] at this
        split at this
        · rename_i hka
          subst hka
          rw [Memory.read_eq_zero_of_lt hk.2.2.2 (Nat.lt_succ_self _),
            Memory.read_eq_zero_of_lt hk'.2.2.2 (Nat.lt_succ_self _)]
        · exact this]

/-- Two canonical memories with the same reads are equal data. -/
theorem Memory.ext {w : Nat} {cap : Nat} {m m' : Memory w} (h : m.wf cap = true) (h' : m'.wf cap = true)
    (hr : ∀ a, m.read a = m'.read a) : m = m' := Memory.ext_of_wfFrom h h' hr

end Sys2Proof.Machine
end

