-- ==== Sys2Proof/Laws/Host.lean ====
section
/-! SUPPORT. The host's actions (70_reset_and_hazards.md R250, R251) and the canonical form of the memories. -/

namespace Sys2Proof.Machine

/-- The memories after reset are canonical. -/
theorem State.afterReset_memoryInv (params : Params) (mt : Option ModeTable) (prog : List CmdWord) :
    (State.afterReset params mt prog).memoryInv := ⟨rfl, rfl, rfl⟩

theorem State.hostWriteBuf_memoryInv {s : State} (h : s.memoryInv) (a : Nat) (v : Byte) :
    (s.hostWriteBuf a v).memoryInv := by
  unfold State.hostWriteBuf
  split
  · rename_i ha
    exact ⟨Memory.wf_write h.1 ha, h.2⟩
  · exact h

theorem State.hostWriteCw_memoryInv {s : State} (h : s.memoryInv) (i : Nat) (v : BitVec 16) :
    (s.hostWriteCw i v).memoryInv := by
  unfold State.hostWriteCw
  split
  · rename_i hi
    exact ⟨h.1, Memory.wf_write h.2.1 hi, h.2.2⟩
  · exact h

/-- A launch leaves canonical memories. -/
theorem State.launch_memoryInv (params : Params) (mt : Option ModeTable) (prog : List CmdWord) (buf : List Byte)
    (cw : List (BitVec 16)) : (State.launch params mt prog buf cw).memoryInv := by
  have h1 : ∀ (l : List (Byte × Nat)) (s : State), s.memoryInv →
      (l.foldl (fun s p => s.hostWriteBuf p.2 p.1) s).memoryInv := by
    intro l
    induction l with
    | nil => exact fun s h => h
    | cons p l ih => exact fun s h => ih _ (State.hostWriteBuf_memoryInv h _ _)
  have h2 : ∀ (l : List (BitVec 16 × Nat)) (s : State), s.memoryInv →
      (l.foldl (fun s p => s.hostWriteCw p.2 p.1) s).memoryInv := by
    intro l
    induction l with
    | nil => exact fun s h => h
    | cons p l ih => exact fun s h => ih _ (State.hostWriteCw_memoryInv h _ _)
  exact h2 _ _ (h1 _ _ (State.afterReset_memoryInv ..))

end Sys2Proof.Machine
end

