-- ==== Sys2Proof/Laws/ModeTable.lean ====
section
/-! SUPPORT. What WF(MT) gives of a mode table (44_mode_encoder.md R182). -/

namespace Sys2Proof.Machine

/-- The conjuncts of WF(MT), by name (44_mode_encoder.md R182). -/
structure TableFacts (t : RawTable) : Prop where
  nm_pos : 1 ≤ t.nm
  nm_le : t.nm ≤ 16
  dm_lt : t.dm < t.nm
  width_length : t.width.length = t.nm
  width_range : ∀ n ∈ t.width, 1 ≤ n ∧ n ≤ 16
  ws_range : 1 ≤ t.ws ∧ t.ws ≤ 16
  wl_range : 1 ≤ t.wl ∧ t.wl ≤ 16
  sym_length : t.sym.length = t.nm
  key_length : ∀ l ∈ t.sym, ∀ e ∈ l, e.1.length = 1 ∨ e.1.length = 2
  latch_modes : ∀ p ∈ t.latch, p.1.1 < t.nm ∧ p.1.2 < t.nm ∧ p.1.1 ≠ p.1.2
  shift_modes : ∀ p ∈ t.shift, p.1.1 < t.nm ∧ p.1.2 < t.nm ∧ p.1.1 ≠ p.1.2
  bsh_modes : ∀ p ∈ t.bsh, p.1 < t.nm
  sym_keys : ∀ l ∈ t.sym, (l.map Prod.fst).Nodup
  latch_keys : (t.latch.map Prod.fst).Nodup
  shift_keys : (t.shift.map Prod.fst).Nodup
  bsh_keys : (t.bsh.map Prod.fst).Nodup
  codes_nodup : ∀ m < t.nm, (t.codes m).Nodup
  codes_lt : ∀ m < t.nm, ∀ c ∈ t.codes m, c < 2 ^ t.w m

theorem ModeTable.facts (t : ModeTable) : TableFacts t.raw := by
  have h := t.wf
  simp only [RawTable.wf, RawTable.keysDistinct, pairsOk, widthOk, Bool.and_eq_true, decide_eq_true_eq, beq_iff_eq,
    List.all_eq_true, distinct_iff_nodup, Bool.or_eq_true, bne_iff_ne, List.mem_range, and_assoc, ne_eq] at h
  obtain ⟨h1, h2, h3, h4, h5, h6, h7, h8, h9, h10, h11, h12, h13, h14, h15, h16, h17, h18, h19⟩ := h
  exact ⟨h1, h2, h3, h4, h5, ⟨h6, h7⟩, ⟨h8, h9⟩, h10, h11, h12, h13, h14, h15, h16, h17, h18,
    fun m hm => (h19 m hm).1, fun m hm => (h19 m hm).2⟩

/-- A mode's width is 1 to 16 (44_mode_encoder.md R181). -/
theorem TableFacts.w_range {t : RawTable} (h : TableFacts t) {m : Nat} (hm : m < t.nm) : 1 ≤ t.w m ∧ t.w m ≤ 16 := by
  have hl : m < t.width.length := by rw [h.width_length]; exact hm
  rw [RawTable.w, List.getD, List.getElem?_eq_getElem hl]
  exact h.width_range _ (List.getElem_mem hl)

theorem mem_of_lookup {α β : Type} [BEq α] [LawfulBEq α] {l : List (α × β)} {a : α} {b : β} (h : l.lookup a = some b) :
    (a, b) ∈ l := by
  induction l with
  | nil => simp at h
  | cons p l ih =>
    obtain ⟨a', b'⟩ := p
    rw [List.lookup_cons] at h
    cases ha : a == a' with
    | true =>
      rw [ha] at h
      simp [eq_of_beq ha, Option.some.inj h]
    | false =>
      rw [ha] at h
      exact List.mem_cons_of_mem _ (ih h)

/-- A latch joins two modes of the table and its code is a code of its source mode (44_mode_encoder.md R182). -/
theorem TableFacts.latchCode_some {t : RawTable} (h : TableFacts t) {m m' c : Nat} (hc : t.latchCode m m' = some c) :
    m < t.nm ∧ m' < t.nm ∧ m ≠ m' ∧ c ∈ t.codes m := by
  have hm := mem_of_lookup hc
  refine ⟨(h.latch_modes _ hm).1, (h.latch_modes _ hm).2.1, (h.latch_modes _ hm).2.2, ?_⟩
  simp only [RawTable.codes, codesFrom, List.mem_append, List.mem_map, List.mem_filter]
  exact .inl (.inl (.inr ⟨_, ⟨hm, by simp⟩, rfl⟩))

/-- LATCH never holds a pair (m, m), so a latch to the current mode has no code (44_mode_encoder.md R182). -/
theorem TableFacts.latchCode_self {t : RawTable} (h : TableFacts t) (m : Nat) : t.latchCode m m = none := by
  cases hc : t.latchCode m m with
  | none => rfl
  | some c => exact absurd rfl (h.latchCode_some hc).2.2.1

/-- A shift joins two modes of the table and its code is a code of its source mode (44_mode_encoder.md R182). -/
theorem TableFacts.shiftCode_some {t : RawTable} (h : TableFacts t) {m m' c : Nat} (hc : t.shiftCode m m' = some c) :
    m < t.nm ∧ m' < t.nm ∧ m ≠ m' ∧ c ∈ t.codes m := by
  have hm := mem_of_lookup hc
  refine ⟨(h.shift_modes _ hm).1, (h.shift_modes _ hm).2.1, (h.shift_modes _ hm).2.2, ?_⟩
  simp only [RawTable.codes, codesFrom, List.mem_append, List.mem_map, List.mem_filter]
  exact .inl (.inr ⟨_, ⟨hm, by simp⟩, rfl⟩)

/-- A mode that opens binary-shift runs is a mode of the table (44_mode_encoder.md R182). -/
theorem TableFacts.bshCode_some {t : RawTable} (h : TableFacts t) {m c : Nat} (hc : t.bshCode m = some c) :
    m < t.nm ∧ c ∈ t.codes m := by
  have hm := mem_of_lookup hc
  refine ⟨h.bsh_modes _ hm, ?_⟩
  simp only [RawTable.codes, codesFrom, List.mem_append, List.mem_map, List.mem_filter]
  exact .inr ⟨_, ⟨hm, by simp⟩, rfl⟩

/-- A symbol's key has one or two bytes and its code is a code of its mode (44_mode_encoder.md R182). -/
theorem TableFacts.symCode_some {t : RawTable} (h : TableFacts t) {m c : Nat} {key : List Byte}
    (hc : t.symCode m key = some c) : m < t.nm ∧ (key.length = 1 ∨ key.length = 2) ∧ c ∈ t.codes m := by
  have hm := mem_of_lookup hc
  have hl : m < t.sym.length := by
    by_contra hcon
    rw [RawTable.symOf, List.getD, List.getElem?_eq_none_iff.2 (by omega)] at hm
    cases hm
  have hs : t.symOf m = t.sym[m] := by rw [RawTable.symOf, List.getD, List.getElem?_eq_getElem hl]; rfl
  refine ⟨by rw [← h.sym_length]; exact hl, h.key_length _ (List.getElem_mem hl) _ (hs ▸ hm), ?_⟩
  simp only [RawTable.codes, List.mem_append, List.mem_map]
  exact .inl (.inl (.inl ⟨_, hm, rfl⟩))

end Sys2Proof.Machine
end

