-- ==== Sys2Proof/Laws/PerInstr.lean ====
section
/-! SUPPORT. Statements made per instruction: one lemma for each constructor of Instr. -/

namespace Sys2Proof.Laws.EncodedForm

/-- The word of a command has the fields its row of the opcode map lists; every other field and bits 39:34 are zero
(30_encoding.md R60, R65, R66 (b), (c)). -/
def Statement (i : Instr) : Prop :=
  Fields.ofWord (encode i) = i.fields ∧ i.fields.op = i.op.code ∧ i.fields.unusedZero i.op.uses = true ∧
    i.fields.reserved = 0

theorem selField_reserved (k ks : StreamId) : (selField k ks).extractLsb' 2 6 = 0 := by
  cases k <;> cases ks <;> decide

theorem of_streams {i : Instr} (k ks : StreamId) (hu : i.fields.unusedZero i.op.uses = true)
    (hs : i.fields.sel = selField k ks) : Statement i :=
  ⟨Fields.ofWord_toWord _, Instr.fields_op i, hu, by rw [Fields.reserved, hs]; exact selField_reserved k ks⟩

theorem of_no_stream {i : Instr} (hu : i.fields.unusedZero i.op.uses = true) (hs : i.fields.sel = 0) : Statement i :=
  of_streams .bs0 .bs0 hu hs

theorem nop : Statement .nop := by
  exact of_no_stream (by simp [Instr.fields, Instr.op, Op.uses, Fields.unusedZero, Fields.k, Fields.ks]) rfl

theorem halt : Statement .halt := by
  exact of_no_stream (by simp [Instr.fields, Instr.op, Op.uses, Fields.unusedZero, Fields.k, Fields.ks]) rfl

theorem li (rd : Reg) (imm : Word) : Statement (.li rd imm) := by
  exact of_no_stream (by simp [Instr.fields, Instr.op, Op.uses, Fields.unusedZero, Fields.k, Fields.ks]) rfl

theorem csrr (rd : Reg) (csr : BitVec 12) : Statement (.csrr rd csr) := by
  exact of_no_stream (by simp [Instr.fields, Instr.op, Op.uses, Fields.unusedZero, Fields.k, Fields.ks]) rfl

theorem csrw (csr : BitVec 12) (rs1 : Reg) : Statement (.csrw csr rs1) := by
  exact of_no_stream (by simp [Instr.fields, Instr.op, Op.uses, Fields.unusedZero, Fields.k, Fields.ks]) rfl

theorem ldb (rd : Reg) (imm : Word) (rs1 : Reg) : Statement (.ldb rd imm rs1) := by
  exact of_no_stream (by simp [Instr.fields, Instr.op, Op.uses, Fields.unusedZero, Fields.k, Fields.ks]) rfl

theorem stb (rs2 : Reg) (imm : Word) (rs1 : Reg) : Statement (.stb rs2 imm rs1) := by
  exact of_no_stream (by simp [Instr.fields, Instr.op, Op.uses, Fields.unusedZero, Fields.k, Fields.ks]) rfl

theorem ldc (rd : Reg) (imm : Word) (rs1 : Reg) : Statement (.ldc rd imm rs1) := by
  exact of_no_stream (by simp [Instr.fields, Instr.op, Op.uses, Fields.unusedZero, Fields.k, Fields.ks]) rfl

theorem stc (rs2 : Reg) (imm : Word) (rs1 : Reg) : Statement (.stc rs2 imm rs1) := by
  exact of_no_stream (by simp [Instr.fields, Instr.op, Op.uses, Fields.unusedZero, Fields.k, Fields.ks]) rfl

theorem bsClr (k : StreamId) : Statement (.bsClr k) := by
  cases k <;> exact of_streams _ .bs0 (by simp [Instr.fields, Instr.op, Op.uses, Fields.unusedZero, Fields.k, Fields.ks, selField, StreamId.bit]) rfl

theorem bsAppendbit (k : StreamId) (rs1 : Reg) : Statement (.bsAppendbit k rs1) := by
  cases k <;> exact of_streams _ .bs0 (by simp [Instr.fields, Instr.op, Op.uses, Fields.unusedZero, Fields.k, Fields.ks, selField, StreamId.bit]) rfl

theorem bsAppend (k : StreamId) (rs1 rs2 : Reg) : Statement (.bsAppend k rs1 rs2) := by
  cases k <;> exact of_streams _ .bs0 (by simp [Instr.fields, Instr.op, Op.uses, Fields.unusedZero, Fields.k, Fields.ks, selField, StreamId.bit]) rfl

theorem bsSize (rd : Reg) (k : StreamId) : Statement (.bsSize rd k) := by
  cases k <;> exact of_streams _ .bs0 (by simp [Instr.fields, Instr.op, Op.uses, Fields.unusedZero, Fields.k, Fields.ks, selField, StreamId.bit]) rfl

theorem bsGet (rd : Reg) (k : StreamId) (rs1 : Reg) : Statement (.bsGet rd k rs1) := by
  cases k <;> exact of_streams _ .bs0 (by simp [Instr.fields, Instr.op, Op.uses, Fields.unusedZero, Fields.k, Fields.ks, selField, StreamId.bit]) rfl

theorem bsIsrange (rd : Reg) (k : StreamId) (rs1 rs2 rs3 : Reg) : Statement (.bsIsrange rd k rs1 rs2 rs3) := by
  cases k <;> exact of_streams _ .bs0 (by simp [Instr.fields, Instr.op, Op.uses, Fields.unusedZero, Fields.k, Fields.ks, selField, StreamId.bit]) rfl

theorem bsTobytes (k : StreamId) (rs1 rs2 rs3 : Reg) : Statement (.bsTobytes k rs1 rs2 rs3) := by
  cases k <;> exact of_streams _ .bs0 (by simp [Instr.fields, Instr.op, Op.uses, Fields.unusedZero, Fields.k, Fields.ks, selField, StreamId.bit]) rfl

theorem bsReverse (k : StreamId) : Statement (.bsReverse k) := by
  cases k <;> exact of_streams _ .bs0 (by simp [Instr.fields, Instr.op, Op.uses, Fields.unusedZero, Fields.k, Fields.ks, selField, StreamId.bit]) rfl

theorem bsCopy (k ks : StreamId) (rs1 rs2 : Reg) : Statement (.bsCopy k ks rs1 rs2) := by
  cases k <;> cases ks <;> exact of_streams _ _ (by simp [Instr.fields, Instr.op, Op.uses, Fields.unusedZero, Fields.k, Fields.ks, selField, StreamId.bit]) rfl

theorem bsClone (k ks : StreamId) : Statement (.bsClone k ks) := by
  cases k <;> cases ks <;> exact of_streams _ _ (by simp [Instr.fields, Instr.op, Op.uses, Fields.unusedZero, Fields.k, Fields.ks, selField, StreamId.bit]) rfl

theorem bsTerm (k : StreamId) : Statement (.bsTerm k) := by
  cases k <;> exact of_streams _ .bs0 (by simp [Instr.fields, Instr.op, Op.uses, Fields.unusedZero, Fields.k, Fields.ks, selField, StreamId.bit]) rfl

theorem gfBuild : Statement .gfBuild := by
  exact of_no_stream (by simp [Instr.fields, Instr.op, Op.uses, Fields.unusedZero, Fields.k, Fields.ks]) rfl

theorem gfAdd (rd rs1 rs2 : Reg) : Statement (.gfAdd rd rs1 rs2) := by
  exact of_no_stream (by simp [Instr.fields, Instr.op, Op.uses, Fields.unusedZero, Fields.k, Fields.ks]) rfl

theorem gfSub (rd rs1 rs2 : Reg) : Statement (.gfSub rd rs1 rs2) := by
  exact of_no_stream (by simp [Instr.fields, Instr.op, Op.uses, Fields.unusedZero, Fields.k, Fields.ks]) rfl

theorem gfMul (rd rs1 rs2 : Reg) : Statement (.gfMul rd rs1 rs2) := by
  exact of_no_stream (by simp [Instr.fields, Instr.op, Op.uses, Fields.unusedZero, Fields.k, Fields.ks]) rfl

theorem gfDiv (rd rs1 rs2 : Reg) : Statement (.gfDiv rd rs1 rs2) := by
  exact of_no_stream (by simp [Instr.fields, Instr.op, Op.uses, Fields.unusedZero, Fields.k, Fields.ks]) rfl

theorem gfInv (rd rs1 : Reg) : Statement (.gfInv rd rs1) := by
  exact of_no_stream (by simp [Instr.fields, Instr.op, Op.uses, Fields.unusedZero, Fields.k, Fields.ks]) rfl

theorem gfExp (rd rs1 : Reg) : Statement (.gfExp rd rs1) := by
  exact of_no_stream (by simp [Instr.fields, Instr.op, Op.uses, Fields.unusedZero, Fields.k, Fields.ks]) rfl

theorem gfLog (rd rs1 : Reg) : Statement (.gfLog rd rs1) := by
  exact of_no_stream (by simp [Instr.fields, Instr.op, Op.uses, Fields.unusedZero, Fields.k, Fields.ks]) rfl

theorem rsEnc (rs1 rs2 : Reg) : Statement (.rsEnc rs1 rs2) := by
  exact of_no_stream (by simp [Instr.fields, Instr.op, Op.uses, Fields.unusedZero, Fields.k, Fields.ks]) rfl

theorem rsChk (rd rs1 rs2 : Reg) : Statement (.rsChk rd rs1 rs2) := by
  exact of_no_stream (by simp [Instr.fields, Instr.op, Op.uses, Fields.unusedZero, Fields.k, Fields.ks]) rfl

theorem rsDec (rd rs1 rs2 : Reg) : Statement (.rsDec rd rs1 rs2) := by
  exact of_no_stream (by simp [Instr.fields, Instr.op, Op.uses, Fields.unusedZero, Fields.k, Fields.ks]) rfl

theorem rsErase (rs1 : Reg) : Statement (.rsErase rs1) := by
  exact of_no_stream (by simp [Instr.fields, Instr.op, Op.uses, Fields.unusedZero, Fields.k, Fields.ks]) rfl

theorem rsErclr : Statement .rsErclr := by
  exact of_no_stream (by simp [Instr.fields, Instr.op, Op.uses, Fields.unusedZero, Fields.k, Fields.ks]) rfl

theorem meInit : Statement .meInit := by
  exact of_no_stream (by simp [Instr.fields, Instr.op, Op.uses, Fields.unusedZero, Fields.k, Fields.ks]) rfl

theorem meLatch (k : StreamId) (mode : BitVec 8) : Statement (.meLatch k mode) := by
  cases k <;> exact of_streams _ .bs0 (by simp [Instr.fields, Instr.op, Op.uses, Fields.unusedZero, Fields.k, Fields.ks, selField, StreamId.bit]) rfl

theorem meShift (k : StreamId) (mode : BitVec 8) : Statement (.meShift k mode) := by
  cases k <;> exact of_streams _ .bs0 (by simp [Instr.fields, Instr.op, Op.uses, Fields.unusedZero, Fields.k, Fields.ks, selField, StreamId.bit]) rfl

theorem meUnlatch (k : StreamId) : Statement (.meUnlatch k) := by
  cases k <;> exact of_streams _ .bs0 (by simp [Instr.fields, Instr.op, Op.uses, Fields.unusedZero, Fields.k, Fields.ks, selField, StreamId.bit]) rfl

theorem meSym (k : StreamId) (rs1 : Reg) (len : BitVec 2) : Statement (.meSym k rs1 len) := by
  cases k <;> exact of_streams _ .bs0 (by simp [Instr.fields, Instr.op, Op.uses, Fields.unusedZero, Fields.k, Fields.ks, selField, StreamId.bit]) rfl

theorem meBshift (k : StreamId) (rs1 rs2 : Reg) : Statement (.meBshift k rs1 rs2) := by
  cases k <;> exact of_streams _ .bs0 (by simp [Instr.fields, Instr.op, Op.uses, Fields.unusedZero, Fields.k, Fields.ks, selField, StreamId.bit]) rfl

theorem meEncode (rd : Reg) (k : StreamId) (rs1 rs2 rs3 : Reg) : Statement (.meEncode rd k rs1 rs2 rs3) := by
  cases k <;> exact of_streams _ .bs0 (by simp [Instr.fields, Instr.op, Op.uses, Fields.unusedZero, Fields.k, Fields.ks, selField, StreamId.bit]) rfl

end Sys2Proof.Laws.EncodedForm
end

