-- ==== Sys2Proof/Laws/ReedSolomon.lean ====
section
/-! SUPPORT. The range checks of the Reed-Solomon commands and the syndromes of a block (43_reed_solomon.md R150, R155,
R159). -/

namespace Sys2Proof.Machine

/-- No codeword below n is outside the field (43_reed_solomon.md R150). -/
theorem State.badCodeword_eq_none {s : State} {n : Nat} :
    s.badCodeword n = none ↔ ∀ j < n, (s.cw.read j).toNat < s.field.q := by
  simp [State.badCodeword]

/-- The lowest codeword outside the field (43_reed_solomon.md R150). -/
theorem State.badCodeword_eq_some {s : State} {n i : Nat} :
    s.badCodeword n = some i ↔
      i < n ∧ s.field.q ≤ (s.cw.read i).toNat ∧ ∀ j < i, (s.cw.read j).toNat < s.field.q := by
  rw [State.badCodeword, List.find?_range_eq_some]
  simp
  tauto

/-- No mark at or beyond n (43_reed_solomon.md R159). -/
theorem State.badErasure_eq_none {s : State} {n : Nat} :
    s.badErasure n = none ↔ ∀ j, n ≤ j → j < s.params.cwCap → s.er.read j ≠ 1 := by
  simp only [State.badErasure, List.find?_eq_none, List.mem_range'_1, beq_iff_eq]
  exact forall_congr' fun j => ⟨fun h h1 h2 => h ⟨h1, by omega⟩, fun h h1 => h h1.1 (by omega)⟩

/-- The lowest mark at or beyond n (43_reed_solomon.md R159). -/
theorem State.badErasure_of_first {s : State} {n j : Nat} (h1 : n ≤ j) (h2 : j < s.params.cwCap) (h3 : s.er.read j = 1)
    (h4 : ∀ l, n ≤ l → l < j → s.er.read l ≠ 1) : s.badErasure n = some j := by
  rw [State.badErasure, List.find?_eq_some_iff_append]
  refine ⟨by simpa using h3, List.range' n (j - n), List.range' (j + 1) (s.params.cwCap - (j + 1)), ?_, ?_⟩
  · rw [show s.params.cwCap - n = (j - n) + (1 + (s.params.cwCap - (j + 1))) by omega, ← List.range'_append_1,
      ← List.range'_append_1, show n + (j - n) = j by omega]
    rfl
  · intro a ha
    rw [List.mem_range'_1] at ha
    simpa using h4 a ha.1 (by omega)

theorem State.read_er_eq_zero_or_one (s : State) (j : Nat) : s.er.read j = 0 ∨ s.er.read j = 1 := by
  generalize s.er.read j = v
  revert v
  decide

@[simp] theorem State.codewords_length (s : State) (n : Nat) : (s.codewords n).length = n := by
  simp [State.codewords]

theorem State.codewords_getElem? (s : State) {n j : Nat} (h : j < n) :
    (s.codewords n)[j]? = some (s.cw.read j).toNat := by
  simp [State.codewords, Memory.readRange, h]

theorem peval_normalise (F : FieldTables) (p : CoeffList) (v : Nat) : peval F (normalise p) v = peval F p v := by
  induction p with
  | nil => rfl
  | cons c p ih =>
    have h0 : F.mul 0 v = 0 := by simp [FieldTables.mul]
    rw [normalise]
    split
    · rename_i hn
      rw [hn] at ih
      split
      · rename_i hc
        rw [peval, peval, ← ih, peval, h0, hc]
        simp [FieldTables.add]
      · rw [peval, peval.eq_2, ← ih]
    · rename_i d r hn
      rw [peval, ← hn, ih, ← peval]

/-- A syndrome by Horner's rule over the block, highest degree first (43_reed_solomon.md R151, R155). -/
theorem peval_blockPoly (F : FieldTables) (r : List Nat) (v : Nat) :
    peval F (blockPoly r) v = r.foldl (fun acc c => F.add (F.mul acc v) c) 0 := by
  rw [blockPoly, peval_normalise]
  induction r using List.reverseRecOn with
  | nil => rfl
  | append_singleton r c ih => rw [List.reverse_append, List.foldl_append, ← ih]; rfl

/-- All syndromes are zero (43_reed_solomon.md R155). -/
theorem isCodeBlock_iff (F : FieldTables) (b ec : Nat) (r : List Nat) :
    isCodeBlock F b ec r = true ↔
      ∀ j < ec, r.foldl (fun acc c => F.add (F.mul acc (F.gexp (b + j))) c) 0 = 0 := by
  simp [isCodeBlock, syndromes, peval_blockPoly]

end Sys2Proof.Machine
end

