-- ==== Sys2Proof/Laws/Step.lean ====
section
/-! SUPPORT. Everything one step can do (40_system_and_memory_commands.md R90). -/

namespace Sys2Proof.Machine

theorem step_of_command {s : State} {w : CmdWord} {i : Instr} (hf : s.fetch = .ok w) (hd : decode w = .ok i) :
    step s = exec i s := by
  simp only [step, hf, hd]

theorem step_of_illegal {s : State} {w : CmdWord} {e : Illegal} (hf : s.fetch = .ok w) (hd : decode w = .error e) :
    step s = s.raise .illegalCommand (opcodeByte w) := by
  simp only [step, hf, hd]

theorem step_of_quiescent {s : State} {f : Fault} (hf : s.fetch = .error f) : step s = .fault f := by
  simp only [step, hf]

/-- A step fetches a word at CP, and either raises one fault, or is a HALT, or completes a command. -/
theorem step_cases {s t : State} (h : step s = .next t) :
    ∃ w, s.runstate = .run ∧ s.prog[s.cp.toNat]? = some w ∧
      ((∃ f info, t = s.faultEntry f info) ∨
       (decode w = .ok .halt ∧ t = { s with runstate := .halted }) ∨
       (∃ i u, decode w = .ok i ∧ i ≠ .halt ∧ exec i s = .next t ∧ t = u.advance ∧ SameRun s u)) := by
  cases hf : s.fetch with
  | error f => simp [step_of_quiescent hf] at h
  | ok w =>
    obtain ⟨hr, hp⟩ := State.fetch_ok_iff.1 hf
    refine ⟨w, hr, hp, ?_⟩
    cases hd : decode w with
    | error e =>
      rw [step_of_illegal hf hd, State.raise_next_iff] at h
      exact .inl ⟨_, _, h.symm⟩
    | ok i =>
      rw [step_of_command hf hd] at h
      by_cases hi : i = .halt
      · subst hi
        cases h
        exact .inr (.inl ⟨rfl, rfl⟩)
      · rcases answers_exec hi s with ⟨f, info, e⟩ | ⟨u, e, hu⟩
        · rw [e, State.raise_next_iff] at h
          exact .inl ⟨f, info, h.symm⟩
        · have hu' := h
          rw [e, State.complete_next_iff] at h
          exact .inr (.inr ⟨i, u, rfl, hi, hu', h.symm, hu⟩)

/-- While the block is not quiescent the step has a next state (70_reset_and_hazards.md R252). -/
theorem step_total {s : State} {w : CmdWord} (hf : s.fetch = .ok w) : ∃ t, step s = .next t := by
  cases hd : decode w with
  | error e => exact ⟨_, step_of_illegal hf hd⟩
  | ok i =>
    rw [step_of_command hf hd]
    by_cases hi : i = .halt
    · subst hi
      exact ⟨_, rfl⟩
    · rcases answers_exec hi s with ⟨f, info, e⟩ | ⟨u, e, -⟩ <;> exact ⟨_, e⟩

end Sys2Proof.Machine
end

