-- ==== Sys2Proof/Machine/ReferenceTables.lean ====
section
/-! DEFINITION. The two reference mode tables of the spec, T_ASCII (44_mode_encoder.md R210) and T_AZ (R211, R212). They are
possible values of MT, not part of the block. -/

namespace Sys2Proof.Machine

/-- The n pairs with one-byte keys b, b+1, ... and codes c, c+1, .... -/
def oneByteKeys (b c n : Nat) : List (List Byte × Nat) :=
  (List.range n).map fun j => ([BitVec.ofNat 8 (b + j)], c + j)

/-- The two-byte keys of two decimal digits: d1 d2 has code 130 + 10·d1 + d2 (44_mode_encoder.md R210). -/
def digitPairs : List (List Byte × Nat) :=
  (List.range 100).map fun n => ([BitVec.ofNat 8 (0x30 + n / 10), BitVec.ofNat 8 (0x30 + n % 10)], 130 + n)

/-- T_ASCII (44_mode_encoder.md R210). -/
def rawAscii : RawTable where
  nm := 1
  dm := 0
  width := [8]
  sym := [oneByteKeys 0 1 128 ++ digitPairs]
  latch := []
  shift := []
  bsh := []
  ws := 5
  wl := 11

/-- SYM[0] of T_AZ, Upper (44_mode_encoder.md R212). -/
def symUpper : List (List Byte × Nat) := oneByteKeys 0x20 1 1 ++ oneByteKeys 0x41 2 26

/-- SYM[1] of T_AZ, Lower (44_mode_encoder.md R212). -/
def symLower : List (List Byte × Nat) := oneByteKeys 0x20 1 1 ++ oneByteKeys 0x61 2 26

/-- SYM[2] of T_AZ, Digit (44_mode_encoder.md R212). -/
def symDigit : List (List Byte × Nat) :=
  oneByteKeys 0x20 1 1 ++ oneByteKeys 0x30 2 10 ++ [([0x2C], 12), ([0x2E], 13)]

/-- SYM[3] of T_AZ, Mixed (44_mode_encoder.md R212). -/
def symMixed : List (List Byte × Nat) :=
  oneByteKeys 0x20 1 1 ++ oneByteKeys 1 2 13 ++ oneByteKeys 27 15 5 ++
    [([0x40], 20), ([0x5C], 21), ([0x5E], 22), ([0x5F], 23), ([0x60], 24), ([0x7C], 25), ([0x7E], 26), ([0x7F], 27)]

/-- SYM[4] of T_AZ, Punct (44_mode_encoder.md R212). -/
def symPunct : List (List Byte × Nat) :=
  [([0x0D], 1), ([0x0D, 0x0A], 2), ([0x2E, 0x20], 3), ([0x2C, 0x20], 4), ([0x3A, 0x20], 5)] ++
    oneByteKeys 0x21 6 15 ++ oneByteKeys 0x3A 21 6 ++ [([0x5B], 27), ([0x5D], 28), ([0x7B], 29), ([0x7D], 30)]

/-- T_AZ (44_mode_encoder.md R211). -/
def rawAz : RawTable where
  nm := 5
  dm := 0
  width := [5, 5, 4, 5, 5]
  sym := [symUpper, symLower, symDigit, symMixed, symPunct]
  latch :=
    [((0, 1), 28), ((0, 3), 29), ((0, 2), 30), ((1, 3), 29), ((1, 2), 30), ((2, 0), 14),
     ((3, 1), 28), ((3, 0), 29), ((3, 4), 30), ((4, 0), 31)]
  shift := [((0, 4), 0), ((1, 4), 0), ((1, 0), 28), ((2, 4), 0), ((2, 0), 15), ((3, 4), 0)]
  bsh := [(0, 31), (1, 31), (3, 31)]
  ws := 5
  wl := 11

/-- T_ASCII satisfies WF (44_mode_encoder.md R182, R210). -/
theorem rawAscii_wf : rawAscii.wf = true := by decide +kernel

/-- T_AZ satisfies WF (44_mode_encoder.md R182, R211). -/
theorem rawAz_wf : rawAz.wf = true := by decide +kernel

/-- T_ASCII as a mode table (44_mode_encoder.md R210). -/
def tableAscii : ModeTable := ⟨rawAscii, rawAscii_wf⟩

/-- T_AZ as a mode table (44_mode_encoder.md R211). -/
def tableAz : ModeTable := ⟨rawAz, rawAz_wf⟩

end Sys2Proof.Machine
end

