-- ==== Sys2Proof/Tests/Slice0.lean ====
section
/-! SUPPORT. Tests of single steps with expected results from the spec's examples and vectors, and a witness for the hypotheses
of every statement. -/

namespace Sys2Proof.Tests

open Sys2Proof.Machine

set_option Elab.async false

/-- A state with the listed registers written. -/
def withRegs (regs : List (Reg × Word)) (s : State := State.reset) : State :=
  regs.foldl (fun s p => s.setReg p.1 p.2) s

/-- The next state of an answer; State.reset for an answer that has none. -/
def after (r : Result) : State :=
  match r with
  | .next t => t
  | .fault _ | .refused _ => State.reset

/-- Bits from zeros and ones. -/
def bin (digits : List Nat) : List Bool := digits.map (· == 1)

/-- The state is FAULTED with this code and EINFO, CP = EPC = 0. -/
def faultedWith (t : State) (code : BitVec 8) (info : Word) : Bool :=
  t.runstate == .faulted && t.fcode == code && t.einfo == info && t.epc == 0 && t.cp == 0

/-- The state runs on, with CP advanced from 0. -/
def ranOn (t : State) : Bool := t.runstate == .run && t.cp == 1

/-- GF(8) with its tables of 96_test_vectors_commands.md V42, base 1. -/
def gf8 : State :=
  { State.reset with
    gfSize := 8, gfPoly := 0xB, gfBase := 1, gfValid := true, exp := [1, 2, 4, 3, 6, 7, 5], log := [0, 1, 3, 2, 6, 4, 5] }

/-- GF(5), generator 2, base 1; the powers of 2 modulo 5 are 1, 2, 4, 3. -/
def gf5 : State :=
  { State.reset with
    gfKind := 1, gfSize := 5, gfAlpha := 2, gfBase := 1, gfValid := true, exp := [1, 2, 4, 3], log := [0, 1, 3, 2] }

/-- GF(4), polynomial x^2 + x + 1, base 1; the powers of x are 1, x, x + 1. -/
def gf4 : State :=
  { State.reset with
    gfSize := 4, gfPoly := 7, gfBase := 1, gfValid := true, exp := [1, 2, 3], log := [0, 1, 2] }

/-- The state after a launch with the table T_AZ and these bytes in BUF. -/
def azState (bytes : List Byte) : State := State.launch Params.default (some tableAz) [] bytes []

/-! ## Well-formedness: each check refuses an ill-formed command -/

theorem test_wf_refuses_unassigned_csr : (Instr.csrr 1 0x003).wellFormed = false := by decide

theorem test_wf_refuses_write_of_read_only_csr : (Instr.csrw 0x015 1).wellFormed = false := by decide

theorem test_wf_refuses_write_of_unassigned_csr : (Instr.csrw 0x016 1).wellFormed = false := by decide

theorem test_wf_refuses_symbol_length_0 : (Instr.meSym .bs0 1 0).wellFormed = false := by decide

theorem test_wf_refuses_symbol_length_3 : (Instr.meSym .bs0 1 3).wellFormed = false := by decide

/-- A mode table with two equal codes in one mode breaks WF (44_mode_encoder.md R182). -/
theorem test_wf_refuses_equal_codes : ({ rawAz with bsh := [(0, 28)] } : RawTable).wf = false := by decide +kernel

/-! ## Decoding -/

/-- Source: 95_test_vectors.md V6. -/
theorem test_decode_system_and_memory :
    decode 0x0000000000000000 = .ok .nop ∧
    decode 0x0100000000000000 = .ok .halt ∧
    decode 0x0230000012345678 = .ok (.li 3 0x12345678) ∧
    decode 0x0320000000000015 = .ok (.csrr 2 0x015) ∧
    decode 0x0409000000000012 = .ok (.csrw 0x012 9) ∧
    decode 0x0845000000000010 = .ok (.ldb 4 16 5) ∧
    decode 0x0907600000000000 = .ok (.stb 6 0 7) ∧
    decode 0x0A89000000000003 = .ok (.ldc 8 3 9) ∧
    decode 0x0B0BA000000000FF = .ok (.stc 10 255 11) := by
  decide

/-- Source: 95_test_vectors.md V6. -/
theorem test_decode_bitstream :
    decode 0x1000000100000000 = .ok (.bsClr .bs1) ∧
    decode 0x1101000000000000 = .ok (.bsAppendbit .bs0 1) ∧
    decode 0x1202300100000000 = .ok (.bsAppend .bs1 2 3) ∧
    decode 0x1340000100000000 = .ok (.bsSize 4 .bs1) ∧
    decode 0x1456000000000000 = .ok (.bsGet 5 .bs0 6) ∧
    decode 0x1512340100000000 = .ok (.bsIsrange 1 .bs1 2 3 4) ∧
    decode 0x1601230000000000 = .ok (.bsTobytes .bs0 1 2 3) ∧
    decode 0x1700000100000000 = .ok (.bsReverse .bs1) ∧
    decode 0x1801200200000000 = .ok (.bsCopy .bs0 .bs1 1 2) ∧
    decode 0x1900000100000000 = .ok (.bsClone .bs1 .bs0) ∧
    decode 0x1A00000000000000 = .ok (.bsTerm .bs0) := by
  decide

/-- Source: 95_test_vectors.md V6. -/
theorem test_decode_galois_field :
    decode 0x2000000000000000 = .ok .gfBuild ∧
    decode 0x2112300000000000 = .ok (.gfAdd 1 2 3) ∧
    decode 0x2245600000000000 = .ok (.gfSub 4 5 6) ∧
    decode 0x2378900000000000 = .ok (.gfMul 7 8 9) ∧
    decode 0x24ABC00000000000 = .ok (.gfDiv 10 11 12) ∧
    decode 0x25DE000000000000 = .ok (.gfInv 13 14) ∧
    decode 0x26F1000000000000 = .ok (.gfExp 15 1) ∧
    decode 0x2723000000000000 = .ok (.gfLog 2 3) := by
  decide

/-- Source: 95_test_vectors.md V6. -/
theorem test_decode_reed_solomon :
    decode 0x3001200000000000 = .ok (.rsEnc 1 2) ∧
    decode 0x3131200000000000 = .ok (.rsChk 3 1 2) ∧
    decode 0x3251200000000000 = .ok (.rsDec 5 1 2) ∧
    decode 0x3304000000000000 = .ok (.rsErase 4) ∧
    decode 0x3400000000000000 = .ok .rsErclr := by
  decide

/-- Source: 95_test_vectors.md V6. -/
theorem test_decode_mode_encoder :
    decode 0x4000000000000000 = .ok .meInit ∧
    decode 0x4100000000000002 = .ok (.meLatch .bs0 2) ∧
    decode 0x4200000100000004 = .ok (.meShift .bs1 4) ∧
    decode 0x4300000100000000 = .ok (.meUnlatch .bs1) ∧
    decode 0x4401000000000001 = .ok (.meSym .bs0 1 1) ∧
    decode 0x4501200100000000 = .ok (.meBshift .bs1 1 2) ∧
    decode 0x4641230000000000 = .ok (.meEncode 4 .bs0 1 2 3) := by
  decide

/-- Source: 95_test_vectors.md V8; which condition of R66 holds. -/
theorem test_illegal_words_by_fields :
    decode 0x0500000000000000 = .error .reservedOpcode ∧
    decode 0x0C00000000000000 = .error .reservedOpcode ∧
    decode 0x1B00000000000000 = .error .reservedOpcode ∧
    decode 0x2800000000000000 = .error .reservedOpcode ∧
    decode 0x3500000000000000 = .error .reservedOpcode ∧
    decode 0x4700000000000000 = .error .reservedOpcode ∧
    decode 0xFF00000000000000 = .error .reservedOpcode ∧
    decode 0x0000000000000001 = .error .unusedField ∧
    decode 0x0010000000000000 = .error .unusedField ∧
    decode 0x0100000100000000 = .error .unusedField ∧
    decode 0x0211000000000005 = .error .unusedField ∧
    decode 0x0210000400000005 = .error .reservedBits ∧
    decode 0x1000000200000000 = .error .unusedField ∧
    decode 0x1000000000000007 = .error .unusedField ∧
    decode 0x1201230000000000 = .error .unusedField ∧
    decode 0x1900008000000000 = .error .reservedBits ∧
    decode 0x2000000000000001 = .error .unusedField ∧
    decode 0x3001200100000000 = .error .unusedField ∧
    decode 0x3051200000000000 = .error .unusedField := by
  decide

/-- Source: 95_test_vectors.md V8; which condition of R66 holds. -/
theorem test_illegal_words_by_immediate :
    decode 0x0310000000000003 = .error .csrAccess ∧
    decode 0x0310000000001000 = .error .immediateRange ∧
    decode 0x0401000000000000 = .error .csrAccess ∧
    decode 0x0401000000000015 = .error .csrAccess ∧
    decode 0x0401000000000020 = .error .csrAccess ∧
    decode 0x0401000000000016 = .error .csrAccess ∧
    decode 0x4100000000000100 = .error .immediateRange ∧
    decode 0x4200000000000100 = .error .immediateRange ∧
    decode 0x4401000000000000 = .error .immediateRange ∧
    decode 0x4401000000000003 = .error .immediateRange := by
  decide

/-! ## The step -/

/-- Source: 40_system_and_memory_commands.md R82, R90. -/
theorem test_step_runs_fetched_word :
    (after (step (State.reset.withFetchWord 64 0x0210000000000005))).reg 1 = 5 := by decide +kernel

/-- Source: 95_test_vectors.md V9. -/
theorem test_step_illegal_word :
    faultedWith (after (step (State.reset.withFetchWord 64 0x1201230000000000))) 1 18 = true := by decide +kernel

/-! ## System commands, loads and stores -/

/-- Source: 40_system_and_memory_commands.md R80, at CP = 3. -/
theorem test_nop : after (execNop { State.reset with cp := 3 }) = { State.reset with cp := 4 } := by decide +kernel

/-- Source: 40_system_and_memory_commands.md R81. -/
theorem test_halt :
    (after (execHalt { State.reset with cp := 1 })).runstate = .halted ∧
      (after (execHalt { State.reset with cp := 1 })).cp = 1 := by decide +kernel

/-- Source: 40_system_and_memory_commands.md R82. -/
theorem test_li : (after (execLi 3 0xFFFFFFFF State.reset)).reg 3 = 4294967295 := by decide +kernel

/-- Source: 44_mode_encoder.md R187, ME_SHIFT = 0x104. -/
theorem test_csrr_me_shift :
    (after (execCsrr 2 0x021 { State.reset with shv := true, shm := 4 })).reg 2 = 0x104 := by decide +kernel

/-- Source: 10_state.md R16, R17. -/
theorem test_csrr_status_reads_zero : (after (execCsrr 2 0x000 (withRegs [(2, 9)]))).reg 2 = 0 := by decide +kernel

/-- Source: 40_system_and_memory_commands.md R84. -/
theorem test_csrw :
    (after (execCsrw 0x012 1 (withRegs [(1, 0x12D)] gf8))).gfPoly = 301 ∧
      (after (execCsrw 0x012 1 (withRegs [(1, 0x12D)] gf8))).gfValid = false := by decide +kernel

/-- Source: 40_system_and_memory_commands.md R85. -/
theorem test_ldb : (after (execLdb 4 2 1 { State.reset with buf := [(2, 0x8E)] })).reg 4 = 142 := by decide +kernel

/-- Source: 40_system_and_memory_commands.md R85: the index 2^32 is not index 0. -/
theorem test_ldb_index_does_not_wrap :
    faultedWith (after (execLdb 4 1 1 (withRegs [(1, 0xFFFFFFFF)]))) 2 0 = true := by decide +kernel

/-- Source: 40_system_and_memory_commands.md R86. -/
theorem test_stb : (after (execStb 2 0 1 (withRegs [(2, 65), (1, 10)]))).buf = [(10, 65)] := by decide +kernel

/-- Source: 40_system_and_memory_commands.md R86: a value that does not fit is rejected. -/
theorem test_stb_value_too_wide :
    faultedWith (after (execStb 2 0 1 (withRegs [(2, 256)]))) 2 256 = true := by decide +kernel

/-- Source: 40_system_and_memory_commands.md R87. -/
theorem test_ldc : (after (execLdc 5 3 0 { State.reset with cw := [(3, 114)] })).reg 5 = 114 := by decide +kernel

/-- Source: 40_system_and_memory_commands.md R88. -/
theorem test_stc : (after (execStc 6 3 0 (withRegs [(6, 928)]))).cw = [(3, 928)] := by decide +kernel

/-- Source: 40_system_and_memory_commands.md R88: the index check comes before the value check. -/
theorem test_stc_index_check_first :
    faultedWith (after (execStc 6 4096 0 (withRegs [(6, 65536)]))) 2 4096 = true := by decide +kernel

/-! ## BitStream unit -/

/-- Source: 41_bitstream.md R101. -/
theorem test_bs_clr :
    (after (execBsClr .bs0 { State.reset with bs0 := bin [1, 0, 1], bs1 := bin [1] })).bs0 = [] ∧
      (after (execBsClr .bs0 { State.reset with bs0 := bin [1, 0, 1], bs1 := bin [1] })).bs1 = bin [1] := by
  decide +kernel

/-- Source: 41_bitstream.md R102, with x[rs1] = 2. -/
theorem test_bs_appendbit :
    (after (execBsAppendbit .bs0 1 (withRegs [(1, 2)] { State.reset with bs0 := bin [1, 0] }))).bs0 = bin [1, 0, 1] := by
  decide +kernel

/-- Source: 41_bitstream.md R103. -/
theorem test_bs_append :
    (after (execBsAppend .bs0 1 2 (withRegs [(1, 5), (2, 4)]))).bs0 = bin [0, 1, 0, 1] := by decide +kernel

/-- Source: 41_bitstream.md R103: n = 0 with a value other than 0. -/
theorem test_bs_append_value_too_wide :
    faultedWith (after (execBsAppend .bs0 1 2 (withRegs [(1, 1), (2, 0)]))) 3 0 = true := by decide +kernel

/-- Source: 41_bitstream.md R104. -/
theorem test_bs_size : (after (execBsSize 3 .bs0 { State.reset with bs0 := bin [0, 1, 0, 1] })).reg 3 = 4 := by
  decide +kernel

/-- Source: 41_bitstream.md R105. -/
theorem test_bs_get :
    (after (execBsGet 2 .bs0 1 (withRegs [(1, 3)] { State.reset with bs0 := bin [0, 1, 0, 1] }))).reg 2 = 1 := by
  decide +kernel

/-- Source: 41_bitstream.md R106, the ranges (1, 4, 1) and (0, 4, 1). -/
theorem test_bs_isrange :
    (after (execBsIsrange 4 .bs0 1 2 3
      (withRegs [(1, 1), (2, 4), (3, 1)] { State.reset with bs0 := bin [0, 1, 1, 1, 0] }))).reg 4 = 1 ∧
    (after (execBsIsrange 4 .bs0 1 2 3
      (withRegs [(1, 0), (2, 4), (3, 1)] { State.reset with bs0 := bin [0, 1, 1, 1, 0] }))).reg 4 = 0 := by
  decide +kernel

/-- Source: 41_bitstream.md R106, the range (2, 6, 1). -/
theorem test_bs_isrange_past_end :
    faultedWith (after (execBsIsrange 4 .bs0 1 2 3
      (withRegs [(1, 2), (2, 6), (3, 1)] { State.reset with bs0 := bin [0, 1, 1, 1, 0] }))) 2 6 = true := by
  decide +kernel

/-- Source: 41_bitstream.md R107, o = 0, nb = 2. -/
theorem test_bs_tobytes :
    (after (execBsTobytes .bs0 1 2 3
      (withRegs [(3, 2)] { State.reset with bs0 := bin [1, 0, 1, 0, 0, 1, 0, 1, 1, 1] }))).buf =
      [(0, 0xA5), (1, 0xC0)] := by decide +kernel

/-- Source: 41_bitstream.md R107, o = 4, nb = 1. -/
theorem test_bs_tobytes_offset :
    (after (execBsTobytes .bs0 1 2 3
      (withRegs [(1, 4), (3, 1)] { State.reset with bs0 := bin [1, 0, 1, 0, 0, 1, 0, 1, 1, 1] }))).buf =
      [(0, 0x5C)] := by decide +kernel

/-- Source: 41_bitstream.md R108. -/
theorem test_bs_reverse :
    (after (execBsReverse .bs0 { State.reset with bs0 := bin [1, 1, 0, 1, 0] })).bs0 = bin [0, 1, 0, 1, 1] := by
  decide +kernel

/-- Source: 41_bitstream.md R109. -/
theorem test_bs_copy :
    (after (execBsCopy .bs1 .bs0 1 2
      (withRegs [(1, 1), (2, 3)] { State.reset with bs0 := bin [1, 0, 1, 1, 0], bs1 := bin [0] }))).bs1 =
      bin [0, 0, 1, 1] := by decide +kernel

/-- Source: 41_bitstream.md R110. -/
theorem test_bs_clone :
    (after (execBsClone .bs0 .bs1 { State.reset with bs0 := bin [0], bs1 := bin [1, 1, 0] })).bs0 = bin [1, 1, 0] := by
  decide +kernel

/-- Source: 41_bitstream.md R111. -/
theorem test_bs_term :
    (after (execBsTerm .bs0 { State.reset with bs0 := bin [1, 0, 1, 0, 0, 1, 0, 1, 1, 1] })).bs0 =
      bin [1, 0, 1, 0, 0, 1, 0, 1, 1, 1, 0, 0, 0, 0, 0, 0] := by decide +kernel

/-! ## Galois-field unit -/

/-- Source: 96_test_vectors_commands.md V42. -/
theorem test_gf_build :
    after (execGfBuild { gf8 with gfValid := false, exp := [], log := [] }) = { gf8 with cp := 1 } := by decide +kernel

/-- Source: 42_galois_field.md R122, R124; x^2 + 1 is no primitive polynomial. -/
theorem test_gf_build_order :
    faultedWith (after (execGfBuild { gf4 with gfPoly := 5, gfValid := false })) 10 4 = true := by decide +kernel

/-- Source: 42_galois_field.md R131, GF(256) and GF(929). -/
theorem test_gf_add :
    (after (execGfAdd 3 1 2 (withRegs [(1, 142), (2, 164)] { gf8 with gfSize := 256 }))).reg 3 = 42 ∧
    (after (execGfAdd 3 1 2 (withRegs [(1, 900), (2, 100)] { gf5 with gfSize := 929 }))).reg 3 = 71 := by
  decide +kernel

/-- Source: 42_galois_field.md R132, GF(929) and GF(256). -/
theorem test_gf_sub :
    (after (execGfSub 3 1 2 (withRegs [(1, 100), (2, 900)] { gf5 with gfSize := 929 }))).reg 3 = 129 ∧
    (after (execGfSub 3 1 2 (withRegs [(1, 142), (2, 164)] { gf8 with gfSize := 256 }))).reg 3 = 42 := by
  decide +kernel

/-- Source: 96_test_vectors_commands.md V42, row 3, columns 7 and 0. -/
theorem test_gf_mul :
    (after (execGfMul 3 1 2 (withRegs [(1, 3), (2, 7)] gf8))).reg 3 = 2 ∧
    (after (execGfMul 3 1 2 (withRegs [(1, 3), (3, 9)] gf8))).reg 3 = 0 := by decide +kernel

/-- Source: 42_galois_field.md R130, the first operand at q. -/
theorem test_gf_mul_operand_out_of_field :
    faultedWith (after (execGfMul 3 1 2 (withRegs [(1, 8), (2, 9)] gf8))) 2 8 = true := by decide +kernel

/-- Source: 96_test_vectors_commands.md V42: 7 ⊗ 6 = 4. -/
theorem test_gf_div : (after (execGfDiv 3 1 2 (withRegs [(1, 4), (2, 7)] gf8))).reg 3 = 6 := by decide +kernel

/-- Source: 42_galois_field.md R134. -/
theorem test_gf_div_by_zero : faultedWith (after (execGfDiv 3 1 2 gf8)) 11 0 = true := by decide +kernel

/-- Source: 96_test_vectors_commands.md V42, inv(3) = 6. -/
theorem test_gf_inv : (after (execGfInv 3 1 (withRegs [(1, 3)] gf8))).reg 3 = 6 := by decide +kernel

/-- Source: 42_galois_field.md R136: exponents reduce modulo q - 1. -/
theorem test_gf_exp :
    (after (execGfExp 3 1 (withRegs [(1, 8)] gf8))).reg 3 = 2 ∧
    (after (execGfExp 3 1 (withRegs [(1, 7)] gf8))).reg 3 = 1 := by decide +kernel

/-- Source: 96_test_vectors_commands.md V42, LOG[5] = 6. -/
theorem test_gf_log : (after (execGfLog 3 1 (withRegs [(1, 5)] gf8))).reg 3 = 6 := by decide +kernel

/-! ## Reed-Solomon unit -/

/-- Over GF(5) with b = 1, ec = 2 the generator is (x - 2)(x - 4) = x^2 + 4x + 3, so data 1 has remainder x + 2 and parity
4, 3 (43_reed_solomon.md R152, R153, by hand). -/
theorem test_rs_enc :
    (after (execRsEnc 1 2 (withRegs [(1, 1), (2, 2)] { gf5 with cw := [(0, 1)] }))).cw = [(0, 1), (1, 4), (2, 3)] := by
  decide +kernel

/-- The block of `test_rs_enc` and the block damaged (43_reed_solomon.md R156). -/
theorem test_rs_chk :
    (after (execRsChk 3 1 2 (withRegs [(1, 3), (2, 2)] { gf5 with cw := [(0, 1), (1, 4), (2, 3)] }))).reg 3 = 1 ∧
    (after (execRsChk 3 1 2 (withRegs [(1, 3), (2, 2), (3, 7)] { gf5 with cw := [(0, 2), (1, 4), (2, 3)] }))).reg 3 = 0 := by
  decide +kernel

/-- One error within the budget is corrected (43_reed_solomon.md R172). -/
theorem test_rs_dec :
    (after (execRsDec 3 1 2 (withRegs [(1, 3), (2, 2), (3, 7)] { gf5 with cw := [(0, 2), (1, 4), (2, 3)] }))).cw =
      [(0, 1), (1, 4), (2, 3)] ∧
    (after (execRsDec 3 1 2 (withRegs [(1, 3), (2, 2), (3, 7)] { gf5 with cw := [(0, 2), (1, 4), (2, 3)] }))).reg 3 = 0 := by
  decide +kernel

/-- Three marks are more than ec = 2: ChecksumException, CW unchanged (43_reed_solomon.md R161, R171). -/
theorem test_rs_dec_refused :
    after (execRsDec 3 1 2
      (withRegs [(1, 3), (2, 2)] { gf5 with cw := [(0, 2), (1, 4), (2, 3)], er := [(0, 1), (1, 1), (2, 1)] })) =
    withRegs [(1, 3), (2, 2), (3, 1)]
      { gf5 with cw := [(0, 2), (1, 4), (2, 3)], er := [(0, 1), (1, 1), (2, 1)], cp := 1 } := by
  decide +kernel

/-- Source: 43_reed_solomon.md R157. -/
theorem test_rs_erase : (after (execRsErase 1 (withRegs [(1, 6)]))).er = [(6, 1)] := by decide +kernel

/-- Source: 43_reed_solomon.md R158. -/
theorem test_rs_erclr : (after (execRsErclr { State.reset with er := [(6, 1)] })).er.read 6 = 0 := by decide +kernel

/-! ## Mode-encoder unit, table T_AZ -/

/-- Source: 44_mode_encoder.md R185. -/
theorem test_me_init :
    after (execMeInit { azState [] with meMode := 2, shv := true, shm := 4 }) = { azState [] with cp := 1 } := by
  decide +kernel

/-- Source: 92_eei_decisions.md D23, MT absent. -/
theorem test_me_init_without_table :
    after (execMeInit { State.reset with shv := true, shm := 4 }) = { State.reset with cp := 1 } := by decide +kernel

/-- Source: 44_mode_encoder.md R186. -/
theorem test_me_latch :
    (after (execMeLatch .bs0 1 (azState []))).bs0 = bin [1, 1, 1, 0, 0] ∧
      (after (execMeLatch .bs0 1 (azState []))).meMode = 1 := by decide +kernel

/-- Source: 44_mode_encoder.md R186: a latch to the current mode. -/
theorem test_me_latch_same_mode : faultedWith (after (execMeLatch .bs0 0 (azState []))) 12 2 = true := by decide +kernel

/-- Source: 44_mode_encoder.md R187. -/
theorem test_me_shift :
    after (execMeShift .bs0 4 (azState [])) =
      { azState [] with bs0 := bin [0, 0, 0, 0, 0], shv := true, shm := 4, cp := 1 } := by decide +kernel

/-- Source: 44_mode_encoder.md R188. -/
theorem test_me_unlatch :
    after (execMeUnlatch .bs0 { azState [] with meMode := 2 }) =
      { azState [] with bs0 := bin [1, 1, 1, 0], meMode := 0, cp := 1 } := by decide +kernel

/-- Source: 92_eei_decisions.md D25 and D24, ME_MODE is already DM. -/
theorem test_me_unlatch_in_default_mode :
    after (execMeUnlatch .bs0 (azState [])) = { azState [] with cp := 1 } ∧
    faultedWith (after (execMeUnlatch .bs0 { azState [] with shv := true, shm := 4 })) 12 1 = true := by
  decide +kernel

/-- Source: 44_mode_encoder.md R213, the pair ". " under a pending shift to Punct. -/
theorem test_me_sym :
    after (execMeSym .bs0 1 2 { azState [0x2E, 0x20] with shv := true, shm := 4 }) =
      { azState [0x2E, 0x20] with bs0 := bin [0, 0, 0, 1, 1], cp := 1 } := by decide +kernel

/-- Source: 44_mode_encoder.md R189: a pair is looked up as a pair only. -/
theorem test_me_sym_unencodable :
    faultedWith (after (execMeSym .bs0 1 2 (azState [0x41, 0x42]))) 8 0 = true := by decide +kernel

/-- Source: 44_mode_encoder.md R190. -/
theorem test_me_bshift :
    (after (execMeBshift .bs0 1 2
      (withRegs [(1, 5), (2, 1)] { azState [0, 0, 0, 0, 0, 0xE9] with meMode := 1 }))).bs0 =
      bin [1, 1, 1, 1, 1, 0, 0, 0, 0, 1, 1, 1, 1, 0, 1, 0, 0, 1] := by decide +kernel

/-- Source: 44_mode_encoder.md R190: a run of length 0. -/
theorem test_me_bshift_empty_run : faultedWith (after (execMeBshift .bs0 1 2 (azState []))) 2 0 = true := by
  decide +kernel

/-- Source: 44_mode_encoder.md R213: "A" CR LF "B" takes 20 bits, Sym A, ShiftSym(4, CR LF), Sym B. -/
theorem test_me_encode :
    after (execMeEncode 4 .bs0 1 2 3 (withRegs [(2, 4), (3, 20)] (azState [0x41, 0x0D, 0x0A, 0x42]))) =
      withRegs [(2, 4), (3, 20), (4, 20)]
        { azState [0x41, 0x0D, 0x0A, 0x42] with
          bs0 := bin [0, 0, 0, 1, 0, 0, 0, 0, 0, 0, 0, 0, 0, 1, 0, 0, 0, 0, 1, 1], cp := 1 } := by
  decide +kernel

/-- Source: 44_mode_encoder.md R195: the limit is one bit short. -/
theorem test_me_encode_limit :
    faultedWith (after (execMeEncode 4 .bs0 1 2 3
      (withRegs [(2, 4), (3, 19)] (azState [0x41, 0x0D, 0x0A, 0x42])))) 9 20 = true := by
  decide +kernel

/-! ## Witnesses: a concrete case that meets the hypotheses of each statement -/

/-- The answer is a next state. -/
def isNext (r : Result) : Bool :=
  match r with
  | .next _ => true
  | .fault _ | .refused _ => false

theorem next_after {r : Result} (h : isNext r = true) : r = .next (after r) := by
  cases r <;> first | rfl | cases h

/-- The invariant of a running state as a computation. -/
def invCheck (s : State) : Bool :=
  s.buf.wf s.params.bufCap && s.cw.wf s.params.cwCap && s.er.wf s.params.cwCap &&
  decide (s.bs0.length ≤ s.params.bsCap) && decide (s.bs1.length ≤ s.params.bsCap) &&
  decide (s.prog.length < 2 ^ 32) && decide (s.cp.toNat ≤ s.prog.length) &&
  s.runstate == .run && s.fcode == 0 && s.epc == 0 && s.einfo == 0 &&
  (!s.gfValid || decide (s.buildResult = .ok (s.exp, s.log))) &&
  (s.shv || s.shm == 0) &&
  match s.mt with
  | none => s.meMode == 0 && !s.shv
  | some t => decide (s.mode < t.raw.nm) && (!s.shv || decide (s.shm.toNat < t.raw.nm))

theorem inv_of_check {s : State} (h : invCheck s = true) : s.Inv := by
  simp only [invCheck, Bool.and_eq_true, decide_eq_true_eq, beq_iff_eq, Bool.or_eq_true, Bool.not_eq_true'] at h
  obtain ⟨⟨⟨⟨⟨⟨⟨⟨⟨⟨⟨⟨⟨h1, h2⟩, h3⟩, h4⟩, h5⟩, h6⟩, h7⟩, h8⟩, h9⟩, h10⟩, h11⟩, h12⟩, h13⟩, h14⟩ := h
  refine ⟨⟨h1, h2, h3⟩, ⟨h4, h5⟩, ⟨h6, h7⟩, ⟨fun _ => ⟨h9, h10, h11⟩, fun e => ?_⟩, fun hv => ?_, fun hs => ?_, ?_⟩
  · rw [h8] at e
    cases e
  · simpa [hv] using h12
  · simpa [hs] using h13
  · cases hm : s.mt with
    | none => simpa [hm] using h14
    | some t =>
      simp only [hm, Bool.and_eq_true, decide_eq_true_eq, Bool.or_eq_true, Bool.not_eq_true'] at h14
      exact ⟨h14.1, fun hv => by simpa [hv] using h14.2⟩

/-- The least parameters 00_scope.md R5 allows, but for a BUF of 16 bytes. -/
def tiny : Params := ⟨8, 16, 4, 4, by decide⟩

/-- A one-command program. -/
def prog1 (w : CmdWord) : State := State.reset.withFetchWord 64 w.toNat

/-- GF(4), b = 1, with the block 1, 1, 1 of n = 3, ec = 2 (its generator is x^2 + x + 1), one codeword replaced by v, and
the counts in X1 and X2. -/
def gf4Block (v : BitVec 16) : State := withRegs [(1, 3), (2, 2), (3, 9)] { gf4 with cw := [(0, v), (1, 1), (2, 1)] }

theorem witness_DecodeInvertsEncode :
    (Instr.csrw 0x014 15).wellFormed = true ∧ (Instr.csrr 15 0x021).wellFormed = true ∧
      (Instr.meSym .bs1 15 2).wellFormed = true ∧ (Instr.meSym .bs1 15 1).wellFormed = true := by decide

theorem witness_WordIsOneCommandOrIllegal :
    (Instr.li 1 5).wellFormed = true ∧ encode (.li 1 5) = 0x0210000000000005 ∧ IsIllegal 0x0500000000000000 :=
  ⟨rfl, by decide, .reservedOpcode, by decide⟩

theorem witness_IllegalWordsRaiseIllegalCommand :
    IsIllegal 0x0500000000000000 ∧ (prog1 0x0500000000000000).runstate = .run ∧
      (prog1 0x0500000000000000).prog[(prog1 0x0500000000000000).cp.toNat]? = some 0x0500000000000000 :=
  ⟨⟨.reservedOpcode, by decide⟩, rfl, by decide +kernel⟩

/-- The clauses of R66 at the ends of their ranges. -/
theorem witness_IllegalWordsClauses :
    decode 0x0310000000000021 = .ok (.csrr 1 0x021) ∧ decode 0x0310000000000FFF = .error .csrAccess ∧
    decode 0x0310000000001000 = .error .immediateRange ∧ decode 0x0401000000000010 = .ok (.csrw 0x010 1) ∧
    decode 0x0401000000000014 = .ok (.csrw 0x014 1) ∧ decode 0x0401000000001000 = .error .immediateRange ∧
    decode 0x41000000000000FF = .ok (.meLatch .bs0 255) ∧ decode 0x4100000000000100 = .error .immediateRange ∧
    decode 0x42000000000000FF = .ok (.meShift .bs0 255) ∧ decode 0x4200000000000100 = .error .immediateRange ∧
    decode 0x4401000000000002 = .ok (.meSym .bs0 1 2) := by decide

theorem witness_StepRunsDecodedCommand :
    (prog1 0x0210000000000005).runstate = .run ∧
      (prog1 0x0210000000000005).prog[(prog1 0x0210000000000005).cp.toNat]? = some 0x0210000000000005 ∧
      decode 0x0210000000000005 = .ok (.li 1 5) := ⟨rfl, by decide +kernel, by decide⟩

theorem witness_CpAdvancesUnlessHaltOrFault : State.reset.runstate = .run := rfl

theorem witness_QuiescenceEndsEveryRun :
    ((prog1 0).runstate = .run ∧ (prog1 0).cp.toNat < (prog1 0).prog.length) ∧
    (State.reset.runstate = .run ∧ State.reset.prog.length ≤ State.reset.cp.toNat) ∧
    (prog1 0x0100000000000000).cpInv ∧
    step (prog1 0x0100000000000000) = .next (after (step (prog1 0x0100000000000000))) ∧
    (after (step (prog1 0x0100000000000000))).runstate = .halted ∧
    step (prog1 1) = .next (after (step (prog1 1))) ∧ (after (step (prog1 1))).runstate = .faulted := by
  refine ⟨⟨rfl, by decide +kernel⟩, ⟨rfl, by decide +kernel⟩, ⟨by decide +kernel, by decide +kernel⟩,
    next_after ?_, ?_, next_after ?_, ?_⟩ <;> decide +kernel

theorem witness_FaultEntryIsPrecise :
    step (prog1 1) = .next (after (step (prog1 1))) ∧ (after (step (prog1 1))).runstate = .faulted :=
  ⟨next_after (by decide +kernel), by decide +kernel⟩

theorem witness_FaultCodesComeFromListedCommands :
    (Instr.ldb 4 4096 0).wellFormed = true ∧ State.reset.streamInv ∧ State.reset.runstate = .run ∧
      exec (.ldb 4 4096 0) State.reset = .next (after (exec (.ldb 4 4096 0) State.reset)) ∧
      (after (exec (.ldb 4 4096 0) State.reset)).runstate = .faulted :=
  ⟨rfl, ⟨Nat.zero_le _, Nat.zero_le _⟩, rfl, next_after (by decide +kernel), by decide +kernel⟩

theorem witness_LaunchLoadsBuffers :
    ([0] : List CmdWord).length < 2 ^ 32 ∧ ([7] : List Byte).length ≤ Params.default.bufCap ∧
      ([9] : List (BitVec 16)).length ≤ Params.default.cwCap := by decide

theorem witness_ResetMeetsInvariant : ([] : List CmdWord).length < 2 ^ 32 := by decide

theorem witness_StepKeepsInvariant :
    (prog1 0).Inv ∧ step (prog1 0) = .next (after (step (prog1 0))) :=
  ⟨inv_of_check (by decide +kernel), next_after (by decide +kernel)⟩

theorem witness_RunInputsNeverChange : step (prog1 0) = .next (after (step (prog1 0))) := next_after (by decide +kernel)

theorem witness_StatusRegistersReadZeroWhileRunning :
    exec .nop State.reset = .next (after (exec .nop State.reset)) ∧
      (after (exec .nop State.reset)).runstate ≠ .faulted ∧ State.reset.Inv ∧ State.reset.runstate = .run ∧
      (2 : BitVec 12).toNat ≤ 2 :=
  ⟨rfl, by decide +kernel, inv_of_check (by decide +kernel), rfl, by decide⟩

theorem witness_OnlyBuildValidatesField :
    (0x010 ≤ (0x010 : BitVec 12).toNat ∧ (0x010 : BitVec 12).toNat ≤ 0x014) ∧
    (0x010 ≤ (0x014 : BitVec 12).toNat ∧ (0x014 : BitVec 12).toNat ≤ 0x014) ∧
    exec .gfBuild { gf4 with gfValid := false } = .next (after (exec .gfBuild { gf4 with gfValid := false })) ∧
    (after (exec .gfBuild { gf4 with gfValid := false })).gfValid = true ∧ ∀ n r, Instr.gfBuild ≠ .csrw n r :=
  ⟨by decide, by decide, next_after (by decide +kernel), by decide +kernel, fun _ _ h => by cases h⟩

theorem witness_TablesUnreadableUntilBuilt :
    State.reset.gfValid = false ∧ exec .nop State.reset = .next (after (exec .nop State.reset)) ∧
      Instr.nop ≠ .gfBuild := ⟨rfl, rfl, by decide⟩

theorem witness_SpacesWrittenOnlyByTheirCommands :
    exec (.bsClr .bs0) State.reset = .next (after (exec (.bsClr .bs0) State.reset)) ∧
      writesStream (.bsClr .bs0) ≠ some .bs1 ∧ writesReg (.bsClr .bs0) ≠ some 0 ∧
      isModeCommand (.bsClr .bs0) = false ∧ (∀ r2 imm r1, Instr.bsClr .bs0 ≠ .stb r2 imm r1) ∧
      (∀ r2 imm r1, Instr.bsClr .bs0 ≠ .stc r2 imm r1) ∧ (∀ r, Instr.bsClr .bs0 ≠ .rsErase r) :=
  ⟨rfl, by decide, by decide, rfl, by simp, by simp, by simp⟩

theorem witness_EffectIndependentOfPlaceInProgram :
    State.reset.runstate = .run ∧ exec .nop State.reset = .next (after (exec .nop State.reset)) := ⟨rfl, rfl⟩

theorem witness_SystemWords :
    (opByte 0x0000000000000001 = 0x00 ∧ (0x0000000000000001 : CmdWord) ≠ 0) ∧
    (opByte 0x0100000000000001 = 0x01 ∧ (0x0100000000000001 : CmdWord) ≠ 0x0100000000000000) ∧
    opByte 0x0210000000000005 = 0x02 ∧
    (opByte 0x0310000000001000 = 0x03 ∧ 2 ^ 12 ≤ immField 0x0310000000001000) ∧
    (opByte 0x0401000000000015 = 0x04 ∧
      immField 0x0401000000000015 ∉ [0x010, 0x011, 0x012, 0x013, 0x014]) ∧
    step (prog1 0) = .next (after (step (prog1 0))) :=
  ⟨by decide, by decide, by decide, by decide, by decide, next_after (by decide +kernel)⟩

/-- LDB, LDC, STB, STC at the last index of a space and one past it. -/
theorem witness_LoadsAndStoresAtTheEdge :
    State.reset.memoryInv ∧ ranOn (after (execLdb 4 4095 0 State.reset)) = true ∧
      faultedWith (after (execLdb 4 4096 0 State.reset)) 2 4096 = true ∧
      ranOn (after (execLdc 4 4095 0 State.reset)) = true ∧
      faultedWith (after (execLdc 4 4096 0 State.reset)) 2 4096 = true ∧
      ranOn (after (execStb 1 4095 0 (withRegs [(1, 255)]))) = true ∧
      faultedWith (after (execStb 1 4096 0 (withRegs [(1, 255)]))) 2 4096 = true ∧
      ranOn (after (execStc 1 4095 0 (withRegs [(1, 65535)]))) = true ∧
      faultedWith (after (execStc 1 0 0 (withRegs [(1, 65536)]))) 2 65536 = true := by
  refine ⟨⟨rfl, rfl, rfl⟩, ?_, ?_, ?_, ?_, ?_, ?_, ?_, ?_⟩ <;> decide +kernel

/-- Append at the last free bit and on a full stream. -/
theorem witness_AppendAtTheEdge :
    ranOn (after (execBsAppendbit .bs0 1 { State.reset with params := tiny, bs0 := bin [1, 0, 1, 1, 0, 0, 1] })) = true ∧
    faultedWith (after (execBsAppendbit .bs0 1
      { State.reset with params := tiny, bs0 := bin [1, 0, 1, 1, 0, 0, 1, 0] })) 9 9 = true ∧
    ranOn (after (execBsAppend .bs0 1 2 (withRegs [(1, 0xFFFFFFFF), (2, 32)]))) = true ∧
    faultedWith (after (execBsAppend .bs0 1 2 (withRegs [(2, 33)]))) 3 33 = true ∧
    ranOn (after (execBsAppend .bs0 1 2 (withRegs [(1, 31), (2, 5)]))) = true ∧
    faultedWith (after (execBsAppend .bs0 1 2 (withRegs [(1, 32), (2, 5)]))) 3 5 = true ∧
    ranOn (after (execBsCopy .bs0 .bs0 1 2 (withRegs [(1, 1), (2, 2)] { State.reset with bs0 := bin [1, 0, 1] }))) = true ∧
    faultedWith (after (execBsCopy .bs0 .bs0 1 2
      (withRegs [(1, 2), (2, 2)] { State.reset with bs0 := bin [1, 0, 1] }))) 2 4 = true := by decide +kernel

/-- BS.GET, BS.ISRANGE and BS.TOBYTES at the ends of their ranges. -/
theorem witness_StreamReadsAtTheEdge :
    ranOn (after (execBsGet 2 .bs0 1 (withRegs [(1, 2)] { State.reset with bs0 := bin [1, 0, 1] }))) = true ∧
    faultedWith (after (execBsGet 2 .bs0 1 (withRegs [(1, 3)] { State.reset with bs0 := bin [1, 0, 1] }))) 2 3 = true ∧
    (after (execBsIsrange 4 .bs0 1 2 3 (withRegs [(1, 3), (2, 3)] { State.reset with bs0 := bin [1, 0, 1] }))).reg 4 = 1 ∧
    faultedWith (after (execBsIsrange 4 .bs0 1 2 3
      (withRegs [(1, 3), (2, 2)] { State.reset with bs0 := bin [1, 0, 1] }))) 2 2 = true ∧
    ranOn (after (execBsTobytes .bs0 1 2 3 (withRegs [(1, 3)] { State.reset with bs0 := bin [1, 0, 1] }))) = true ∧
    faultedWith (after (execBsTobytes .bs0 1 2 3
      (withRegs [(1, 4)] { State.reset with bs0 := bin [1, 0, 1] }))) 2 4 = true ∧
    faultedWith (after (execBsTobytes .bs0 1 2 3
      (withRegs [(3, 2)] { State.reset with bs0 := bin [1, 0, 1] }))) 2 2 = true ∧
    ranOn (after (execBsTobytes .bs0 1 2 3 (withRegs [(2, 4095), (3, 1)] { State.reset with bs0 := bin [1, 0, 1] }))) = true ∧
    faultedWith (after (execBsTobytes .bs0 1 2 3
      (withRegs [(2, 4096), (3, 1)] { State.reset with bs0 := bin [1, 0, 1] }))) 2 4097 = true := by decide +kernel

theorem witness_TermPadsToByteBoundary :
    ({ State.reset with bs0 := bin [1, 0, 1] }.stream .bs0).length ≤ State.reset.params.bsCap := by decide +kernel

/-- A stream of three bits, X3 = 1: reversed twice, packed, terminated and packed again. -/
theorem witness_BitStreamLaws :
    let s := withRegs [(2, 8), (3, 1), (5, 1)] { State.reset with bs0 := bin [1, 0, 1] }
    let e := withRegs [(1, 255), (2, 8), (5, 1)]
    (exec (.bsReverse .bs0) s = .next (after (exec (.bsReverse .bs0) s)) ∧
      exec (.bsReverse .bs0) (after (exec (.bsReverse .bs0) s)) =
        .next (after (exec (.bsReverse .bs0) (after (exec (.bsReverse .bs0) s))))) ∧
    (exec (.bsTobytes .bs0 0 4 3) s = .next (after (exec (.bsTobytes .bs0 0 4 3) s)) ∧
      (after (exec (.bsTobytes .bs0 0 4 3) s)).runstate = s.runstate ∧ s.runstate = .run) ∧
    ((s.stream .bs0).length ≤ s.params.bsCap ∧ (s.reg 0).toNat = 0 ∧
      8 * (s.reg 3).toNat = roundUp8 (s.stream .bs0).length ∧
      exec (.bsTerm .bs0) s = .next (after (exec (.bsTerm .bs0) s)) ∧
      exec (.bsTobytes .bs0 0 4 3) (after (exec (.bsTerm .bs0) s)) =
        .next (after (exec (.bsTobytes .bs0 0 4 3) (after (exec (.bsTerm .bs0) s)))) ∧
      (after (exec (.bsTobytes .bs0 0 4 3) s)).runstate = .run) ∧
    (e.memoryInv ∧ (e.reg 2).toNat = 8 ∧ (e.reg 3).toNat = (e.stream .bs0).length ∧ (e.stream .bs0).length % 8 = 0 ∧
      (e.reg 5).toNat = 1 ∧ exec (.bsAppend .bs0 1 2) e = .next (after (exec (.bsAppend .bs0 1 2) e)) ∧
      (after (exec (.bsAppend .bs0 1 2) e)).runstate = .run ∧
      exec (.bsTobytes .bs0 3 4 5) (after (exec (.bsAppend .bs0 1 2) e)) =
        .next (after (exec (.bsTobytes .bs0 3 4 5) (after (exec (.bsAppend .bs0 1 2) e)))) ∧
      (after (exec (.bsTobytes .bs0 3 4 5) (after (exec (.bsAppend .bs0 1 2) e)))).runstate = .run) ∧
    (StreamId.bs0 ≠ .bs1 ∧ exec (.bsClone .bs0 .bs1) s = .next (after (exec (.bsClone .bs0 .bs1) s)) ∧
      exec (.bsClr .bs0) (after (exec (.bsClone .bs0 .bs1) s)) =
        .next (after (exec (.bsClr .bs0) (after (exec (.bsClone .bs0 .bs1) s)))) ∧
      writesStream (.bsClr .bs0) ≠ some .bs1 ∧ writesStream (.bsClr .bs1) ≠ some .bs0) := by
  refine ⟨⟨next_after ?_, next_after ?_⟩, ⟨next_after ?_, ?_, rfl⟩, ⟨?_, ?_, ?_, next_after ?_, next_after ?_, ?_⟩,
    ⟨⟨rfl, rfl, rfl⟩, ?_, ?_, ?_, ?_, next_after ?_, ?_, next_after ?_, ?_⟩, ⟨?_, next_after ?_, next_after ?_, ?_, ?_⟩⟩ <;>
  decide +kernel

/-- Each clause of GF.BUILD at the ends of its range. -/
theorem witness_BuildFollowsItsChecks :
    ranOn (after (execGfBuild { gf4 with gfValid := false })) = true ∧
    faultedWith (after (execGfBuild { gf4 with gfSize := 2 })) 10 1 = true ∧
    faultedWith (after (execGfBuild { gf4 with gfSize := 6 })) 10 1 = true ∧
    faultedWith (after (execGfBuild { gf4 with params := tiny, gfSize := 8 })) 10 1 = true ∧
    faultedWith (after (execGfBuild { gf4 with gfPoly := 3 })) 10 2 = true ∧
    faultedWith (after (execGfBuild { gf4 with gfPoly := 8 })) 10 2 = true ∧
    ranOn (after (execGfBuild { gf5 with gfSize := 3, gfValid := false })) = true ∧
    faultedWith (after (execGfBuild { gf5 with gfSize := 2 })) 10 1 = true ∧
    faultedWith (after (execGfBuild { gf5 with gfAlpha := 1 })) 10 3 = true ∧
    faultedWith (after (execGfBuild { gf5 with gfAlpha := 5 })) 10 3 = true ∧
    faultedWith (after (execGfBuild { gf5 with gfAlpha := 4 })) 10 4 = true ∧
    faultedWith (after (execGfBuild { gf5 with gfKind := 2 })) 10 0 = true := by decide +kernel

theorem witness_BuiltTablesAreInverse :
    gf4.runstate = .run ∧ exec .gfBuild gf4 = .next (after (exec .gfBuild gf4)) ∧
      (after (exec .gfBuild gf4)).runstate = .run := ⟨rfl, next_after (by decide +kernel), by decide +kernel⟩

/-- A built field of either kind, with elements at the ends of the range. -/
theorem witness_BuiltField :
    (gf4.fieldInv ∧ gf4.gfValid = true ∧ 3 < gf4.gfSize.toNat ∧ 0 < gf4.gfSize.toNat) ∧
    (gf5.fieldInv ∧ gf5.gfValid = true ∧ 4 < gf5.gfSize.toNat) ∧ ∀ v ∈ [3, 0, 1], v < gf4.gfSize.toNat :=
  ⟨⟨(inv_of_check (s := gf4) (by decide +kernel)).field, rfl, by decide, by decide⟩,
    ⟨(inv_of_check (s := gf5) (by decide +kernel)).field, rfl, by decide⟩, by decide⟩

/-- The scalar commands with operands q - 1 and q, and without a field. -/
theorem witness_FieldCommandsAtTheEdge :
    ranOn (after (execGfAdd 3 1 2 (withRegs [(1, 7), (2, 7)] gf8))) = true ∧
    faultedWith (after (execGfAdd 3 1 2 (withRegs [(1, 7), (2, 8)] gf8))) 2 8 = true ∧
    ranOn (after (execGfSub 3 1 2 (withRegs [(1, 4), (2, 4)] gf5))) = true ∧
    faultedWith (after (execGfSub 3 1 2 (withRegs [(1, 5), (2, 4)] gf5))) 2 5 = true ∧
    ranOn (after (execGfInv 3 1 (withRegs [(1, 7)] gf8))) = true ∧
    faultedWith (after (execGfInv 3 1 gf8)) 11 0 = true ∧
    ranOn (after (execGfLog 3 1 (withRegs [(1, 7)] gf8))) = true ∧
    faultedWith (after (execGfLog 3 1 gf8)) 11 0 = true ∧
    ranOn (after (execGfExp 3 1 (withRegs [(1, 0xFFFFFFFF)] gf8))) = true ∧
    faultedWith (after (execGfExp 3 1 State.reset)) 10 0 = true := by decide +kernel

/-- RS.ENC, RS.CHK and RS.DEC at the ends of their ranges: q = 4. -/
theorem witness_RsLengthsAtTheEdge :
    (gf4Block 1).Inv ∧
    ranOn (after (execRsEnc 1 2 (withRegs [(1, 2), (2, 2)] gf4))) = true ∧
    faultedWith (after (execRsEnc 1 2 (withRegs [(1, 3), (2, 2)] gf4))) 2 5 = true ∧
    faultedWith (after (execRsEnc 1 2 (withRegs [(1, 2), (2, 2)] { gf4 with cw := [(1, 4)] }))) 2 1 = true ∧
    ranOn (after (execRsChk 3 1 2 (withRegs [(1, 4), (2, 4)] gf4))) = true ∧
    faultedWith (after (execRsChk 3 1 2 (withRegs [(1, 5), (2, 4)] gf4))) 2 5 = true ∧
    faultedWith (after (execRsChk 3 1 2 (withRegs [(1, 3), (2, 4)] gf4))) 2 4 = true ∧
    ranOn (after (execRsDec 3 1 2 (withRegs [(1, 3), (2, 3)] gf4))) = true ∧
    faultedWith (after (execRsDec 3 1 2 (withRegs [(1, 4), (2, 2)] gf4))) 2 4 = true ∧
    faultedWith (after (execRsDec 3 1 2 (withRegs [(1, 2), (2, 3)] gf4))) 2 3 = true ∧
    faultedWith (after (execRsDec 3 1 2 (withRegs [(1, 2), (2, 1)] { gf4 with cw := [(0, 4)] }))) 2 0 = true ∧
    faultedWith (after (execRsDec 3 1 2 (withRegs [(1, 2), (2, 1)] { gf4 with er := [(2, 1)] }))) 2 2 = true := by
  refine ⟨inv_of_check (by decide +kernel), ?_, ?_, ?_, ?_, ?_, ?_, ?_, ?_, ?_, ?_, ?_⟩ <;> decide +kernel

theorem witness_EncodedBlockHasZeroSyndromes :
    (gf4Block 1).Inv ∧ (gf4Block 1).runstate = .run ∧
      exec (.rsEnc 4 2) (gf4Block 1) = .next (after (exec (.rsEnc 4 2) (gf4Block 1))) ∧
      (after (exec (.rsEnc 4 2) (gf4Block 1))).runstate = .run :=
  ⟨inv_of_check (by decide +kernel), rfl, next_after (by decide +kernel), by decide +kernel⟩

/-- RS.ERASE at the last position and one past it. -/
theorem witness_ErasureMarksSetAndCleared :
    State.reset.memoryInv ∧ ranOn (after (execRsErase 1 (withRegs [(1, 4095)]))) = true ∧
      faultedWith (after (execRsErase 1 (withRegs [(1, 4096)]))) 2 4096 = true :=
  ⟨⟨rfl, rfl, rfl⟩, by decide +kernel, by decide +kernel⟩

/-- The marks at or beyond n are clear when none is set. -/
theorem no_marks (v : BitVec 16) (n : Nat) : ∀ j, n ≤ j → j < (gf4Block v).params.cwCap → (gf4Block v).er.read j = 0 :=
  fun _ _ _ => rfl

theorem witness_CleanBlockUnchangedElseErasureBudget :
    ((gf4Block 1).memoryInv ∧ (gf4Block 1).gfValid = true ∧
      ((gf4Block 1).reg 1).toNat ≤ (gf4Block 1).gfSize.toNat - 1 ∧
      ((gf4Block 1).reg 1).toNat ≤ (gf4Block 1).params.cwCap ∧ ((gf4Block 1).reg 2).toNat ≤ ((gf4Block 1).reg 1).toNat ∧
      (∀ j < ((gf4Block 1).reg 1).toNat, ((gf4Block 1).cw.read j).toNat < (gf4Block 1).gfSize.toNat) ∧
      (∀ j, ((gf4Block 1).reg 1).toNat ≤ j → j < (gf4Block 1).params.cwCap → (gf4Block 1).er.read j = 0) ∧
      IsBlock (gf4Block 1).field (gf4Block 1).gfBase.toNat ((gf4Block 1).reg 2).toNat ((gf4Block 1).codewords 3)) ∧
    ¬IsBlock (gf4Block 2).field (gf4Block 2).gfBase.toNat ((gf4Block 2).reg 2).toNat ((gf4Block 2).codewords 3) ∧
    ((gf4Block 2).reg 2).toNat <
      ((List.range 3).filter fun j => ({ gf4Block 2 with er := [(0, 1), (1, 1), (2, 1)] } : State).er.read j = 1).length := by
  refine ⟨⟨(inv_of_check (s := gf4Block 1) (by decide +kernel)).memory, rfl, by decide +kernel, by decide +kernel,
    by decide +kernel, by decide +kernel, no_marks 1 _, ?_⟩, ?_, by decide +kernel⟩
  · unfold IsBlock
    decide +kernel
  · unfold IsBlock
    decide +kernel

theorem witness_OkResultIsCodeBlockWithinBudget :
    (gf4Block 2).Inv ∧ (gf4Block 2).runstate = .run ∧
      exec (.rsDec 3 1 2) (gf4Block 2) = .next (after (exec (.rsDec 3 1 2) (gf4Block 2))) ∧
      (after (exec (.rsDec 3 1 2) (gf4Block 2))).runstate = .run ∧
      (after (exec (.rsDec 3 1 2) (gf4Block 2))).reg 3 = 0 :=
  ⟨inv_of_check (by decide +kernel), rfl, next_after (by decide +kernel), by decide +kernel, by decide +kernel⟩

/-- The block 1, 1, 1 received as 2, 1, 1: one error, budget ec = 2. -/
theorem witness_DecodeWithinBudgetRestoresBlock :
    (gf4Block 2).Inv ∧ (gf4Block 2).gfValid = true ∧ ((gf4Block 2).reg 1).toNat ≤ (gf4Block 2).gfSize.toNat - 1 ∧
      ((gf4Block 2).reg 1).toNat ≤ (gf4Block 2).params.cwCap ∧ ((gf4Block 2).reg 2).toNat ≤ ((gf4Block 2).reg 1).toNat ∧
      (∀ j < ((gf4Block 2).reg 1).toNat, ((gf4Block 2).cw.read j).toNat < (gf4Block 2).gfSize.toNat) ∧
      (∀ j, ((gf4Block 2).reg 1).toNat ≤ j → j < (gf4Block 2).params.cwCap → (gf4Block 2).er.read j = 0) ∧
      [1, 1, 1].length = ((gf4Block 2).reg 1).toNat ∧ (∀ v ∈ [1, 1, 1], v < (gf4Block 2).gfSize.toNat) ∧
      IsBlock (gf4Block 2).field (gf4Block 2).gfBase.toNat ((gf4Block 2).reg 2).toNat [1, 1, 1] ∧
      2 * ((List.range 3).filter fun j =>
          (gf4Block 2).er.read j = 0 ∧ [1, 1, 1].getD j 0 ≠ ((gf4Block 2).cw.read j).toNat).length +
        ((List.range 3).filter fun j => (gf4Block 2).er.read j = 1).length ≤ ((gf4Block 2).reg 2).toNat := by
  refine ⟨inv_of_check (by decide +kernel), rfl, by decide +kernel, by decide +kernel, by decide +kernel,
    by decide +kernel, no_marks 2 _, by decide +kernel, by decide +kernel, ?_, by decide +kernel⟩
  unfold IsBlock
  decide +kernel

/-- The mode-encoder commands with the table present, at the ends of their ranges (NM = 5, LMAX = 2078). -/
theorem witness_ModeCommandsAtTheEdge :
    (azState []).Inv ∧ ((azState []).mt.map fun t => t.raw.nm) = some 5 ∧
    ranOn (after (execMeLatch .bs0 4 { azState [] with meMode := 3 })) = true ∧
    faultedWith (after (execMeLatch .bs0 5 (azState []))) 2 5 = true ∧
    ranOn (after (execMeShift .bs0 4 (azState []))) = true ∧
    faultedWith (after (execMeShift .bs0 5 (azState []))) 2 5 = true ∧
    faultedWith (after (execMeShift .bs0 4 { azState [] with shv := true })) 12 1 = true ∧
    faultedWith (after (execMeSym .bs0 1 1 (withRegs [(1, 4095)] (azState [])))) 8 4095 = true ∧
    faultedWith (after (execMeSym .bs0 1 2 (withRegs [(1, 4095)] (azState [])))) 2 4097 = true ∧
    ranOn (after (execMeBshift .bs0 1 2 (withRegs [(1, 4095), (2, 1)] (azState [])))) = true ∧
    faultedWith (after (execMeBshift .bs0 1 2 (withRegs [(1, 4095), (2, 2)] (azState [])))) 2 4097 = true ∧
    faultedWith (after (execMeBshift .bs0 1 2 (withRegs [(2, 2079)] (azState [])))) 2 2079 = true ∧
    ranOn (after (execMeInit State.reset)) = true := by
  refine ⟨inv_of_check (by decide +kernel), rfl, ?_, ?_, ?_, ?_, ?_, ?_, ?_, ?_, ?_, ?_, ?_⟩ <;> decide +kernel

/-- The premises of each clause of the statements about ME.INIT and ME.UNLATCH. -/
theorem witness_InitAndUnlatchClauses :
    ((azState []).mt = some tableAz ∧ (azState []).shv = false ∧ (azState []).meMode.toNat = tableAz.raw.dm) ∧
    ({ azState [] with meMode := 2 }.mt = some tableAz ∧
      { azState [] with meMode := 2 }.meMode.toNat ≠ tableAz.raw.dm) ∧
    State.reset.mt = none :=
  ⟨⟨rfl, rfl, rfl⟩, ⟨rfl, by decide +kernel⟩, rfl⟩

/-- A symbol length and a word the decoder refuses. -/
theorem witness_ModeCommandWords :
    ((1 : BitVec 2) = 1 ∨ (1 : BitVec 2) = 2) ∧ ((2 : BitVec 2) = 1 ∨ (2 : BitVec 2) = 2) ∧
    (opByte 0x4100000000000100 = 0x41 ∧ 2 ^ 8 ≤ immField 0x4100000000000100) ∧
    (opByte 0x4200000000000100 = 0x42 ∧ 2 ^ 8 ≤ immField 0x4200000000000100) ∧
    (opByte 0x4401000000000003 = 0x44 ∧ immField 0x4401000000000003 ≠ 1 ∧ immField 0x4401000000000003 ≠ 2) := by decide

/-- A plan under T_AZ and the cost table's entry for the same message. -/
theorem witness_CostToGoIsLeastPlanCost :
    0 < tableAz.raw.nm ∧ planCost tableAz.raw 0 [0x41] [.sym 1] = some 5 ∧
      costToGo tableAz.raw [0x41] 0 = some 5 := by decide +kernel

/-- One byte outside every symbol table of T_AZ, from Upper. -/
theorem witness_BinaryShiftBreakpoints :
    0 < tableAz.raw.nm ∧ tableAz.raw.bshCode 0 ≠ none ∧ tableAz.raw.w 0 = 5 ∧ tableAz.raw.ws = 5 ∧ tableAz.raw.wl = 11 ∧
    (∀ m', tableAz.raw.bshCode m' ≠ none → 5 ≤ tableAz.raw.w m') ∧
    (∀ m', ∀ e ∈ tableAz.raw.symOf m', ∀ b ∈ e.1, b ∉ ([0xE9] : List Byte)) ∧
    1 ≤ ([0xE9] : List Byte).length ∧ ([0xE9] : List Byte).length ≤ 2141 := by
  refine ⟨by decide, by decide, by decide, by decide, by decide, fun m' => ?_, fun m' => ?_, by decide, by decide⟩
  · match m' with
    | 0 | 1 | 2 | 3 | 4 => decide
    | n + 5 => exact fun h => absurd rfl h
  · match m' with
    | 0 | 1 | 2 | 3 | 4 => decide +kernel
    | n + 5 => exact fun e h => by cases h

theorem witness_EncodeRoundTrip :
    let s := withRegs [(2, 1), (3, 99)] (azState [0x41])
    let i := Instr.meEncode 4 .bs0 1 2 3
    s.Inv ∧ s.mt = some tableAz ∧ s.stream .bs0 = [] ∧ s.shv = false ∧ s.runstate = .run ∧
      exec i s = .next (after (exec i s)) ∧ (after (exec i s)).runstate = .run ∧
      TokenRun .bs0 [i] s [0x41] (after (exec i s)) ∧ (after (exec i s)).shv = false ∧
      ([true] : List Bool).length < tableAz.raw.w (after (exec i s)).meMode.toNat := by
  refine ⟨inv_of_check (by decide +kernel), rfl, rfl, rfl, rfl, next_after (by decide +kernel), by decide +kernel,
    ⟨_, [0x41], [], by decide +kernel, next_after (by decide +kernel), by decide +kernel, rfl, rfl, rfl⟩,
    by decide +kernel, by decide +kernel⟩

end Sys2Proof.Tests
end

/-! ## What a command writes (10_state.md)

Every command but HALT raises one fault, or makes a few writes its operands name and completes. `Write i` lists the single
writes with what each needs to keep the invariant; the frame statements and the invariant follow from it. -/

namespace Sys2Proof.Machine

open Relation (ReflTransGen)

/-- One write that command `i` may make, from a state to the next: to a space, a stream or a register it names (10_state.md
R23, 41_bitstream.md R100), within its bounds. -/
inductive Write : Instr → State → State → Prop where
  | reg {i : Instr} {rd : Reg} (u : State) (v : Word) (h : writesReg i = some rd) : Write i u (u.setReg rd v)
  | stream {i : Instr} (u : State) (k : StreamId) (bits : List Bool) (h : writesStream i = some k)
      (fits : u.streamInv → bits.length ≤ u.params.bsCap) : Write i u (u.setStream k bits)
  | csrw (u : State) (n : BitVec 12) (rs1 : Reg) (kind size poly alpha base : Word) :
      Write (.csrw n rs1) u { u with gfKind := kind, gfSize := size, gfPoly := poly, gfAlpha := alpha, gfBase := base,
                                     gfValid := false }
  | gfBuild {u : State} {e l : List Nat} (h : u.buildResult = .ok (e, l)) :
      Write .gfBuild u { u with exp := e, log := l, gfValid := true }
  | stb {u : State} {a : Nat} (v : Byte) (rs2 : Reg) (imm : Word) (rs1 : Reg) (h : a < u.params.bufCap) :
      Write (.stb rs2 imm rs1) u { u with buf := u.buf.write a v }
  | bsTobytes {u : State} {a : Nat} {vs : List Byte} (k : StreamId) (rs1 rs2 rs3 : Reg)
      (h : a + vs.length ≤ u.params.bufCap) :
      Write (.bsTobytes k rs1 rs2 rs3) u { u with buf := u.buf.writeList a vs }
  | stc {u : State} {a : Nat} (v : BitVec 16) (rs2 : Reg) (imm : Word) (rs1 : Reg) (h : a < u.params.cwCap) :
      Write (.stc rs2 imm rs1) u { u with cw := u.cw.write a v }
  | rsEnc {u : State} {a : Nat} {vals : List Nat} (rs1 rs2 : Reg) (h : a + vals.length ≤ u.params.cwCap) :
      Write (.rsEnc rs1 rs2) u (u.writeCodewords a vals)
  | rsDec {u : State} {a : Nat} {vals : List Nat} (rd rs1 rs2 : Reg) (h : a + vals.length ≤ u.params.cwCap) :
      Write (.rsDec rd rs1 rs2) u (u.writeCodewords a vals)
  | rsErase {u : State} {p : Nat} (rs1 : Reg) (h : p < u.params.cwCap) :
      Write (.rsErase rs1) u { u with er := u.er.write p 1 }
  | rsErclr (u : State) : Write .rsErclr u { u with er := [] }
  | meInit (u : State) : Write .meInit u (u.setMode u.defaultMode)
  | mode {i : Instr} {u : State} {mt : ModeTable} {m : Nat} (h : isModeCommand i = true) (hmt : u.mt = some mt)
      (hm : u.mode < mt.raw.nm → m < mt.raw.nm) : Write i u (u.setMode m)
  | shift {i : Instr} {u : State} {mt : ModeTable} {m : Nat} (h : isModeCommand i = true) (hmt : u.mt = some mt)
      (hm : m < mt.raw.nm) : Write i u (u.setShift m)
  | clearShift {i : Instr} (u : State) (h : isModeCommand i = true) : Write i u u.clearShift

/-- Command `i` answers from `s` with one fault, or completes after some of its writes. -/
def Does (i : Instr) (s : State) (r : Result) : Prop :=
  (∃ f info, r = s.raise f info) ∨ ∃ u, r = u.complete ∧ ReflTransGen (Write i) s u

/-! ### The shared operations -/

section

variable {i : Instr} {s : State}

theorem Does.raise (f : FaultName) (info : Nat) : Does i s (s.raise f info) := .inl ⟨f, info, rfl⟩

theorem Does.complete {u : State} (h : ReflTransGen (Write i) s u) : Does i s u.complete := .inr ⟨u, rfl, h⟩

theorem Does.write {u : State} (h : Write i s u) : Does i s u.complete := .complete (.single h)

theorem Does.setReg {rd : Reg} (h : writesReg i = some rd) (v : Word) : Does i s (s.setReg rd v).complete :=
  .write (.reg s v h)

theorem Does.setStream {k : StreamId} {bits : List Bool} (h : writesStream i = some k)
    (fits : s.streamInv → bits.length ≤ s.params.bsCap) : Does i s (s.setStream k bits).complete :=
  .write (.stream s k bits h fits)

theorem Does.ite {c : Prop} [Decidable c] {a b : Result} (ha : c → Does i s a) (hb : ¬c → Does i s b) :
    Does i s (if c then a else b) := by
  split
  · exact ha ‹_›
  · exact hb ‹_›

/-- A check that raises a fault before the rest of the command. -/
theorem Does.check {c : Prop} [Decidable c] {f : FaultName} {info : Nat} {b : Result} (hb : ¬c → Does i s b) :
    Does i s (if c then s.raise f info else b) := .ite (fun _ => .raise ..) hb

theorem Does.appendThen {k : StreamId} {bits : List Bool} {after : State → State} (hk : writesStream i = some k)
    (h : ReflTransGen (Write i) (s.setStream k (s.stream k ++ bits)) (after (s.setStream k (s.stream k ++ bits)))) :
    Does i s (s.appendThen k bits after) :=
  .check fun hfits => .complete (.head (.stream s k _ hk fun _ => by simpa using hfits) h)

theorem Does.append {k : StreamId} (hk : writesStream i = some k) (bits : List Bool) :
    Does i s (s.appendThen k bits id) := .appendThen hk .refl

theorem Does.fieldCommand {operands : List Nat} {command : Result} (h : Does i s command) :
    Does i s (s.fieldCommand operands command) := by
  rcases s.fieldCommand_cases operands command with ⟨-, e⟩ | ⟨-, ⟨a, -, -, e⟩ | ⟨-, e⟩⟩ <;> rw [e]
  · exact .raise ..
  · exact .raise ..
  · exact h

theorem Does.withTable {command : RawTable → Result} (h : ∀ mt, s.mt = some mt → Does i s (command mt.raw)) :
    Does i s (s.withTable command) := by
  cases hmt : s.mt with
  | none =>
    rw [State.withTable_none hmt]
    exact .raise ..
  | some mt =>
    rw [State.withTable_some hmt]
    exact h mt hmt

theorem Does.latchTo {mt : ModeTable} {k : StreamId} {m' : Nat} (hi : isModeCommand i = true)
    (hk : writesStream i = some k) (hmt : s.mt = some mt) (hm : m' < mt.raw.nm) :
    Does i s (s.latchTo mt.raw k m') := by
  rcases s.latchTo_cases mt.raw k m' with ⟨-, e⟩ | ⟨-, -, e⟩ | ⟨-, c, -, e⟩ <;> rw [e]
  · exact .raise ..
  · exact .raise ..
  · exact .appendThen hk (.single (.mode hi (by simpa using hmt) fun _ => hm))

theorem State.stream_length_le (h : s.streamInv) (k : StreamId) : (s.stream k).length ≤ s.params.bsCap := by
  cases k
  · exact h.1
  · exact h.2

end

/-! ### The lengths and modes the writes need -/

@[simp] theorem parity_length (F : FieldTables) (b ec : Nat) (d : List Nat) : (parity F b ec d).length = ec := by
  simp [parity]

@[simp] theorem correct_length (F : FieldTables) (b n : Nat) (A : List Nat) (omega : CoeffList) (r : List Nat) :
    (correct F b n A omega r).length = r.length := by
  unfold correct
  generalize magnitude F b n A omega = mag
  suffices h : ∀ (P out : List Nat),
      (P.foldl (fun out p => out.set p (F.sub (r.getD p 0) (mag p))) out).length = out.length from h A r
  intro P
  induction P with
  | nil => exact fun out => rfl
  | cons p P ih => exact fun out => (ih _).trans (List.length_set ..)

/-- A corrected block has the length of the received one (43_reed_solomon.md R169, R170). -/
theorem decodeTail_length {F : FieldTables} {b n ec : Nat} {E r out : List Nat} {rCur tCur : CoeffList}
    (h : decodeTail F b n ec E r rCur tCur = some out) : out.length = r.length := by
  simp only [decodeTail, Option.ite_none_left_eq_some, Option.ite_none_right_eq_some, Option.some.injEq] at h
  obtain ⟨-, -, -, -, -, rfl⟩ := h
  exact correct_length ..

/-- Decode answers a block of the same length (43_reed_solomon.md R160, R170). -/
theorem decodeBlock_length {F : FieldTables} {b n ec : Nat} {E r out : List Nat}
    (h : decodeBlock F b n ec E r = some out) : out.length = r.length := by
  unfold decodeBlock at h
  split at h
  · rw [Option.some.inj h]
  · split at h
    · cases h
    · exact decodeTail_length h

/-- A move that consumes bytes leaves the mode as it is (44_mode_encoder.md R192, R194). -/
theorem target_of_mem_byteChoices {t : RawTable} {m : Nat} {msg : List Byte} {after : List Row} {ch : Move × Cost}
    (h : ch ∈ byteChoices t m msg after) : ch.1.target m = m := by
  rcases List.mem_append.1 h with hsym | hrun
  · obtain ⟨mv, hmv, rfl⟩ := List.mem_map.1 hsym
    simp only [symbolMoves, List.mem_append, List.mem_flatMap, List.mem_cons, List.not_mem_nil, or_false] at hmv
    rcases hmv with (rfl | rfl) | ⟨m', -, rfl | rfl⟩ <;> rfl
  · unfold runChoices at hrun
    split at hrun
    · cases hrun
    · obtain ⟨rl, -, rfl⟩ := List.mem_map.1 (List.mem_reverse.1 hrun)
      rfl

/-- A move of the chosen plan ends in a mode of the table (44_mode_encoder.md R194). -/
theorem firstMove_target_lt {t : RawTable} {m : Nat} {msg : List Byte} {row : Row} {after : List Row} {mv : Move}
    (h : firstMove t m msg row after = some mv) (hm : m < t.nm) : mv.target m < t.nm := by
  obtain ⟨ch, hfind, rfl⟩ := Option.map_eq_some_iff.1 h
  rcases List.mem_append.1 (List.mem_of_find?_eq_some hfind) with hbytes | hlatch
  · rw [target_of_mem_byteChoices hbytes]
    exact hm
  · obtain ⟨m', hm', rfl⟩ := List.mem_map.1 hlatch
    exact List.mem_range.1 hm'

/-- The chosen plan ends in a mode of the table (44_mode_encoder.md R194, R195). -/
theorem planEnd_planFrom_lt {t : RawTable} (fuel m : Nat) (msg : List Byte) (rows : List Row) (hm : m < t.nm) :
    planEnd m (planFrom t fuel m msg rows) < t.nm := by
  induction fuel generalizing m msg rows with
  | zero => simpa [planFrom, planEnd] using hm
  | succ fuel ih =>
    match msg, rows with
    | [], _ => simpa [planFrom, planEnd] using hm
    | _ :: _, [] => simpa [planFrom, planEnd] using hm
    | b :: msg, row :: after =>
      rw [planFrom]
      split
      · exact hm
      · exact ih _ _ _ (firstMove_target_lt ‹_› hm)

theorem planEnd_chosenPlan_lt {t : RawTable} {m : Nat} (msg : List Byte) (c : Nat) (hm : m < t.nm) :
    planEnd m (chosenPlan t m msg c) < t.nm := planEnd_planFrom_lt c m msg _ hm

/-! ### The commands -/

section

variable (s : State)

theorem does_execCsrr (rd : Reg) (csr : BitVec 12) : Does (.csrr rd csr) s (execCsrr rd csr s) := by
  unfold execCsrr
  split
  · exact .raise ..
  · exact .setReg rfl _

theorem does_execCsrw (csr : BitVec 12) (rs1 : Reg) : Does (.csrw csr rs1) s (execCsrw csr rs1 s) := by
  unfold execCsrw
  split
  · exact .raise ..
  · rename_i u h
    obtain ⟨c, -, hc⟩ := Option.bind_eq_some_iff.1 h
    obtain ⟨-, -, -, e⟩ := State.csrWrite_eq_some hc
    rw [e]
    exact .write (.csrw s csr rs1 ..)

theorem does_execBsTobytes (k : StreamId) (rs1 rs2 rs3 : Reg) :
    Does (.bsTobytes k rs1 rs2 rs3) s (execBsTobytes k rs1 rs2 rs3 s) :=
  .check fun _ => .check fun _ => .check fun h =>
    .write (.bsTobytes k rs1 rs2 rs3 (by simpa [bytesFrom] using h))

theorem does_execBsClone (k ks : StreamId) : Does (.bsClone k ks) s (execBsClone k ks s) :=
  .setStream rfl fun h => State.stream_length_le h ks

theorem does_execBsReverse (k : StreamId) : Does (.bsReverse k) s (execBsReverse k s) :=
  .setStream rfl fun h => by simpa using State.stream_length_le h k

theorem does_execGfBuild : Does .gfBuild s (execGfBuild s) := by
  unfold execGfBuild
  split
  · exact .raise ..
  · exact .write (.gfBuild ‹_›)

theorem does_execRsEnc (rs1 rs2 : Reg) : Does (.rsEnc rs1 rs2) s (execRsEnc rs1 rs2 s) := by
  unfold execRsEnc
  refine .check fun _ => .check fun h => ?_
  split
  · exact .raise ..
  · exact .write (.rsEnc rs1 rs2 (by rw [parity_length]; omega))

theorem does_execRsChk (rd rs1 rs2 : Reg) : Does (.rsChk rd rs1 rs2) s (execRsChk rd rs1 rs2 s) := by
  unfold execRsChk
  refine .check fun _ => .check fun _ => .check fun _ => ?_
  split
  · exact .raise ..
  · exact .setReg rfl _

theorem does_execRsDec (rd rs1 rs2 : Reg) : Does (.rsDec rd rs1 rs2) s (execRsDec rd rs1 rs2 s) := by
  unfold execRsDec
  refine .check fun _ => .check fun h => .check fun _ => ?_
  split
  · exact .raise ..
  split
  · exact .raise ..
  split
  · rename_i out hout
    have hlen : out.length = s.val rs1 := (decodeBlock_length hout).trans (s.codewords_length _)
    exact .complete (.tail (.single (.rsDec rd rs1 rs2 (by omega))) (.reg _ 0 rfl))
  · exact .setReg rfl _

theorem does_execMeLatch (k : StreamId) (mode : BitVec 8) : Does (.meLatch k mode) s (execMeLatch k mode s) :=
  .withTable fun _ hmt => .check fun h => .latchTo rfl rfl hmt (Nat.lt_of_not_le h)

theorem does_execMeShift (k : StreamId) (mode : BitVec 8) : Does (.meShift k mode) s (execMeShift k mode s) := by
  refine .withTable fun mt hmt => .check fun h => .check fun _ => ?_
  split
  · exact .raise ..
  · exact .appendThen rfl (.single (.shift rfl (by simpa using hmt) (Nat.lt_of_not_le h)))

theorem does_execMeUnlatch (k : StreamId) : Does (.meUnlatch k) s (execMeUnlatch k s) :=
  .withTable fun mt hmt => .ite (fun _ => .complete .refl) fun _ => .latchTo rfl rfl hmt mt.facts.dm_lt

theorem does_execMeSym (k : StreamId) (rs1 : Reg) (len : BitVec 2) :
    Does (.meSym k rs1 len) s (execMeSym k rs1 len s) := by
  refine .check fun _ => .withTable fun mt hmt => .check fun _ => ?_
  split
  · exact .raise ..
  · exact .appendThen rfl (.single (.clearShift _ rfl))

theorem does_execMeBshift (k : StreamId) (rs1 rs2 : Reg) :
    Does (.meBshift k rs1 rs2) s (execMeBshift k rs1 rs2 s) :=
  .withTable fun _ _ => .check fun _ => .check fun _ => .check fun _ => .check fun _ => .append rfl _

/-- The chosen plan's bits, end mode and bit count are written when the bits fit (44_mode_encoder.md R195). -/
theorem does_performPlan {i : Instr} {mt : ModeTable} {rd : Reg} {k : StreamId} (hi : isModeCommand i = true)
    (hk : writesStream i = some k) (hrd : writesReg i = some rd) (hmt : s.mt = some mt) (msg : List Byte) (c : Nat) :
    Does i s (s.performPlan mt.raw rd k msg c) := by
  unfold State.performPlan
  exact .appendThen hk <| .tail
    (.single (.mode hi (by simpa using hmt) fun h => planEnd_chosenPlan_lt msg c (by simpa [State.mode] using h)))
    (.reg _ _ hrd)

theorem does_execMeEncode (rd : Reg) (k : StreamId) (rs1 rs2 rs3 : Reg) :
    Does (.meEncode rd k rs1 rs2 rs3) s (execMeEncode rd k rs1 rs2 rs3 s) := by
  refine .withTable fun mt hmt => .check fun _ => .check fun _ => ?_
  split
  · exact .raise ..
  · exact .check fun _ => .check fun _ => does_performPlan s rfl rfl rfl hmt ..

/-- Every command but HALT raises one fault, or completes after writes its operands name. -/
theorem does_exec {i : Instr} (hi : i ≠ .halt) : Does i s (exec i s) := by
  cases i with
  | nop => exact .complete .refl
  | halt => exact absurd rfl hi
  | li rd imm => exact .setReg rfl imm
  | csrr rd csr => exact does_execCsrr ..
  | csrw csr rs1 => exact does_execCsrw ..
  | ldb rd imm rs1 => exact .check fun _ => .setReg rfl _
  | stb rs2 imm rs1 => exact .check fun h => .check fun _ => .write (.stb _ rs2 imm rs1 (Nat.lt_of_not_le h))
  | ldc rd imm rs1 => exact .check fun _ => .setReg rfl _
  | stc rs2 imm rs1 => exact .check fun h => .check fun _ => .write (.stc _ rs2 imm rs1 (Nat.lt_of_not_le h))
  | bsClr k => exact .setStream rfl fun _ => Nat.zero_le _
  | bsAppendbit k rs1 => exact .append rfl _
  | bsAppend k rs1 rs2 => exact .check fun _ => .check fun _ => .append rfl _
  | bsSize rd k => exact .setReg rfl _
  | bsGet rd k rs1 => exact .check fun _ => .setReg rfl _
  | bsIsrange rd k rs1 rs2 rs3 => exact .check fun _ => .setReg rfl _
  | bsTobytes k rs1 rs2 rs3 => exact does_execBsTobytes ..
  | bsReverse k => exact does_execBsReverse ..
  | bsCopy k ks rs1 rs2 => exact .check fun _ => .append rfl _
  | bsClone k ks => exact does_execBsClone ..
  | bsTerm k => exact .append rfl _
  | gfBuild => exact does_execGfBuild s
  | gfAdd rd rs1 rs2 => exact .fieldCommand (.setReg rfl _)
  | gfSub rd rs1 rs2 => exact .fieldCommand (.setReg rfl _)
  | gfMul rd rs1 rs2 => exact .fieldCommand (.setReg rfl _)
  | gfDiv rd rs1 rs2 => exact .fieldCommand (.check fun _ => .setReg rfl _)
  | gfInv rd rs1 => exact .fieldCommand (.check fun _ => .setReg rfl _)
  | gfExp rd rs1 => exact .fieldCommand (.setReg rfl _)
  | gfLog rd rs1 => exact .fieldCommand (.check fun _ => .setReg rfl _)
  | rsEnc rs1 rs2 => exact does_execRsEnc ..
  | rsChk rd rs1 rs2 => exact does_execRsChk ..
  | rsDec rd rs1 rs2 => exact does_execRsDec ..
  | rsErase rs1 => exact .check fun h => .write (.rsErase rs1 (Nat.lt_of_not_le h))
  | rsErclr => exact .write (.rsErclr s)
  | meInit => exact .complete (.tail (.single (.meInit s)) (.clearShift _ rfl))
  | meLatch k mode => exact does_execMeLatch ..
  | meShift k mode => exact does_execMeShift ..
  | meUnlatch k => exact does_execMeUnlatch ..
  | meSym k rs1 len => exact does_execMeSym ..
  | meBshift k rs1 rs2 => exact does_execMeBshift ..
  | meEncode rd k rs1 rs2 rs3 => exact does_execMeEncode ..

end

/-- Everything a command can do: one fault, HALT, or writes its operands name and CP advanced (10_state.md R13). -/
theorem exec_cases {i : Instr} {s t : State} (h : exec i s = .next t) :
    (∃ f info, t = s.faultEntry f info) ∨ (i = .halt ∧ t = { s with runstate := .halted }) ∨
      ∃ u, ReflTransGen (Write i) s u ∧ t = u.advance := by
  by_cases hi : i = .halt
  · subst hi
    cases h
    exact .inr (.inl ⟨rfl, rfl⟩)
  · rcases does_exec s hi with ⟨f, info, e⟩ | ⟨u, e, hu⟩ <;> rw [e] at h <;> cases h
    · exact .inl ⟨f, info, rfl⟩
    · exact .inr (.inr ⟨u, hu, rfl⟩)

/-! ### The invariant -/

/-- No write touches the sequencer's registers or the run's inputs. -/
theorem Write.sameRun {i : Instr} {u u' : State} (w : Write i u u') : SameRun u u' := by
  cases w with
  | stream _ k bits => exact .setStream u k bits
  | _ => exact ⟨rfl, rfl, rfl, rfl, rfl, rfl, rfl, rfl⟩

theorem Write.memoryInv {i : Instr} {u u' : State} (w : Write i u u') (hu : u.memoryInv) : u'.memoryInv := by
  obtain ⟨hbuf, hcw, her⟩ := hu
  cases w with
  | stb v rs2 imm rs1 h => exact ⟨Memory.wf_write hbuf h, hcw, her⟩
  | bsTobytes k rs1 rs2 rs3 h => exact ⟨Memory.wf_writeList hbuf h, hcw, her⟩
  | stc v rs2 imm rs1 h => exact ⟨hbuf, Memory.wf_write hcw h, her⟩
  | rsEnc rs1 rs2 h => exact ⟨hbuf, Memory.wf_writeList hcw (by simpa using h), her⟩
  | rsDec rd rs1 rs2 h => exact ⟨hbuf, Memory.wf_writeList hcw (by simpa using h), her⟩
  | rsErase rs1 h => exact ⟨hbuf, hcw, Memory.wf_write her h⟩
  | rsErclr => exact ⟨hbuf, hcw, Memory.wf_nil _⟩
  | stream _ k => cases k <;> exact ⟨hbuf, hcw, her⟩
  | _ => exact ⟨hbuf, hcw, her⟩

theorem Write.streamInv {i : Instr} {u u' : State} (w : Write i u u') (hu : u.streamInv) : u'.streamInv := by
  cases w with
  | stream _ k bits _ fits =>
    cases k
    · exact ⟨fits hu, hu.2⟩
    · exact ⟨hu.1, fits hu⟩
  | _ => exact hu

theorem Write.fieldInv {i : Instr} {u u' : State} (w : Write i u u') (hu : u.fieldInv) : u'.fieldInv := by
  cases w with
  | gfBuild h => exact fun _ => h
  | csrw => exact fun hv => by cases hv
  | stream _ k => cases k <;> exact hu
  | _ => exact hu

/-- A mode number of the table fits ME_MODE and SHM (44_mode_encoder.md R182). -/
theorem ModeTable.toNat_ofNat_mode (mt : ModeTable) {m : Nat} (hm : m < mt.raw.nm) : (BitVec.ofNat 8 m).toNat = m := by
  have := mt.facts.nm_le
  rw [BitVec.toNat_ofNat, Nat.mod_eq_of_lt (by omega)]

/-- modeInv in a run with MT (10_state.md R22). -/
theorem State.modeInv_some {u : State} {mt : ModeTable} (hmt : u.mt = some mt) :
    u.modeInv ↔ (u.shv = false → u.shm = 0) ∧ u.mode < mt.raw.nm ∧ (u.shv = true → u.shm.toNat < mt.raw.nm) := by
  rw [State.modeInv, hmt]

/-- modeInv in a run without MT (10_state.md R22). -/
theorem State.modeInv_none {u : State} (hmt : u.mt = none) :
    u.modeInv ↔ (u.shv = false → u.shm = 0) ∧ u.meMode = 0 ∧ u.shv = false := by
  rw [State.modeInv, hmt]

theorem State.modeInv_setMode {u : State} {mt : ModeTable} {m : Nat} (hmt : u.mt = some mt) (hm : m < mt.raw.nm)
    (hu : u.modeInv) : (u.setMode m).modeInv := by
  obtain ⟨hshm, -, hshv⟩ := (State.modeInv_some hmt).1 hu
  exact (State.modeInv_some (u := u.setMode m) hmt).2 ⟨hshm, by simpa [State.mode, mt.toNat_ofNat_mode hm] using hm, hshv⟩

theorem State.modeInv_setMode_defaultMode {u : State} (hu : u.modeInv) : (u.setMode u.defaultMode).modeInv := by
  cases hmt : u.mt with
  | none =>
    obtain ⟨hshm, -, hshv⟩ := (State.modeInv_none hmt).1 hu
    exact (State.modeInv_none (u := u.setMode _) hmt).2 ⟨hshm, by simp [State.defaultMode_none hmt], hshv⟩
  | some mt =>
    rw [State.defaultMode_some hmt]
    exact State.modeInv_setMode hmt mt.facts.dm_lt hu

theorem State.modeInv_setShift {u : State} {mt : ModeTable} {m : Nat} (hmt : u.mt = some mt) (hm : m < mt.raw.nm)
    (hu : u.modeInv) : (u.setShift m).modeInv := by
  obtain ⟨-, hmode, -⟩ := (State.modeInv_some hmt).1 hu
  exact (State.modeInv_some (u := u.setShift m) hmt).2
    ⟨fun h => by simp at h, hmode, fun _ => by simpa [mt.toNat_ofNat_mode hm] using hm⟩

theorem State.modeInv_clearShift {u : State} (hu : u.modeInv) : u.clearShift.modeInv := by
  cases hmt : u.mt with
  | none =>
    obtain ⟨-, hmode, -⟩ := (State.modeInv_none hmt).1 hu
    exact (State.modeInv_none (u := u.clearShift) hmt).2 ⟨fun _ => rfl, hmode, rfl⟩
  | some mt =>
    obtain ⟨-, hmode, -⟩ := (State.modeInv_some hmt).1 hu
    exact (State.modeInv_some (u := u.clearShift) hmt).2 ⟨fun _ => rfl, hmode, fun h => by simp at h⟩

theorem Write.modeInv {i : Instr} {u u' : State} (w : Write i u u') (hu : u.modeInv) : u'.modeInv := by
  cases w with
  | meInit => exact State.modeInv_setMode_defaultMode hu
  | mode h hmt hm => exact State.modeInv_setMode hmt (hm ((State.modeInv_some hmt).1 hu).2.1) hu
  | shift h hmt hm => exact State.modeInv_setShift hmt hm hu
  | clearShift => exact State.modeInv_clearShift hu
  | stream _ k => cases k <;> exact hu
  | _ => exact hu

theorem State.cpInv_of_sameRun {u u' : State} (h : SameRun u u') (hu : u.cpInv) : u'.cpInv := by
  rw [State.cpInv, h.cp, h.prog]
  exact hu

theorem State.faultInv_of_sameRun {u u' : State} (h : SameRun u u') (hu : u.faultInv) : u'.faultInv := by
  rw [State.faultInv, h.runstate, h.fcode, h.epc, h.einfo, h.cp]
  exact hu

/-- A single write keeps the invariant. -/
theorem Write.inv {i : Instr} {u u' : State} (w : Write i u u') (hu : u.Inv) : u'.Inv where
  memory := w.memoryInv hu.memory
  streams := w.streamInv hu.streams
  cp := State.cpInv_of_sameRun w.sameRun hu.cp
  fault := State.faultInv_of_sameRun w.sameRun hu.fault
  field := w.fieldInv hu.field
  modes := w.modeInv hu.modes

/-- The writes of a command keep the invariant, RUNSTATE, CP and PROG. -/
theorem inv_of_writes {i : Instr} {s u : State} (h : ReflTransGen (Write i) s u) (hs : s.Inv) :
    u.Inv ∧ u.runstate = s.runstate ∧ u.cp = s.cp ∧ u.prog = s.prog := by
  induction h with
  | refl => exact ⟨hs, rfl, rfl, rfl⟩
  | tail _ w ih =>
    obtain ⟨hinv, hrun, hcp, hprog⟩ := ih
    exact ⟨w.inv hinv, w.sameRun.runstate.trans hrun, w.sameRun.cp.trans hcp, w.sameRun.prog.trans hprog⟩

/-- Fault entry keeps the invariant: EPC = CP (60_exceptions.md R224). -/
theorem State.Inv.faultEntry {s : State} (hs : s.Inv) (f : FaultName) (info : Nat) : (s.faultEntry f info).Inv :=
  { hs with fault := ⟨fun h => absurd rfl h, fun _ => rfl⟩ }

/-- HALT keeps the invariant: a running state has no fault recorded (10_state.md R17). -/
theorem State.Inv.halted {s : State} (hs : s.Inv) (hrun : s.runstate = .run) : State.Inv { s with runstate := .halted } :=
  { hs with fault := ⟨fun _ => hs.fault.1 (by simp [hrun]), fun h => by cases h⟩ }

/-- Advancing CP inside PROG keeps the invariant while running (10_state.md R12). -/
theorem State.Inv.advance {s : State} (hs : s.Inv) (hrun : s.runstate = .run) (hcp : s.cp.toNat < s.prog.length) :
    s.advance.Inv :=
  { hs with
    cp := by
      have hlen := hs.cp.1
      refine ⟨hlen, ?_⟩
      rw [State.advance_cp, State.advance_prog]
      bv_omega
    fault := ⟨hs.fault.1, fun h => by simp [hrun] at h⟩ }

/-- A command at a place of PROG keeps the invariant. -/
theorem exec_inv {i : Instr} {s t : State} (hs : s.Inv) (hrun : s.runstate = .run) (hcp : s.cp.toNat < s.prog.length)
    (h : exec i s = .next t) : t.Inv := by
  rcases exec_cases h with ⟨f, info, rfl⟩ | ⟨-, rfl⟩ | ⟨u, hw, rfl⟩
  · exact hs.faultEntry f info
  · exact hs.halted hrun
  · obtain ⟨hu, hr, hc, hp⟩ := inv_of_writes hw hs
    exact hu.advance (hr.trans hrun) (by rwa [hc, hp])

/-- Settles O13: every step raises a fault, halts, or makes writes that keep the invariant and advances CP within PROG. -/
theorem stepKeepsInvariant : Obligations.StepKeepsInvariant := by
  intro s t hs h
  obtain ⟨w, hrun, hw, hcases⟩ := step_cases h
  have hcp : s.cp.toNat < s.prog.length := (List.getElem?_eq_some_iff.1 hw).1
  rcases hcases with ⟨f, info, rfl⟩ | ⟨-, rfl⟩ | ⟨i, -, -, -, hexec, -, -⟩
  · exact hs.faultEntry f info
  · exact hs.halted hrun
  · exact exec_inv hs hrun hcp hexec

end Sys2Proof.Machine

/-! ## Who writes what (10_state.md R13, R16 to R19, R23, R24) -/

namespace Sys2Proof.Machine

/-- What the writes of a command keep, and what reads none of the sequencer's registers, the whole command keeps. -/
theorem exec_preserves {P : State → Prop} {i : Instr} {s t : State}
    (hseq : ∀ u cp rs fcode epc einfo, P u →
      P { u with cp := cp, runstate := rs, fcode := fcode, epc := epc, einfo := einfo })
    (hw : ∀ u u', Write i u u' → P u → P u') (h : exec i s = .next t) (hs : P s) : P t := by
  rcases exec_cases h with ⟨f, info, rfl⟩ | ⟨-, rfl⟩ | ⟨u, hu, rfl⟩
  · exact hseq s _ _ _ _ _ hs
  · exact hseq s _ _ _ _ _ hs
  · refine hseq u _ _ _ _ _ ?_
    clear h
    induction hu with
    | refl => exact hs
    | tail _ w ih => exact hw _ _ w ih

/-- A part of the state that no write of a command changes, the command leaves unchanged. -/
theorem exec_keeps {α : Type} (part : State → α) {i : Instr} {s t : State} (h : exec i s = .next t)
    (hseq : ∀ u cp rs fcode epc einfo,
      part { u with cp := cp, runstate := rs, fcode := fcode, epc := epc, einfo := einfo } = part u)
    (hw : ∀ u u', Write i u u' → part u' = part u) : part t = part s :=
  exec_preserves (P := fun u => part u = part s) (fun u _ _ _ _ _ hu => (hseq u _ _ _ _ _).trans hu)
    (fun u u' w hu => (hw u u' w).trans hu) h rfl

section

variable {i : Instr} {u u' : State}

theorem Write.buf_eq (w : Write i u u') (hstb : ∀ r2 imm r1, i ≠ .stb r2 imm r1)
    (htobytes : ∀ k r1 r2 r3, i ≠ .bsTobytes k r1 r2 r3) : u'.buf = u.buf := by
  cases w with
  | stb => exact absurd rfl (hstb _ _ _)
  | bsTobytes => exact absurd rfl (htobytes _ _ _ _)
  | stream => simp
  | _ => rfl

theorem Write.cw_eq (w : Write i u u') (hstc : ∀ r2 imm r1, i ≠ .stc r2 imm r1) (henc : ∀ r1 r2, i ≠ .rsEnc r1 r2)
    (hdec : ∀ rd r1 r2, i ≠ .rsDec rd r1 r2) : u'.cw = u.cw := by
  cases w with
  | stc => exact absurd rfl (hstc _ _ _)
  | rsEnc => exact absurd rfl (henc _ _)
  | rsDec => exact absurd rfl (hdec _ _ _)
  | stream => simp
  | _ => rfl

theorem Write.er_eq (w : Write i u u') (herase : ∀ r, i ≠ .rsErase r) (herclr : i ≠ .rsErclr) : u'.er = u.er := by
  cases w with
  | rsErase => exact absurd rfl (herase _)
  | rsErclr => exact absurd rfl herclr
  | stream => simp
  | _ => rfl

theorem Write.stream_eq (w : Write i u u') {k : StreamId} (hk : writesStream i ≠ some k) :
    u'.stream k = u.stream k := by
  cases w with
  | stream _ k' _ h =>
    rw [State.stream_setStream, if_neg]
    rintro rfl
    exact hk h
  | _ => cases k <;> rfl

theorem Write.reg_eq (w : Write i u u') {r : Reg} (hr : writesReg i ≠ some r) : u'.reg r = u.reg r := by
  cases w with
  | reg _ _ h =>
    rw [State.reg_setReg, if_neg]
    rintro rfl
    exact hr h
  | stream => simp
  | _ => rfl

/-- The mode registers ME_MODE, SHV and SHM (10_state.md R22). -/
def State.modeRegisters (s : State) : BitVec 8 × Bool × BitVec 8 := (s.meMode, s.shv, s.shm)

theorem Write.modeRegisters_eq (w : Write i u u') (hi : isModeCommand i = false) :
    u'.modeRegisters = u.modeRegisters := by
  cases w with
  | meInit => cases hi
  | mode h | shift h | clearShift _ h => simp [hi] at h
  | stream => simp [State.modeRegisters]
  | _ => rfl

/-- The five configuration registers of the field (10_state.md R18). -/
def State.gfRegisters (s : State) : Word × Word × Word × Word × Word :=
  (s.gfKind, s.gfSize, s.gfPoly, s.gfAlpha, s.gfBase)

theorem Write.gfRegisters_eq (w : Write i u u') (hi : ∀ n r, i ≠ .csrw n r) : u'.gfRegisters = u.gfRegisters := by
  cases w with
  | csrw => exact absurd rfl (hi _ _)
  | stream => simp [State.gfRegisters]
  | _ => rfl

/-- The tables EXP and LOG (10_state.md R19). -/
def State.tables (s : State) : List Nat × List Nat := (s.exp, s.log)

theorem Write.tables_eq (w : Write i u u') (hi : i ≠ .gfBuild) : u'.tables = u.tables := by
  cases w with
  | gfBuild => exact absurd rfl hi
  | stream => simp [State.tables]
  | _ => rfl

/-- Only GF.BUILD sets GF_VALID (10_state.md R18). -/
theorem Write.gfValid_false (w : Write i u u') (hi : i ≠ .gfBuild) (hu : u.gfValid = false) : u'.gfValid = false := by
  cases w with
  | gfBuild => exact absurd rfl hi
  | csrw => rfl
  | stream => simpa using hu
  | _ => exact hu

end

section

variable {i : Instr} {s t : State}

theorem exec_modeRegisters (h : exec i s = .next t) (hi : isModeCommand i = false) :
    t.modeRegisters = s.modeRegisters :=
  exec_keeps State.modeRegisters h (fun _ _ _ _ _ _ => rfl) fun _ _ w => w.modeRegisters_eq hi

theorem exec_gfRegisters (h : exec i s = .next t) (hi : ∀ n r, i ≠ .csrw n r) : t.gfRegisters = s.gfRegisters :=
  exec_keeps State.gfRegisters h (fun _ _ _ _ _ _ => rfl) fun _ _ w => w.gfRegisters_eq hi

theorem exec_tables (h : exec i s = .next t) (hi : i ≠ .gfBuild) : t.tables = s.tables :=
  exec_keeps State.tables h (fun _ _ _ _ _ _ => rfl) fun _ _ w => w.tables_eq hi

theorem exec_gfValid_false (h : exec i s = .next t) (hi : i ≠ .gfBuild) (hs : s.gfValid = false) :
    t.gfValid = false :=
  exec_preserves (P := fun u => u.gfValid = false) (fun _ _ _ _ _ _ hu => hu)
    (fun _ _ w hu => w.gfValid_false hi hu) h hs

/-- A field command raises InvalidConfig(0) while no field is built (42_galois_field.md R130). -/
theorem fieldCommand_of_unbuilt (hv : s.gfValid = false) (operands : List Nat) (command : Result) :
    s.fieldCommand operands command = .next (faultedState s 10 0) := by
  rcases s.fieldCommand_cases operands command with ⟨-, e⟩ | ⟨hv', -⟩
  · exact e
  · exact absurd (hv.symm.trans hv') (by decide)

/-- CSRR of an assigned number (40_system_and_memory_commands.md R83). -/
theorem exec_csrr_number (rd : Reg) (c : Csr) (s : State) :
    exec (.csrr rd c.number) s = (s.setReg rd (s.csrRead c)).complete := by
  change execCsrr rd c.number s = _
  rw [execCsrr, Csr.ofNumber_number]

/-- CSRW of an assigned number (40_system_and_memory_commands.md R84). -/
theorem exec_csrw_number {c : Csr} {rs1 : Reg} {u : State} (h : s.csrWrite c (s.reg rs1) = some u) :
    exec (.csrw c.number rs1) s = u.complete := by
  change execCsrw c.number rs1 s = _
  rw [execCsrw, Csr.ofNumber_number, Option.bind_some, h]

/-- A completed register write, as the statements say it. -/
theorem wroteReg_setReg (s : State) (rd : Reg) (v : Word) : WroteReg s (s.setReg rd v).advance rd v :=
  ⟨rfl, fun r => by rw [State.reg_advance, State.reg_setReg]⟩

/-- A number of 0 to 2 is STATUS, EPC or EINFO, which read 0 while running (10_state.md R16, R17). -/
theorem statusRegister_reads_zero {n : BitVec 12} (hn : n.toNat ≤ 2) (hs : s.Inv) (hrun : s.runstate = .run) :
    ∃ c : Csr, c.number = n ∧ s.csrRead c = 0 := by
  obtain ⟨hfcode, hepc, heinfo⟩ := hs.fault.1 (by simp [hrun])
  have hcases : n = 0x000 ∨ n = 0x001 ∨ n = 0x002 := by bv_omega
  rcases hcases with rfl | rfl | rfl
  · exact ⟨.status, rfl, by rw [State.csrRead, hrun, hfcode]; rfl⟩
  · exact ⟨.epc, rfl, hepc⟩
  · exact ⟨.einfo, rfl, heinfo⟩

/-- A number of 0x010 to 0x014 is one of the five writable registers (10_state.md R16). -/
theorem exists_writable_csr {n : BitVec 12} (h1 : 0x010 ≤ n.toNat) (h2 : n.toNat ≤ 0x014) :
    ∃ c : Csr, c.number = n ∧ c.writable = true := by
  have hcases : n = 0x010 ∨ n = 0x011 ∨ n = 0x012 ∨ n = 0x013 ∨ n = 0x014 := by bv_omega
  rcases hcases with rfl | rfl | rfl | rfl | rfl
  · exact ⟨.gfKind, rfl, rfl⟩
  · exact ⟨.gfSize, rfl, rfl⟩
  · exact ⟨.gfPoly, rfl, rfl⟩
  · exact ⟨.gfAlpha, rfl, rfl⟩
  · exact ⟨.gfBase, rfl, rfl⟩

/-- What CSRR reads of a writable register, as the statements say it (10_state.md R16). -/
theorem csrNumberValue_of_writable {c : Csr} (hc : c.writable = true) (s : State) :
    csrNumberValue s c.number.toNat = some (s.csrRead c).toNat := by
  cases c with
  | gfKind | gfSize | gfPoly | gfAlpha | gfBase => rfl
  | _ => cases hc

@[simp] theorem State.csrRead_advance (s : State) (c : Csr) : s.advance.csrRead c = s.csrRead c := by
  cases c <;> rfl

end

/-- Settles O6: every command but HALT raises a fault, which leaves CP, or completes with CP advanced. -/
theorem cpAdvancesUnlessHaltOrFault : Obligations.CpAdvancesUnlessHaltOrFault := by
  intro i s hrun
  by_cases hi : i = .halt
  · subst hi
    exact ⟨_, rfl, .inr (.inr ⟨rfl, rfl, rfl⟩)⟩
  · rcases answers_exec hi s with ⟨f, info, e⟩ | ⟨u, e, hu⟩
    · exact ⟨_, e, .inr (.inl ⟨rfl, hi, rfl⟩)⟩
    · exact ⟨_, e, .inl ⟨hu.runstate.trans hrun, hi, congrArg (· + 1) hu.cp⟩⟩

/-- Settles O14: a fault and HALT write only the sequencer's registers, and a completing command keeps the run's inputs. -/
theorem runInputsNeverChange : Obligations.RunInputsNeverChange := by
  intro s t h
  obtain ⟨w, -, -, hcases⟩ := step_cases h
  rcases hcases with ⟨f, info, rfl⟩ | ⟨-, rfl⟩ | ⟨i, u, -, -, -, rfl, hu⟩
  · exact ⟨rfl, rfl, rfl⟩
  · exact ⟨rfl, rfl, rfl⟩
  · exact ⟨hu.prog, hu.mt, hu.params⟩

/-- Settles O15: fault entry alone writes the three registers, and the invariant keeps them 0 until then. -/
theorem statusRegistersReadZeroWhileRunning : Obligations.StatusRegistersReadZeroWhileRunning := by
  refine ⟨fun i s t h hnf => ?_, fun s rd n hs hrun hn => ?_⟩
  · by_cases hi : i = .halt
    · subst hi
      cases h
      exact ⟨rfl, rfl, rfl⟩
    · rcases answers_exec hi s with ⟨f, info, e⟩ | ⟨u, e, hu⟩ <;> rw [e] at h <;> cases h
      · exact absurd rfl hnf
      · exact ⟨hu.fcode, hu.epc, hu.einfo⟩
  · obtain ⟨c, rfl, hc⟩ := statusRegister_reads_zero hn hs hrun
    exact ⟨_, exec_csrr_number rd c s, hc ▸ wroteReg_setReg s rd (s.csrRead c)⟩

/-- Settles O16: CSRW's one write clears GF_VALID; no other command writes the five registers, and none but GF.BUILD sets
GF_VALID. -/
theorem onlyBuildValidatesField : Obligations.OnlyBuildValidatesField := by
  refine ⟨fun s n rs1 h1 h2 => ?_, fun i s t h hs ht => ?_, fun i s t h hi => ?_⟩
  · obtain ⟨c, rfl, hc⟩ := exists_writable_csr h1 h2
    obtain ⟨u, hu⟩ := Option.isSome_iff_exists.1 ((s.csrWrite_isSome c (s.reg rs1)).trans hc)
    obtain ⟨-, hvalid, hread, -⟩ := State.csrWrite_eq_some hu
    refine ⟨_, exec_csrw_number hu, hvalid, ?_⟩
    rw [csrNumberValue_of_writable hc, State.csrRead_advance, hread]
  · by_contra hi
    exact absurd (ht.symm.trans (exec_gfValid_false h hi hs)) (by decide)
  · simpa [State.gfRegisters] using exec_gfRegisters h hi

/-- Settles O17: GF.BUILD alone writes the tables, and the ten commands that read them check GF_VALID first. -/
theorem tablesUnreadableUntilBuilt : Obligations.TablesUnreadableUntilBuilt := by
  refine ⟨fun i s t h hi => by simpa [State.tables] using exec_tables h hi, fun s rd rs1 rs2 hv => ?_⟩
  have hfield := fieldCommand_of_unbuilt hv
  simp only [List.forall_mem_cons]
  exact ⟨hfield _ _, hfield _ _, hfield _ _, hfield _ _, hfield _ _, hfield _ _, hfield _ _, if_pos hv, if_pos hv,
    if_pos hv, fun i hi => absurd hi List.not_mem_nil⟩

/-- Settles O18: each space, stream and register is kept by every write of a command that does not name it. -/
theorem spacesWrittenOnlyByTheirCommands : Obligations.SpacesWrittenOnlyByTheirCommands := by
  intro i s t h
  refine ⟨fun hstb hto => ?_, fun hstc henc hdec => ?_, fun herase herclr => ?_, fun k hk => ?_, fun r hr => ?_,
    fun hi => ?_⟩
  · exact exec_keeps State.buf h (fun _ _ _ _ _ _ => rfl) fun _ _ w => w.buf_eq hstb hto
  · exact exec_keeps State.cw h (fun _ _ _ _ _ _ => rfl) fun _ _ w => w.cw_eq hstc henc hdec
  · exact exec_keeps State.er h (fun _ _ _ _ _ _ => rfl) fun _ _ w => w.er_eq herase herclr
  · exact exec_keeps (State.stream · k) h (fun _ _ _ _ _ _ => by cases k <;> rfl) fun _ _ w => w.stream_eq hk
  · exact exec_keeps (State.reg · r) h (fun _ _ _ _ _ _ => rfl) fun _ _ w => w.reg_eq hr
  · simpa [State.modeRegisters] using exec_modeRegisters h hi

end Sys2Proof.Machine

/-! ## Reset (10_state.md R26) -/

namespace Sys2Proof.Machine

/-- ME_MODE after reset is DM (10_state.md R26). -/
theorem State.afterReset_mode (params : Params) (mt : ModeTable) (prog : List CmdWord) :
    (State.afterReset params (some mt) prog).mode = mt.raw.dm := mt.toNat_ofNat_mode mt.facts.dm_lt

/-- A reset with a program of less than 2^32 commands meets the invariant (10_state.md R26). -/
theorem State.afterReset_inv (params : Params) (mt : Option ModeTable) {prog : List CmdWord}
    (h : prog.length < 2 ^ 32) : (State.afterReset params mt prog).Inv where
  memory := State.afterReset_memoryInv params mt prog
  streams := ⟨Nat.zero_le _, Nat.zero_le _⟩
  cp := ⟨h, Nat.zero_le _⟩
  fault := ⟨fun _ => ⟨rfl, rfl, rfl⟩, fun hf => by cases hf⟩
  field := fun hv => by cases hv
  modes := by
    cases mt with
    | none => exact ⟨fun _ => rfl, rfl, rfl⟩
    | some mt =>
      refine ⟨fun _ => rfl, ?_, fun hv => by cases hv⟩
      rw [State.afterReset_mode]
      exact mt.facts.dm_lt

/-- Settles O10: the reset state field by field; DM of a well-formed table fits the 8 bits of ME_MODE. -/
theorem resetGivesTableValues : Obligations.ResetGivesTableValues := by
  intro params mt prog
  refine ⟨fun r => ?_, rfl, rfl, rfl, rfl, rfl, rfl, rfl, rfl, rfl, rfl, rfl, ?_, ?_, rfl, rfl, ?_, fun _ => rfl,
    fun _ => rfl, fun _ => rfl, rfl, rfl, rfl⟩
  · exact Vector.getElem_replicate _
  · rintro t rfl
    exact State.afterReset_mode params t prog
  · rintro rfl
    rfl
  · rintro (_ | _) <;> rfl

/-- Settles O12: State.reset is the reset with the default inputs, whose program is empty. -/
theorem resetMeetsInvariant : Obligations.ResetMeetsInvariant :=
  ⟨State.afterReset_inv _ _ (by decide), fun params mt _ h => State.afterReset_inv params mt h⟩

end Sys2Proof.Machine

/-! ## The encoding (30_encoding.md)

A word is a command exactly when some opcode's row matches its fields and that opcode's immediate is in range. The
fields of the command built are then the word's own, which makes decoding and encoding inverse to each other. -/

namespace Sys2Proof

open Machine

/-! ### What the operand builder answers -/

/-- The immediates an opcode takes (30_encoding.md R61, R66 (d), (e)). -/
def Op.ImmOk : Op → Nat → Prop
  | .csrr, n => n < 2 ^ 12 ∧ n ∈ Csr.all.map fun c => c.number.toNat
  | .csrw, n => n < 2 ^ 12 ∧ n ∈ (Csr.all.filter Csr.writable).map fun c => c.number.toNat
  | .meLatch, n | .meShift, n => n < 2 ^ 8
  | .meSym, n => n = 1 ∨ n = 2
  | _, _ => True

theorem Op.build_csrr_eq_ok {f : Fields} {i : Instr} : Op.csrr.build f = .ok i ↔
    f.imm.toNat < 2 ^ 12 ∧ csrReadable (f.imm.setWidth 12) = true ∧ .csrr f.rd.toFin (f.imm.setWidth 12) = i := by
  simp only [Op.build]
  split_ifs <;> simp_all

theorem Op.build_csrw_eq_ok {f : Fields} {i : Instr} : Op.csrw.build f = .ok i ↔
    f.imm.toNat < 2 ^ 12 ∧ csrWritable (f.imm.setWidth 12) = true ∧ .csrw (f.imm.setWidth 12) f.rs1.toFin = i := by
  simp only [Op.build]
  split_ifs <;> simp_all

theorem Op.build_meLatch_eq_ok {f : Fields} {i : Instr} : Op.meLatch.build f = .ok i ↔
    f.imm.toNat < 2 ^ 8 ∧ .meLatch (StreamId.ofBit f.k) (f.imm.setWidth 8) = i := by
  simp only [Op.build]
  split_ifs <;> simp_all

theorem Op.build_meShift_eq_ok {f : Fields} {i : Instr} : Op.meShift.build f = .ok i ↔
    f.imm.toNat < 2 ^ 8 ∧ .meShift (StreamId.ofBit f.k) (f.imm.setWidth 8) = i := by
  simp only [Op.build]
  split_ifs <;> simp_all

theorem Op.build_meSym_eq_ok {f : Fields} {i : Instr} : Op.meSym.build f = .ok i ↔
    (f.imm = 1 ∨ f.imm = 2) ∧ .meSym (StreamId.ofBit f.k) f.rs1.toFin (f.imm.setWidth 2) = i := by
  simp only [Op.build]
  split_ifs <;> simp_all

theorem Csr.ofNumber_eq_some_iff {n : BitVec 12} {c : Csr} : Csr.ofNumber n = some c ↔ c.number = n :=
  ⟨Csr.number_of_ofNumber, fun h => h ▸ Csr.ofNumber_number c⟩

theorem Csr.mem_all (c : Csr) : c ∈ Csr.all := List.mem_of_find?_eq_some (Csr.ofNumber_number c)

theorem csrReadable_iff {n : BitVec 12} : csrReadable n = true ↔ n.toNat ∈ Csr.all.map fun c => c.number.toNat := by
  simp [csrReadable, Option.isSome_iff_exists, Csr.ofNumber_eq_some_iff, Csr.mem_all, BitVec.toNat_inj]

theorem csrWritable_iff {n : BitVec 12} :
    csrWritable n = true ↔ n.toNat ∈ (Csr.all.filter Csr.writable).map fun c => c.number.toNat := by
  simp [csrWritable, Option.any_eq_true, Csr.ofNumber_eq_some_iff, Csr.mem_all, BitVec.toNat_inj, and_comm]

/-- The builder answers a command exactly when the immediate is in the opcode's range. -/
theorem Op.exists_build_eq_ok_iff (o : Op) (f : Fields) : (∃ i, o.build f = .ok i) ↔ o.ImmOk f.imm.toNat := by
  cases o with
  | csrr =>
    simp only [Op.build_csrr_eq_ok, csrReadable_iff, Op.ImmOk, exists_and_left, exists_eq', and_true,
      BitVec.toNat_setWidth]
    exact and_congr_right fun h => by rw [Nat.mod_eq_of_lt h]
  | csrw =>
    simp only [Op.build_csrw_eq_ok, csrWritable_iff, Op.ImmOk, exists_and_left, exists_eq', and_true,
      BitVec.toNat_setWidth]
    exact and_congr_right fun h => by rw [Nat.mod_eq_of_lt h]
  | meLatch => simp [Op.build_meLatch_eq_ok, Op.ImmOk]
  | meShift => simp [Op.build_meShift_eq_ok, Op.ImmOk]
  | meSym => simp [Op.build_meSym_eq_ok, Op.ImmOk, ← BitVec.toNat_inj]
  | _ => exact iff_of_true ⟨_, rfl⟩ trivial

/-! ### Decoding inverts encoding -/

open Laws.EncodedForm in
theorem encodedForm : ∀ i : Instr, Statement i
  | .nop => nop | .halt => halt | .li .. => li .. | .csrr .. => csrr .. | .csrw .. => csrw ..
  | .ldb .. => ldb .. | .stb .. => stb .. | .ldc .. => ldc .. | .stc .. => stc ..
  | .bsClr .. => bsClr .. | .bsAppendbit .. => bsAppendbit .. | .bsAppend .. => bsAppend .. | .bsSize .. => bsSize ..
  | .bsGet .. => bsGet .. | .bsIsrange .. => bsIsrange .. | .bsTobytes .. => bsTobytes ..
  | .bsReverse .. => bsReverse .. | .bsCopy .. => bsCopy .. | .bsClone .. => bsClone .. | .bsTerm .. => bsTerm ..
  | .gfBuild => gfBuild | .gfAdd .. => gfAdd .. | .gfSub .. => gfSub .. | .gfMul .. => gfMul ..
  | .gfDiv .. => gfDiv .. | .gfInv .. => gfInv .. | .gfExp .. => gfExp .. | .gfLog .. => gfLog ..
  | .rsEnc .. => rsEnc .. | .rsChk .. => rsChk .. | .rsDec .. => rsDec .. | .rsErase .. => rsErase ..
  | .rsErclr => rsErclr
  | .meInit => meInit | .meLatch .. => meLatch .. | .meShift .. => meShift .. | .meUnlatch .. => meUnlatch ..
  | .meSym .. => meSym .. | .meBshift .. => meBshift .. | .meEncode .. => meEncode ..

/-- Selector bits 0 and 1 of a packed selector field (30_encoding.md R60). -/
@[simp] theorem selField_bit_zero (k ks : StreamId) : (selField k ks)[0] = k.bit := by cases k <;> cases ks <;> rfl

@[simp] theorem selField_bit_one (k ks : StreamId) : (selField k ks)[1] = ks.bit := by cases k <;> cases ks <;> rfl

/-- An operand of n bits is read back from the immediate field it is written to. -/
@[simp] theorem operand_of_imm {n : Nat} (hn : n ≤ 32) (v : BitVec n) : (v.setWidth 32).setWidth n = v := by
  rw [BitVec.setWidth_setWidth_of_le v hn, BitVec.setWidth_eq]

/-- An operand of n bits makes an immediate below 2^n. -/
theorem imm_lt_of_operand {n : Nat} (hn : n ≤ 32) (v : BitVec n) : (v.setWidth 32).toNat < 2 ^ n := by
  rw [BitVec.toNat_setWidth_of_le hn]
  exact v.isLt

/-- An immediate in range is the n-bit operand read from it. -/
theorem imm_of_operand {n : Nat} {imm : Word} (h : imm.toNat < 2 ^ n) : (imm.setWidth n).setWidth 32 = imm := by
  apply BitVec.eq_of_toNat_eq
  rw [BitVec.toNat_setWidth, BitVec.toNat_setWidth, Nat.mod_eq_of_lt h, Nat.mod_eq_of_lt imm.isLt]

theorem symLenOk_iff {len : BitVec 2} : symLenOk len = true ↔ len = 1 ∨ len = 2 := by simp [symLenOk]

/-- The builder gives a well-formed command back from its own fields. -/
theorem Op.build_fields {i : Instr} (hi : i.wellFormed = true) : i.op.build i.fields = .ok i := by
  cases i with
  | csrr rd csr =>
    refine Op.build_csrr_eq_ok.2 ⟨imm_lt_of_operand (by decide) csr, ?_, ?_⟩
    · simpa [Instr.fields, Instr.wellFormed] using hi
    · simp [Instr.fields]
  | csrw csr rs1 =>
    refine Op.build_csrw_eq_ok.2 ⟨imm_lt_of_operand (by decide) csr, ?_, ?_⟩
    · simpa [Instr.fields, Instr.wellFormed] using hi
    · simp [Instr.fields]
  | meLatch k mode =>
    exact Op.build_meLatch_eq_ok.2 ⟨imm_lt_of_operand (by decide) mode, by simp [Instr.fields, Fields.k]⟩
  | meShift k mode =>
    exact Op.build_meShift_eq_ok.2 ⟨imm_lt_of_operand (by decide) mode, by simp [Instr.fields, Fields.k]⟩
  | meSym k rs1 len =>
    refine Op.build_meSym_eq_ok.2 ⟨?_, by simp [Instr.fields, Fields.k]⟩
    rcases symLenOk_iff.1 hi with rfl | rfl
    · exact .inl rfl
    · exact .inr rfl
  | _ => simp [Op.build, Instr.op, Instr.fields, Fields.k, Fields.ks]

/-! ### Encoding inverts decoding -/

/-- The fields of a word with those an opcode does not use cleared (30_encoding.md R65). -/
def Op.usedFields (o : Op) (f : Fields) : Fields where
  op := o.code
  rd := if o.uses.rd then f.rd else 0
  rs1 := if o.uses.rs1 then f.rs1 else 0
  rs2 := if o.uses.rs2 then f.rs2 else 0
  rs3 := if o.uses.rs3 then f.rs3 else 0
  sel := selField (if o.uses.k then .ofBit f.k else .bs0) (if o.uses.ks then .ofBit f.ks else .bs0)
  imm := if o.uses.imm then f.imm else 0

/-- The row of an opcode matches the fields: its opcode byte, and zero in each unused field and in bits 39:34
(30_encoding.md R65, R66 (a) to (c)). -/
def Op.Matches (o : Op) (f : Fields) : Prop :=
  f.op = o.code ∧ f.unusedZero o.uses = true ∧ f.reserved = 0

theorem Op.ofCode_eq_some_iff {c : BitVec 8} {o : Op} : Op.ofCode c = some o ↔ c = o.code :=
  ⟨fun h => (Op.code_of_ofCode h).symm, fun h => h ▸ Op.ofCode_code o⟩

theorem decode_eq_ok_iff {w : CmdWord} {i : Instr} :
    decode w = .ok i ↔ ∃ o : Op, o.Matches (Fields.ofWord w) ∧ o.build (Fields.ofWord w) = .ok i := by
  simp only [decode_ok_iff, Op.Matches, Op.ofCode_eq_some_iff, and_assoc]

theorem selField_ofBit {f : Fields} (h : f.reserved = 0) : selField (.ofBit f.k) (.ofBit f.ks) = f.sel := by
  have hsel : ∀ v : BitVec 8, v.extractLsb' 2 6 = 0 → selField (.ofBit (v.getLsbD 0)) (.ofBit (v.getLsbD 1)) = v := by
    decide
  exact hsel f.sel h

theorem ite_zero_eq {n : Nat} {b : Bool} {v : BitVec n} (h : b = true ∨ v = 0) : (if b then v else 0) = v := by
  cases b <;> simp_all

theorem ite_bs0_eq {b k : Bool} (h : b = true ∨ k = false) :
    (if b then StreamId.ofBit k else .bs0) = StreamId.ofBit k := by
  cases b <;> simp_all [StreamId.ofBit]

/-- Clearing the unused fields changes nothing when the opcode's row matches. -/
theorem Op.usedFields_of_matches {o : Op} {f : Fields} (h : o.Matches f) : o.usedFields f = f := by
  obtain ⟨hop, hu, hr⟩ := h
  simp only [Fields.unusedZero, Bool.and_eq_true, Bool.or_eq_true, beq_iff_eq, Bool.not_eq_true'] at hu
  obtain ⟨⟨⟨⟨⟨⟨hrd, hrs1⟩, hrs2⟩, hrs3⟩, hk⟩, hks⟩, himm⟩ := hu
  rw [Op.usedFields, ite_zero_eq hrd, ite_zero_eq hrs1, ite_zero_eq hrs2, ite_zero_eq hrs3, ite_bs0_eq hk,
    ite_bs0_eq hks, ite_zero_eq himm, selField_ofBit hr, ← hop]

theorem Op.wellFormed_of_build {o : Op} {f : Fields} {i : Instr} (h : o.build f = .ok i) : i.wellFormed = true := by
  cases o with
  | csrr =>
    obtain ⟨-, hcsr, rfl⟩ := Op.build_csrr_eq_ok.1 h
    exact hcsr
  | csrw =>
    obtain ⟨-, hcsr, rfl⟩ := Op.build_csrw_eq_ok.1 h
    exact hcsr
  | meLatch =>
    obtain ⟨-, rfl⟩ := Op.build_meLatch_eq_ok.1 h
    rfl
  | meShift =>
    obtain ⟨-, rfl⟩ := Op.build_meShift_eq_ok.1 h
    rfl
  | meSym =>
    obtain ⟨hlen, rfl⟩ := Op.build_meSym_eq_ok.1 h
    exact symLenOk_iff.2 (hlen.imp (congrArg _) (congrArg _))
  | _ => cases h; rfl

/-- The fields of the command built are those the opcode uses. -/
theorem Op.fields_of_build {o : Op} {f : Fields} {i : Instr} (h : o.build f = .ok i) : i.fields = o.usedFields f := by
  cases o with
  | csrr =>
    obtain ⟨himm, -, rfl⟩ := Op.build_csrr_eq_ok.1 h
    rw [Instr.fields, imm_of_operand himm]
    rfl
  | csrw =>
    obtain ⟨himm, -, rfl⟩ := Op.build_csrw_eq_ok.1 h
    rw [Instr.fields, imm_of_operand himm]
    rfl
  | meLatch =>
    obtain ⟨himm, rfl⟩ := Op.build_meLatch_eq_ok.1 h
    rw [Instr.fields, imm_of_operand himm]
    rfl
  | meShift =>
    obtain ⟨himm, rfl⟩ := Op.build_meShift_eq_ok.1 h
    rw [Instr.fields, imm_of_operand himm]
    rfl
  | meSym =>
    obtain ⟨hlen, rfl⟩ := Op.build_meSym_eq_ok.1 h
    rw [Instr.fields, imm_of_operand (by rcases hlen with h | h <;> simp [h])]
    rfl
  | _ => cases h; rfl

/-! ### The opcode table -/

/-- The mask of bits 39:32: bits 39:34, and each selector bit that is not used (30_encoding.md R65). -/
def selMask (k ks : Bool) : BitVec 8 :=
  BitVec.allOnes 6 ++ (if ks then 0 else BitVec.allOnes 1) ++ (if k then 0 else BitVec.allOnes 1)

/-- The mask of an opcode's row: 1 at each bit the command fixes (30_encoding.md R65). -/
def Op.rowMask (o : Op) : Fields where
  op := .allOnes 8
  rd := if o.uses.rd then 0 else .allOnes 4
  rs1 := if o.uses.rs1 then 0 else .allOnes 4
  rs2 := if o.uses.rs2 then 0 else .allOnes 4
  rs3 := if o.uses.rs3 then 0 else .allOnes 4
  sel := selMask o.uses.k o.uses.ks
  imm := if o.uses.imm then 0 else .allOnes 32

/-- The match of an opcode's row: the opcode byte, zeros elsewhere (30_encoding.md R65). -/
def Op.rowMatch (o : Op) : Fields := { op := o.code }

theorem tableRows_eq : tableRows = Op.all.map fun o => (o.rowMatch.toWord, o.rowMask.toWord) := by decide

theorem Fields.toWord_and (f g : Fields) : f.toWord &&& g.toWord =
    Fields.toWord ⟨f.op &&& g.op, f.rd &&& g.rd, f.rs1 &&& g.rs1, f.rs2 &&& g.rs2, f.rs3 &&& g.rs3, f.sel &&& g.sel,
      f.imm &&& g.imm⟩ := by
  simp only [Fields.toWord]
  repeat rw [BitVec.and_append]

theorem Fields.toWord_inj {f g : Fields} : f.toWord = g.toWord ↔ f = g :=
  (Function.LeftInverse.injective Fields.ofWord_toWord).eq_iff

theorem and_fieldMask_eq_zero {n : Nat} {b : Bool} {v : BitVec n} :
    v &&& (if b then 0 else .allOnes n) = 0 ↔ (b || v == 0) = true := by
  cases b <;> simp

theorem and_selMask_eq_zero (k ks : Bool) (v : BitVec 8) :
    v &&& selMask k ks = 0 ↔
      (k || !v.getLsbD 0) = true ∧ (ks || !v.getLsbD 1) = true ∧ v.extractLsb' 2 6 = 0 := by
  revert k ks v
  decide

/-- A word meets a row of the table exactly when the row's opcode matches its fields. -/
theorem Op.matches_iff_row (o : Op) (w : CmdWord) :
    o.Matches (Fields.ofWord w) ↔ w &&& o.rowMask.toWord = o.rowMatch.toWord := by
  conv_rhs => rw [← Fields.toWord_ofWord w]
  rw [Fields.toWord_and, Fields.toWord_inj]
  simp only [Op.rowMask, Op.rowMatch, Fields.mk.injEq, BitVec.and_allOnes, and_fieldMask_eq_zero, and_selMask_eq_zero,
    Op.Matches, Fields.unusedZero, Fields.k, Fields.ks, Fields.reserved, Bool.and_eq_true]
  tauto

theorem Op.mem_all (o : Op) : o ∈ Op.all := List.mem_of_find?_eq_some (Op.ofCode_code o)

theorem no_row_iff {w : CmdWord} :
    (∀ row ∈ tableRows, w &&& row.2 ≠ row.1) ↔ ∀ o : Op, ¬ o.Matches (Fields.ofWord w) := by
  simp [tableRows_eq, Op.mem_all, Op.matches_iff_row]

/-! ### Decoding and encoding are inverse -/

theorem Instr.op_matches (i : Instr) : i.op.Matches (Fields.ofWord (encode i)) := by
  obtain ⟨hfields, hmatches⟩ := encodedForm i
  rwa [hfields]

theorem decode_encode {i : Instr} (hi : i.wellFormed = true) : decode (encode i) = .ok i :=
  decode_eq_ok_iff.2 ⟨i.op, i.op_matches, by rw [(encodedForm i).1, Op.build_fields hi]⟩

theorem wellFormed_of_decode {w : CmdWord} {i : Instr} (h : decode w = .ok i) : i.wellFormed = true := by
  obtain ⟨o, -, hb⟩ := decode_eq_ok_iff.1 h
  exact Op.wellFormed_of_build hb

theorem encode_of_decode {w : CmdWord} {i : Instr} (h : decode w = .ok i) : encode i = w := by
  obtain ⟨o, hm, hb⟩ := decode_eq_ok_iff.1 h
  rw [encode, Op.fields_of_build hb, Op.usedFields_of_matches hm, Fields.toWord_ofWord]

/-! ### Illegal words -/

theorem isIllegal_iff_forall_ne {w : CmdWord} : IsIllegal w ↔ ∀ i, decode w ≠ .ok i := by
  rw [IsIllegal]
  cases decode w <;> simp

/-- A word is illegal exactly when no row matches it or the immediate is out of its opcode's range. -/
theorem isIllegal_iff {w : CmdWord} : IsIllegal w ↔
    (∀ o : Op, ¬ o.Matches (Fields.ofWord w)) ∨ ∃ o : Op, (Fields.ofWord w).op = o.code ∧ ¬ o.ImmOk (immField w) := by
  simp only [isIllegal_iff_forall_ne, ne_eq, decode_eq_ok_iff, not_exists, not_and, immField, ← Fields.imm_ofWord,
    ← Op.exists_build_eq_ok_iff]
  constructor
  · intro h
    by_cases hm : ∃ o : Op, o.Matches (Fields.ofWord w)
    · obtain ⟨o, hm⟩ := hm
      exact .inr ⟨o, hm.1, fun i => h i o hm⟩
    · exact .inl (not_exists.1 hm)
  · rintro (h | ⟨o, hop, himm⟩) i o' hm hb
    · exact h o' hm
    · obtain rfl := Op.code_injective (hop.symm.trans hm.1)
      exact himm i hb

theorem op_eq_code_iff {w : CmdWord} {o : Op} : (Fields.ofWord w).op = o.code ↔ opByte w = o.code.toNat := by
  rw [opByte, ← Fields.op_ofWord, BitVec.toNat_inj]

theorem Op.not_immOk_csrr {n : Nat} : ¬ Op.csrr.ImmOk n ↔
    2 ^ 12 ≤ n ∨ n ∉ [0x000, 0x001, 0x002, 0x010, 0x011, 0x012, 0x013, 0x014, 0x015, 0x020, 0x021] := by
  rw [← Nat.not_lt, ← not_and_or]
  rfl

theorem Op.not_immOk_csrw {n : Nat} : ¬ Op.csrw.ImmOk n ↔ 2 ^ 12 ≤ n ∨ n ∉ [0x010, 0x011, 0x012, 0x013, 0x014] := by
  rw [← Nat.not_lt, ← not_and_or]
  rfl

/-- The clauses (d) and (e) of R66, by opcode. -/
theorem exists_immOutOfRange_iff {w : CmdWord} {n : Nat} :
    (∃ o : Op, (Fields.ofWord w).op = o.code ∧ ¬ o.ImmOk n) ↔
      ((opByte w = 0x03 ∨ opByte w = 0x04) ∧ 2 ^ 12 ≤ n) ∨
      ((opByte w = 0x41 ∨ opByte w = 0x42) ∧ 2 ^ 8 ≤ n) ∨
      (opByte w = 0x44 ∧ n ≠ 1 ∧ n ≠ 2) ∨
      (opByte w = 0x03 ∧
        n ∉ [0x000, 0x001, 0x002, 0x010, 0x011, 0x012, 0x013, 0x014, 0x015, 0x020, 0x021]) ∨
      (opByte w = 0x04 ∧ n ∉ [0x010, 0x011, 0x012, 0x013, 0x014]) := by
  simp only [op_eq_code_iff]
  constructor
  · rintro ⟨o, hop, himm⟩
    cases o with
    | csrr =>
      rcases Op.not_immOk_csrr.1 himm with h | h
      · exact .inl ⟨.inl hop, h⟩
      · exact .inr (.inr (.inr (.inl ⟨hop, h⟩)))
    | csrw =>
      rcases Op.not_immOk_csrw.1 himm with h | h
      · exact .inl ⟨.inr hop, h⟩
      · exact .inr (.inr (.inr (.inr ⟨hop, h⟩)))
    | meLatch => exact .inr (.inl ⟨.inl hop, Nat.le_of_not_lt himm⟩)
    | meShift => exact .inr (.inl ⟨.inr hop, Nat.le_of_not_lt himm⟩)
    | meSym => exact .inr (.inr (.inl ⟨hop, not_or.1 himm⟩))
    | _ => exact absurd trivial himm
  · rintro (⟨hop | hop, h⟩ | ⟨hop | hop, h⟩ | ⟨hop, h⟩ | ⟨hop, h⟩ | ⟨hop, h⟩)
    · exact ⟨.csrr, hop, Op.not_immOk_csrr.2 (.inl h)⟩
    · exact ⟨.csrw, hop, Op.not_immOk_csrw.2 (.inl h)⟩
    · exact ⟨.meLatch, hop, Nat.not_lt.2 h⟩
    · exact ⟨.meShift, hop, Nat.not_lt.2 h⟩
    · exact ⟨.meSym, hop, not_or.2 h⟩
    · exact ⟨.csrr, hop, Op.not_immOk_csrr.2 (.inr h)⟩
    · exact ⟨.csrw, hop, Op.not_immOk_csrw.2 (.inr h)⟩

/-- The step of an illegal word is fault entry with IllegalCommand and the opcode byte (30_encoding.md R66). -/
theorem step_of_isIllegal {s : State} {w : CmdWord} (hrun : s.runstate = .run) (hw : s.prog[s.cp.toNat]? = some w)
    (h : IsIllegal w) : step s = .next (faultedState s 1 (opByte w)) := by
  obtain ⟨e, he⟩ := h
  rw [step_of_illegal (State.fetch_ok_iff.2 ⟨hrun, hw⟩) he, opByte, ← Fields.op_ofWord]
  rfl

/-! ### The statements -/

/-- Settles O1: the word's fields are the command's own, whose row matches, and the builder gives the command back. -/
theorem decodeInvertsEncode : Obligations.DecodeInvertsEncode :=
  fun _ => decode_encode

/-- Settles O2: a decoded word's command has the word's fields, and by O1 no other well-formed command encodes to it. -/
theorem wordIsOneCommandOrIllegal : Obligations.WordIsOneCommandOrIllegal := by
  intro w
  cases hd : decode w with
  | ok i =>
    refine .inl ⟨i, rfl, wellFormed_of_decode hd, encode_of_decode hd, ?_⟩
    rintro j hj rfl
    exact Except.ok.inj ((decode_encode hj).symm.trans hd)
  | error e =>
    refine .inr ⟨⟨e, hd⟩, ?_⟩
    rintro j hj rfl
    exact absurd ((decode_encode hj).symm.trans hd) nofun

/-- Settles O3: no row of the table matches, or the opcode's immediate is out of range. -/
theorem illegalWordsRaiseIllegalCommand : Obligations.IllegalWordsRaiseIllegalCommand := by
  intro w
  refine ⟨?_, fun h s hrun hw => step_of_isIllegal hrun hw h⟩
  rw [isIllegal_iff, no_row_iff, exists_immOutOfRange_iff]

/-- Settles O4: the eight words, computed. -/
theorem workedEncodingsDecode : Obligations.WorkedEncodingsDecode := by
  unfold Obligations.WorkedEncodingsDecode
  decide

end Sys2Proof

/-! ## The step, system commands, loads and stores (40_system_and_memory_commands.md)

A word is illegal exactly when its opcode's row does not match or its immediate is out of that opcode's range. A CSR
number means the same to the statements' tables and to the model's. A load and a store are each one checked access,
stated once for BUF and CW. -/

namespace Sys2Proof

open Machine

/-! ### Illegal words of an assigned opcode -/

/-- With the opcode known, the row and the immediate's range of that opcode decide (30_encoding.md R66). -/
theorem isIllegal_iff_of_opByte {w : CmdWord} {o : Op} (hop : opByte w = o.code.toNat) :
    IsIllegal w ↔ ¬ o.Matches (Fields.ofWord w) ∨ ¬ o.ImmOk (immField w) := by
  have hopField : (Fields.ofWord w).op = o.code := op_eq_code_iff.2 hop
  have hunique : ∀ o' : Op, (Fields.ofWord w).op = o'.code → o' = o := fun o' h =>
    Op.code_injective (h.symm.trans hopField)
  rw [isIllegal_iff]
  constructor
  · rintro (h | ⟨o', hop', himm⟩)
    · exact .inl (h o)
    · exact .inr (hunique o' hop' ▸ himm)
  · rintro (h | himm)
    · exact .inl fun o' hm => h (hunique o' hm.1 ▸ hm)
    · exact .inr ⟨o, hopField, himm⟩

/-- An opcode that uses no field has one word: every other word with its opcode byte is illegal. -/
theorem isIllegal_of_no_operands {w : CmdWord} {o : Op} (hmask : o.rowMask.toWord = .allOnes 64)
    (hop : opByte w = o.code.toNat) (hw : w ≠ o.rowMatch.toWord) : IsIllegal w := by
  refine (isIllegal_iff_of_opByte hop).2 (.inl fun hm => hw ?_)
  rwa [Op.matches_iff_row, hmask, BitVec.and_allOnes] at hm

/-- LI uses rd and imm, so its unused fields and bits 39:34 are bits 51:32 (30_encoding.md R60, R65). -/
theorem Op.li_matches_iff {w : CmdWord} (hop : opByte w = 0x02) :
    Op.li.Matches (Fields.ofWord w) ↔ w.extractLsb' 32 20 = 0 := by
  have hsel := and_selMask_eq_zero false false (Fields.ofWord w).sel
  rw [show selMask false false = .allOnes 8 from rfl, BitVec.and_allOnes] at hsel
  have hfields : Op.li.Matches (Fields.ofWord w) ↔ (Fields.ofWord w).rs1 = 0 ∧ (Fields.ofWord w).rs2 = 0 ∧
      (Fields.ofWord w).rs3 = 0 ∧ (Fields.ofWord w).sel = 0 := by
    rw [hsel, Op.Matches, op_eq_code_iff]
    simp [hop, Op.code, Op.uses, Fields.unusedZero, Fields.k, Fields.ks, Fields.reserved, and_assoc]
  rw [hfields]
  simp only [Fields.ofWord, ← BitVec.toNat_inj, BitVec.ofNat_eq_ofNat, BitVec.toNat_zero,
    BitVec.extractLsb'_toNat, Nat.shiftRight_eq_div_pow]
  omega

/-- A number that names no CSR is none of the table's numbers (10_state.md R16). -/
theorem Csr.not_mem_of_ofNumber_none {n : BitVec 12} (h : Csr.ofNumber n = none) :
    n.toNat ∉ [0x000, 0x001, 0x002, 0x010, 0x011, 0x012, 0x013, 0x014, 0x015, 0x020, 0x021] := by
  have hread : csrReadable n ≠ true := by simp [csrReadable, h]
  rwa [ne_eq, csrReadable_iff] at hread

end Sys2Proof

namespace Sys2Proof.Machine

/-! ### CSR numbers -/

theorem toNat_append_eq_add {n m : Nat} (x : BitVec n) (y : BitVec m) :
    (x ++ y).toNat = 2 ^ m * x.toNat + y.toNat := by
  rw [BitVec.toNat_append, ← Nat.shiftLeft_add_eq_or_of_lt y.isLt, Nat.shiftLeft_eq, Nat.mul_comm]

/-- The layout of STATUS as a number (10_state.md R16). -/
theorem statusWord_toNat (r : RunState) (fcode : BitVec 8) :
    (statusWord r fcode).toNat = runstateNumber r + 2 ^ 8 * fcode.toNat := by
  have hcode : r.code.toNat = runstateNumber r := by cases r <;> rfl
  simp only [statusWord, toNat_append_eq_add, hcode, BitVec.ofNat_eq_ofNat, BitVec.toNat_zero]
  omega

/-- The layout of ME_SHIFT as a number (10_state.md R16). -/
theorem meShiftWord_toNat (shv : Bool) (shm : BitVec 8) :
    (meShiftWord shv shm).toNat = shm.toNat + 2 ^ 8 * shv.toNat := by
  simp only [meShiftWord, toNat_append_eq_add, BitVec.toNat_ofBool, BitVec.ofNat_eq_ofNat, BitVec.toNat_zero]
  omega

theorem boolWord_toNat (b : Bool) : (boolWord b).toNat = b.toNat := by cases b <;> rfl

/-- What CSRR reads of every register, as the statements say it (10_state.md R16). -/
theorem csrNumberValue_number (s : State) (c : Csr) : csrNumberValue s c.number.toNat = some (s.csrRead c).toNat := by
  cases c with
  | status => exact congrArg some (statusWord_toNat s.runstate s.fcode).symm
  | meShift => exact congrArg some (meShiftWord_toNat s.shv s.shm).symm
  | gfValid => exact congrArg some (boolWord_toNat s.gfValid).symm
  | meMode => exact congrArg some (BitVec.toNat_setWidth_of_le (by decide)).symm
  | _ => rfl

/-- The value CSRR reads by number is that of the CSR the number names (10_state.md R16). -/
theorem csrNumberValue_eq (s : State) (n : BitVec 12) :
    csrNumberValue s n.toNat = (Csr.ofNumber n).map fun c => (s.csrRead c).toNat := by
  cases h : Csr.ofNumber n with
  | some c => rw [← Csr.number_of_ofNumber h, csrNumberValue_number, Option.map_some]
  | none =>
    have hn := Csr.not_mem_of_ofNumber_none h
    simp only [List.mem_cons, not_or] at hn
    simp [csrNumberValue, hn]

/-- CSRW by number writes the CSR the number names, when it is writable (10_state.md R16, R18). -/
theorem csrWritten_eq (s : State) (n : BitVec 12) (v : Word) :
    csrWritten s n.toNat v = ((Csr.ofNumber n).bind fun c => s.csrWrite c v).map State.advance := by
  cases h : Csr.ofNumber n with
  | some c =>
    rw [← Csr.number_of_ofNumber h]
    cases c <;> rfl
  | none =>
    have hn := Csr.not_mem_of_ofNumber_none h
    simp only [List.mem_cons, not_or] at hn
    simp [csrWritten, hn]

/-- CSRR of a number that names no CSR (40_system_and_memory_commands.md R83). -/
theorem exec_csrr_of_none {n : BitVec 12} (h : Csr.ofNumber n = none) (rd : Reg) (s : State) :
    exec (.csrr rd n) s = s.raise .illegalCommand Op.csrr.code.toNat := by
  change execCsrr rd n s = _
  rw [execCsrr, h]

/-- CSRW of a number that names no writable CSR (40_system_and_memory_commands.md R84). -/
theorem exec_csrw_of_none {n : BitVec 12} {rs1 : Reg} {s : State}
    (h : ((Csr.ofNumber n).bind fun c => s.csrWrite c (s.reg rs1)) = none) :
    exec (.csrw n rs1) s = s.raise .illegalCommand Op.csrw.code.toNat := by
  change execCsrw n rs1 s = _
  rw [execCsrw, h]

/-! ### Checked loads and stores -/

/-- A command that loads entry a of a space, zero-extended, behind the index check (R85, R87). -/
theorem load_outcome {i : Instr} {s : State} {rd : Reg} {w cap a : Nat} {m : Memory w}
    (h : exec i s = if cap ≤ a then s.raise .outOfRange a else (s.setReg rd ((m.read a).setWidth 32)).complete) :
    if cap ≤ a then exec i s = .next (faultedState s 2 a)
    else ∃ t, exec i s = .next t ∧ WroteReg s t rd (BitVec.ofNat 32 (m.read a).toNat) := by
  rw [h, BitVec.ofNat_toNat]
  split
  · rfl
  · exact ⟨_, rfl, wroteReg_setReg s rd _⟩

/-- A command that stores behind the index check and then the value check (R86, R88). -/
theorem store_outcome {i : Instr} {s u : State} {cap bound a v : Nat} {P : State → Prop}
    (h : exec i s =
      if cap ≤ a then s.raise .outOfRange a else if bound ≤ v then s.raise .outOfRange v else u.complete)
    (hP : v < bound → P u.advance) :
    if cap ≤ a then exec i s = .next (faultedState s 2 a)
    else if bound ≤ v then exec i s = .next (faultedState s 2 v)
    else ∃ t, exec i s = .next t ∧ P t := by
  rw [h]
  split
  · rfl
  split
  · rfl
  · exact ⟨_, rfl, hP (Nat.lt_of_not_le ‹_›)⟩

/-- A stored value that fits the entry reads back whole, and every other entry is as before (20_memory.md R41). -/
theorem Memory.toNat_read_write {w cap a b v : Nat} {m : Memory w} (h : m.wf cap = true) (hv : v < 2 ^ w) :
    ((m.write a (BitVec.ofNat w v)).read b).toNat = if b = a then v else (m.read b).toNat := by
  rw [Memory.read_write h, apply_ite BitVec.toNat, BitVec.toNat_ofNat, Nat.mod_eq_of_lt hv]

/-- One codeword written, as the statements say it. -/
theorem wroteCodewords_singleton {s t : State} {a v : Nat} (hframe : t = { s with cw := t.cw, cp := s.cp + 1 })
    (hread : ∀ b, (t.cw.read b).toNat = if b = a then v else (s.cw.read b).toNat) : WroteCodewords s t a [v] := by
  refine ⟨hframe, fun b => ?_⟩
  rw [hread, List.length_singleton]
  by_cases hb : b = a
  · simp [hb]
  · rw [if_neg hb, if_neg (by omega)]

/-! ### The statements -/

/-- Settles O5: a word fetched while running is a command's or illegal, and only a fetched word gives a next state. -/
theorem stepRunsDecodedCommand : Obligations.StepRunsDecodedCommand := by
  refine ⟨fun s w hrun hw => ⟨fun i hd => ?_, step_of_isIllegal hrun hw⟩, fun s t h => ?_⟩
  · exact step_of_command (State.fetch_ok_iff.2 ⟨hrun, hw⟩) hd
  · obtain ⟨w, hrun, hw, -⟩ := step_cases h
    exact ⟨hrun, (List.getElem?_eq_some_iff.1 hw).1⟩

/-- Settles O20: NOP completes with no other write, and its row fixes every bit of the word. -/
theorem nopOnlyAdvances : Obligations.NopOnlyAdvances :=
  ⟨fun _ => rfl, fun _ hop hw => isIllegal_of_no_operands (o := .nop) (by decide) hop hw, by decide⟩

/-- Settles O21: HALT writes RUNSTATE alone, its row fixes every bit of the word, and a step needs RUNSTATE = RUN. -/
theorem haltStopsInPlace : Obligations.HaltStopsInPlace := by
  refine ⟨fun _ => rfl, fun _ hop hw => isIllegal_of_no_operands (o := .halt) (by decide) hop hw, by decide, ?_⟩
  intro s t h hhalted
  obtain ⟨w, hrun, -⟩ := step_cases h
  exact absurd (hrun.symm.trans hhalted) nofun

/-- Settles O22: LI is one register write; its opcode takes every immediate, so only the row can make a word illegal. -/
theorem liLoadsImmediate : Obligations.LiLoadsImmediate := by
  refine ⟨fun rd imm s => ⟨encode_opByte _, _, rfl, wroteReg_setReg s rd imm⟩, fun w hop => ?_⟩
  rw [isIllegal_iff_of_opByte (o := .li) hop, Op.li_matches_iff hop]
  exact or_iff_left (not_not_intro trivial)

/-- Settles O23: the number names a CSR, whose value is written to rd, or names none. -/
theorem csrrReadsRegister : Obligations.CsrrReadsRegister := by
  refine ⟨fun rd n s => ⟨encode_opByte _, ?_⟩, fun w hop himm => ?_, fun s hs hrun n hn => ?_⟩
  · rw [csrNumberValue_eq]
    cases h : Csr.ofNumber n with
    | none => exact exec_csrr_of_none h rd s
    | some c =>
      obtain rfl := Csr.number_of_ofNumber h
      refine ⟨_, exec_csrr_number rd c s, ?_, (s.csrRead c).isLt⟩
      rw [BitVec.ofNat_toNat, BitVec.setWidth_eq]
      exact wroteReg_setReg s rd _
  · exact (isIllegal_iff_of_opByte (o := .csrr) hop).2 (.inr (Op.not_immOk_csrr.2 (.inl himm)))
  · have hnum : (BitVec.ofNat 12 n).toNat = n := Nat.mod_eq_of_lt (by omega)
    obtain ⟨c, hc, hread⟩ := statusRegister_reads_zero (n := BitVec.ofNat 12 n) (by omega) hs hrun
    rw [← hnum, ← hc, csrNumberValue_number, hread]
    rfl

/-- Settles O24: the number names a writable CSR, or CSRW raises IllegalCommand; its immediates are the five numbers. -/
theorem csrwWritesRegisterAndInvalidates : Obligations.CsrwWritesRegisterAndInvalidates := by
  refine ⟨fun n rs1 s => ⟨encode_opByte _, ?_⟩, fun w hop himm => ?_⟩
  · rw [csrWritten_eq]
    cases h : (Csr.ofNumber n).bind fun c => s.csrWrite c (s.reg rs1) with
    | none => exact exec_csrw_of_none h
    | some u =>
      obtain ⟨c, hc, hu⟩ := Option.bind_eq_some_iff.1 h
      obtain rfl := Csr.number_of_ofNumber hc
      exact exec_csrw_number hu
  · exact (isIllegal_iff_of_opByte (o := .csrw) hop).2 (.inr (Op.not_immOk_csrw.2 (.inr himm)))

/-- Settles O25: each load is the checked read of its space. -/
theorem loadsReadByteAndCodeword : Obligations.LoadsReadByteAndCodeword :=
  fun _ _ _ _ => ⟨encode_opByte _, encode_opByte _, load_outcome rfl, load_outcome rfl⟩

/-- Settles O26: each store is the checked write of its space, which the canonical form makes a write of one entry. -/
theorem storesWriteByteAndCodeword : Obligations.StoresWriteByteAndCodeword := by
  intro rs2 imm rs1 s hmem
  obtain ⟨hbuf, hcw, -⟩ := hmem
  refine ⟨encode_opByte _, encode_opByte _, store_outcome rfl fun hv => ?_, store_outcome rfl fun hv => ?_⟩
  · exact ⟨rfl, fun b => Memory.toNat_read_write hbuf hv⟩
  · exact wroteCodewords_singleton rfl fun b => Memory.toNat_read_write hcw hv

end Sys2Proof.Machine

/-! ## The BitStream unit (41_bitstream.md)

Each command completes with one write to a stream, a register or BUF, or raises one fault. The outcome of an append and
the packing of stream bits into BUF are stated once; the laws of R113 are read from them. -/

namespace Sys2Proof.Machine

/-! ### Bits, subranges and bytes -/

theorem State.truth_eq (s : State) (r : Reg) : s.truth r = decide ((s.reg r).toNat ≠ 0) := by
  simp [State.truth, bne, ← BitVec.toNat_inj, beq_eq_decide]

/-- Bits(v, n) of the statements is the model's (41_bitstream.md R112). -/
theorem bitList_eq (v n : Nat) : bitList v n = bitsOf v n := by
  apply List.ext_getElem <;> simp [bitList, bitsOf]

/-- The rounding of the statements is the model's (00_scope.md R6). -/
theorem roundUp8_eq (v : Nat) : roundUp8 v = ceil8 v := Nat.mul_comm ..

theorem subrange_length {bits : List Bool} {b l : Nat} (h : b + l ≤ bits.length) : (subrange bits b l).length = l := by
  rw [subrange, List.length_take, List.length_drop]
  omega

theorem subrange_getElem? (bits : List Bool) (b : Nat) {l i : Nat} (h : i < l) :
    (subrange bits b l)[i]? = bits[b + i]? := by
  rw [subrange, List.getElem?_take_of_lt h, List.getElem?_drop]

/-- The bits of a range are those at the indices b to e-1 (41_bitstream.md R106). -/
theorem mem_subrange_iff {bits : List Bool} {b e : Nat} {x : Bool} :
    x ∈ subrange bits b (e - b) ↔ ∃ i, b ≤ i ∧ i < e ∧ bits[i]? = some x := by
  rw [List.mem_iff_getElem?]
  constructor
  · rintro ⟨i, hi⟩
    obtain ⟨hlt, -⟩ := List.getElem?_eq_some_iff.1 hi
    have hie : i < e - b := hlt.trans_le (List.length_take_le ..)
    exact ⟨b + i, by omega, by omega, (subrange_getElem? bits b hie).symm.trans hi⟩
  · rintro ⟨i, hbi, hie, hi⟩
    obtain ⟨j, rfl⟩ := Nat.exists_eq_add_of_le hbi
    exact ⟨j, (subrange_getElem? bits b (by omega)).trans hi⟩

/-- A range all of whose bits have the value c, or the index of one that has not (41_bitstream.md R106). -/
theorem all_subrange_cases {bits : List Bool} {b e : Nat} (he : e ≤ bits.length) (c : Bool) :
    ((∀ i, b ≤ i → i < e → bits[i]? = some c) ∧ (subrange bits b (e - b)).all (· == c) = true) ∨
    ((∃ i, b ≤ i ∧ i < e ∧ bits[i]? = some (!c)) ∧ (subrange bits b (e - b)).all (· == c) = false) := by
  cases hall : (subrange bits b (e - b)).all (· == c) with
  | true =>
    refine .inl ⟨fun i hbi hie => ?_, rfl⟩
    have hi : bits[i]? = some bits[i] := List.getElem?_eq_getElem (by omega)
    have hmem := List.all_eq_true.1 hall _ (mem_subrange_iff.2 ⟨i, hbi, hie, hi⟩)
    rw [hi, eq_of_beq hmem]
  | false =>
    obtain ⟨x, hx, hne⟩ := List.all_eq_false.1 hall
    have hxc : x = !c := Bool.eq_not.2 fun h => hne (beq_iff_eq.2 h)
    exact .inr ⟨mem_subrange_iff.1 (hxc ▸ hx), rfl⟩

theorem bitAt_append_left (bits seg : List Bool) {i : Nat} (h : i < bits.length) :
    bitAt (bits ++ seg) i = bitAt bits i := by
  rw [bitAt, bitAt, List.getD_append _ _ _ _ h]

theorem bitAt_append_right (bits seg : List Bool) (i : Nat) : bitAt (bits ++ seg) (bits.length + i) = bitAt seg i := by
  rw [bitAt, bitAt, List.getD_append_right _ _ _ _ (Nat.le_add_right ..), Nat.add_sub_cancel_left]

/-- A position past the end reads 0 (41_bitstream.md R107). -/
theorem bitAt_of_length_le {bits : List Bool} {i : Nat} (h : bits.length ≤ i) : bitAt bits i = false :=
  List.getD_eq_default _ _ h

theorem bitAt_zeros (m i : Nat) : bitAt (List.replicate m false) i = false := by
  by_cases hi : i < m
  · rw [bitAt, List.getD_replicate _ hi]
  · exact bitAt_of_length_le (by simpa using hi)

theorem bitAt_append_zeros (bits : List Bool) (m i : Nat) :
    bitAt (bits ++ List.replicate m false) i = bitAt bits i := by
  by_cases hi : i < bits.length
  · exact bitAt_append_left _ _ hi
  · obtain ⟨j, rfl⟩ := Nat.exists_eq_add_of_le (Nat.le_of_not_lt hi)
    rw [bitAt_append_right, bitAt_zeros, bitAt_of_length_le (Nat.le_add_right ..)]

/-- Zero bits after the end change no byte, as positions past the end read 0 (41_bitstream.md R107). -/
theorem bytesFrom_append_zeros (bits : List Bool) (m o nb : Nat) :
    bytesFrom (bits ++ List.replicate m false) o nb = bytesFrom bits o nb := by
  simp only [bytesFrom, byteAt, bitAt_append_zeros]

/-- Eight bits at the end of a stream are the byte there, most significant first (20_memory.md R42). -/
theorem byteAt_append {seg : List Bool} (h : seg.length = 8) (bits : List Bool) :
    byteAt (bits ++ seg) bits.length = BitVec.ofNat 8 (bitsValue seg) := by
  have hseg : (List.range 8).map (bitAt seg) = seg := by
    apply List.ext_getElem <;> simp +contextual [h, bitAt]
  simp only [byteAt, bitAt_append_right]
  exact congrArg (fun l => BitVec.ofNat 8 (bitsValue l)) hseg

theorem bytesFrom_getD (bits : List Bool) (o : Nat) {nb j : Nat} (h : j < nb) :
    (bytesFrom bits o nb).getD j 0 = byteAt bits (o + 8 * j) := by
  simp [bytesFrom, h]

/-! ### Writes to a stream -/

/-- A completed stream write, as the statements say it. -/
theorem wroteStream_setStream (s : State) (k : StreamId) (bits : List Bool) :
    WroteStream s (s.setStream k bits).advance k bits :=
  ⟨by cases k <;> rfl, fun k' => by rw [State.stream_advance, State.stream_setStream]⟩

/-- A command that ends with Append, as the statements say it: its other writes are those of `writes`, which leaves the
streams alone (41_bitstream.md R112). -/
theorem appends_of_appendThen {i : Instr} {s : State} {k : StreamId} {bits : List Bool} {after writes : State → State}
    (h : exec i s = s.appendThen k bits after)
    (hafter : ∀ bits', after (s.setStream k bits') = (writes s).setStream k bits') : Appends i s k bits writes := by
  unfold Appends
  split
  · rw [h, State.appendThen_of_full ‹_›]
    rfl
  · rw [h, State.appendThen_of_fits (Nat.le_of_not_lt ‹_›), hafter]
    exact ⟨_, rfl, wroteStream_setStream ..⟩

theorem appends_of_append {i : Instr} {s : State} {k : StreamId} {bits : List Bool}
    (h : exec i s = s.appendThen k bits id) : Appends i s k bits id := appends_of_appendThen h fun _ => rfl

/-- A command that raises a fault does not leave the block running (60_exceptions.md R224). -/
theorem State.not_running_of_raise {s t : State} {f : FaultName} {info : Nat} (h : s.raise f info = .next t) :
    t.runstate ≠ .run := by
  cases h
  nofun

/-- An append that leaves the block running completed (41_bitstream.md R112). -/
theorem append_of_running {s t : State} {k : StreamId} {bits : List Bool} (h : s.appendThen k bits id = .next t)
    (hrun : t.runstate = .run) : t = (s.setStream k (s.stream k ++ bits)).advance := by
  rcases State.appendThen_eq_next.1 h with ⟨-, rfl⟩ | ⟨-, rfl⟩
  · cases hrun
  · rfl

/-- BS_CAP is a multiple of 8, so a stream within it stays within it when padded to bytes (41_bitstream.md R111). -/
theorem ceil8_le_bsCap {p : Params} {n : Nat} (h : n ≤ p.bsCap) : ceil8 n ≤ p.bsCap := by
  have hok := p.ok
  simp only [paramsOk, Bool.and_eq_true, beq_iff_eq, and_assoc] at hok
  obtain ⟨hcap, -⟩ := hok
  unfold ceil8
  omega

/-- The stream BS.TERM leaves (41_bitstream.md R111). -/
def State.terminated (s : State) (k : StreamId) : List Bool :=
  s.stream k ++ List.replicate (ceil8 (s.stream k).length - (s.stream k).length) false

theorem State.terminated_length (s : State) (k : StreamId) :
    (s.terminated k).length = ceil8 (s.stream k).length := by
  rw [State.terminated, List.length_append, List.length_replicate, Nat.add_sub_cancel' (ceil8_spec _).1]

theorem exec_bsTerm {s : State} {k : StreamId} (h : (s.stream k).length ≤ s.params.bsCap) :
    exec (.bsTerm k) s = .next (s.setStream k (s.terminated k)).advance := by
  refine State.appendThen_of_fits ?_
  rw [← List.length_append]
  exact (s.terminated_length k).trans_le (ceil8_le_bsCap h)

theorem exec_bsAppend (k : StreamId) (rs1 rs2 : Reg) (s : State) :
    exec (.bsAppend k rs1 rs2) s =
      if 32 < (s.reg rs2).toNat ∨ ((s.reg rs2).toNat < 32 ∧ 2 ^ (s.reg rs2).toNat ≤ (s.reg rs1).toNat) then
        s.raise .invalidBitCount (s.reg rs2).toNat
      else s.appendThen k (bitsOf (s.reg rs1).toNat (s.reg rs2).toNat) id := by
  rw [ite_or]
  rfl

/-- BS.APPEND that leaves the block running appended a value of at most n bits (41_bitstream.md R103). -/
theorem bsAppend_of_running {k : StreamId} {r1 r2 : Reg} {s t : State} (h : exec (.bsAppend k r1 r2) s = .next t)
    (hrun : t.runstate = .run) :
    (s.reg r1).toNat < 2 ^ (s.reg r2).toNat ∧
      t = (s.setStream k (s.stream k ++ bitsOf (s.reg r1).toNat (s.reg r2).toNat)).advance := by
  rw [exec_bsAppend] at h
  split at h
  · exact absurd hrun (State.not_running_of_raise h)
  · rename_i hcheck
    obtain ⟨hn, hv⟩ := not_or.1 hcheck
    refine ⟨?_, append_of_running h hrun⟩
    rcases Nat.lt_or_eq_of_le (Nat.le_of_not_lt hn) with hlt | heq
    · exact Nat.lt_of_not_le fun hle => hv ⟨hlt, hle⟩
    · rw [heq]
      exact (s.reg r1).isLt

/-! ### BS.TOBYTES -/

/-- Packing nb bytes from stream bit o into BUF at y is within the three bounds of 41_bitstream.md R107. -/
structure State.PackFits (s : State) (k : StreamId) (o y nb : Nat) : Prop where
  start : o ≤ (s.stream k).length
  bits : 8 * nb ≤ ceil8 ((s.stream k).length - o)
  buf : y + nb ≤ s.params.bufCap

/-- The state with nb bytes of the stream from bit o packed into BUF at y (41_bitstream.md R107). -/
def State.pack (s : State) (k : StreamId) (o y nb : Nat) : State :=
  { s with buf := s.buf.writeList y (bytesFrom (s.stream k) o nb) }

/-- BUF after packing, byte by byte (41_bitstream.md R107). -/
theorem State.read_pack {s : State} {k : StreamId} {o y nb : Nat} (hmem : s.memoryInv) (h : s.PackFits k o y nb)
    (a : Nat) : (s.pack k o y nb).buf.read a =
      if y ≤ a ∧ a < y + nb then byteAt (s.stream k) (o + 8 * (a - y)) else s.buf.read a := by
  rw [State.pack, Memory.read_writeList hmem.1 (by simpa using h.buf), bytesFrom_length]
  split
  · rw [bytesFrom_getD _ _ (by omega)]
  · rfl

theorem exec_bsTobytes (k : StreamId) (r1 r2 r3 : Reg) (s : State) :
    exec (.bsTobytes k r1 r2 r3) s =
      if (s.stream k).length < (s.reg r1).toNat then s.raise .outOfRange (s.reg r1).toNat
      else if ceil8 ((s.stream k).length - (s.reg r1).toNat) < 8 * (s.reg r3).toNat then
        s.raise .outOfRange (s.reg r3).toNat
      else if s.params.bufCap < (s.reg r2).toNat + (s.reg r3).toNat then
        s.raise .outOfRange ((s.reg r2).toNat + (s.reg r3).toNat)
      else (s.pack k (s.reg r1).toNat (s.reg r2).toNat (s.reg r3).toNat).complete := rfl

section

variable {k : StreamId} {r1 r2 r3 : Reg} {s t : State}

theorem exec_bsTobytes_of_fits (h : s.PackFits k (s.reg r1).toNat (s.reg r2).toNat (s.reg r3).toNat) :
    exec (.bsTobytes k r1 r2 r3) s = .next (s.pack k (s.reg r1).toNat (s.reg r2).toNat (s.reg r3).toNat).advance := by
  obtain ⟨hstart, hbits, hbuf⟩ := h
  rw [exec_bsTobytes, if_neg (by omega), if_neg (by omega), if_neg (by omega)]
  rfl

/-- BS.TOBYTES that leaves the block running met the three bounds and packed the bytes (41_bitstream.md R107). -/
theorem bsTobytes_of_running (h : exec (.bsTobytes k r1 r2 r3) s = .next t) (hrun : t.runstate = .run) :
    s.PackFits k (s.reg r1).toNat (s.reg r2).toNat (s.reg r3).toNat ∧
      t = (s.pack k (s.reg r1).toNat (s.reg r2).toNat (s.reg r3).toNat).advance := by
  rw [exec_bsTobytes] at h
  split at h
  · exact absurd hrun (State.not_running_of_raise h)
  split at h
  · exact absurd hrun (State.not_running_of_raise h)
  split at h
  · exact absurd hrun (State.not_running_of_raise h)
  · cases h
    exact ⟨⟨by omega, by omega, by omega⟩, rfl⟩

end

/-- What can be packed from a stream can be packed after BS.TERM (41_bitstream.md R111, R113). -/
theorem State.PackFits.terminated {s : State} {k : StreamId} {o y nb : Nat} (h : s.PackFits k o y nb) :
    (s.setStream k (s.terminated k)).advance.PackFits k o y nb := by
  obtain ⟨hstart, hbits, hbuf⟩ := h
  have hlen : ((s.setStream k (s.terminated k)).advance.stream k).length = ceil8 (s.stream k).length := by
    simp [State.terminated_length]
  unfold ceil8 at hlen hbits
  refine ⟨by omega, ?_, by simpa using hbuf⟩
  unfold ceil8
  omega

/-! ### The statements -/

/-- Settles O31: the range is a list of e - b bits, and a bit that is not the value is its negation. -/
theorem israngeTestsEveryBit : Obligations.IsrangeTestsEveryBit := by
  intro rd k rs1 rs2 rs3 s
  refine ⟨encode_opByte _, ?_⟩
  rw [← State.truth_eq]
  split
  · exact if_pos ‹_›
  · rename_i hrange
    refine ⟨_, _, if_neg hrange, wroteReg_setReg s rd _, ?_⟩
    exact (all_subrange_cases (by omega) _).imp (And.imp_right (congrArg boolWord)) (And.imp_right (congrArg boolWord))

/-- Settles O32: BUF is read byte by byte after the packing, and each byte bit by bit. -/
theorem tobytesPacksMsbFirst : Obligations.TobytesPacksMsbFirst := by
  intro k rs1 rs2 rs3 s hmem
  refine ⟨encode_opByte _, ?_⟩
  simp only [roundUp8_eq, exec_bsTobytes]
  split
  · rfl
  split
  · rfl
  split
  · rfl
  have hread := State.read_pack hmem (k := k) (o := (s.reg rs1).toNat) (y := (s.reg rs2).toNat)
    (nb := (s.reg rs3).toNat) ⟨by omega, by omega, by omega⟩
  refine ⟨_, rfl, rfl, fun a ha => (hread a).trans (if_neg ha), fun j hj u hu => ?_⟩
  rw [State.advance_buf, hread, if_pos (by omega), Nat.add_sub_cancel_left, byteAt_getLsbD _ _ hu]

/-- Settles O27: each command is one write. -/
theorem streamClearSizeReverseClone : Obligations.StreamClearSizeReverseClone := by
  intro k ks rd s
  refine ⟨encode_opByte _, encode_opByte _, encode_opByte _, encode_opByte _, ⟨_, rfl, wroteStream_setStream ..⟩,
    ⟨_, rfl, wroteReg_setReg ..⟩, ⟨_, rfl, ?_⟩, ⟨_, rfl, wroteStream_setStream ..⟩⟩
  rw [State.stream_advance, State.stream_setStream_same]
  exact ⟨wroteStream_setStream .., List.length_reverse, fun i hi => List.getElem?_reverse hi⟩

/-- Settles O28: the command is the append of one truth value. -/
theorem appendbitAppendsTruthValue : Obligations.AppendbitAppendsTruthValue := by
  intro k rs1 s
  rw [← State.truth_eq]
  exact ⟨encode_opByte _, appends_of_append rfl⟩

/-- Settles O29: the two checks raise the same fault, and the bits appended are Bits(v, n). -/
theorem appendAppendsLowBits : Obligations.AppendAppendsLowBits := by
  intro k rs1 rs2 s
  refine ⟨encode_opByte _, ?_⟩
  rw [bitList_eq]
  have hexec := exec_bsAppend k rs1 rs2 s
  split
  · rw [hexec, if_pos ‹_›]
    rfl
  · exact appends_of_append (hexec.trans (if_neg ‹_›))

/-- Settles O30: the index is within the stream or past its end. -/
theorem getReadsOneBit : Obligations.GetReadsOneBit := by
  intro rd k rs1 s
  refine ⟨encode_opByte _, ?_⟩
  split
  · exact if_pos (List.getElem?_eq_none_iff.1 ‹_›)
  · rename_i b hb
    obtain ⟨hi, -⟩ := List.getElem?_eq_some_iff.1 hb
    have hbit : bitAt (s.stream k) (s.reg rs1).toNat = b := by rw [bitAt, List.getD, hb, Option.getD_some]
    exact ⟨_, if_neg (Nat.not_le.2 hi), hbit ▸ wroteReg_setReg s rd _⟩

/-- Settles O33: the segment is the subrange of the source, and it is appended. -/
theorem copyAppendsSubrange : Obligations.CopyAppendsSubrange := by
  intro k ks rs1 rs2 s
  refine ⟨encode_opByte _, ?_⟩
  split
  · exact if_pos ‹_›
  · exact ⟨_, subrange_length (Nat.le_of_not_lt ‹_›), fun i hi => subrange_getElem? _ _ hi,
      appends_of_append (if_neg ‹_›)⟩

/-- Settles O34: the padded stream is within BS_CAP, a multiple of 8. -/
theorem termPadsToByteBoundary : Obligations.TermPadsToByteBoundary := by
  intro k s h
  rw [roundUp8_eq]
  exact ⟨encode_opByte _, _, exec_bsTerm h, wroteStream_setStream ..⟩

/-! ### The laws (41_bitstream.md R113) -/

/-- R113 (a): a reversal undoes itself. -/
theorem reverse_reverse_stream {k : StreamId} {s t u : State} (ht : exec (.bsReverse k) s = .next t)
    (hu : exec (.bsReverse k) t = .next u) : u.stream k = s.stream k := by
  cases ht
  cases hu
  simp

/-- R113 (c): BS.TERM reaches a byte boundary, and what packs before it packs to the same bytes after it. -/
theorem tobytes_term {k : StreamId} {r1 r2 r3 : Reg} {s t u v : State} (hsize : (s.stream k).length ≤ s.params.bsCap)
    (ht : exec (.bsTerm k) s = .next t) (hu : exec (.bsTobytes k r1 r2 r3) s = .next u)
    (hv : exec (.bsTobytes k r1 r2 r3) t = .next v) :
    (t.stream k).length % 8 = 0 ∧ (u.runstate = .run → v.runstate = .run ∧ v.buf = u.buf) := by
  cases (exec_bsTerm hsize).symm.trans ht
  refine ⟨by simpa [State.terminated_length] using (ceil8_spec (s.stream k).length).2.2, fun hrun => ?_⟩
  obtain ⟨hfits, rfl⟩ := bsTobytes_of_running hu hrun
  cases (exec_bsTobytes_of_fits (by simpa using hfits.terminated)).symm.trans hv
  have hbytes : ∀ o nb, bytesFrom (s.terminated k) o nb = bytesFrom (s.stream k) o nb := bytesFrom_append_zeros _ _
  exact ⟨by simpa [State.pack] using hrun, by simp [State.pack, hbytes]⟩

/-- R113 (d): eight bits appended at a byte boundary pack to the byte they spell. -/
theorem tobytes_append_byte {k : StreamId} {r1 r2 r3 r4 r5 : Reg} {s t u : State} (hmem : s.memoryInv)
    (hr2 : (s.reg r2).toNat = 8) (hr3 : (s.reg r3).toNat = (s.stream k).length) (hr5 : (s.reg r5).toNat = 1)
    (ht : exec (.bsAppend k r1 r2) s = .next t) (htrun : t.runstate = .run)
    (hu : exec (.bsTobytes k r3 r4 r5) t = .next u) (hurun : u.runstate = .run) :
    (u.buf.read (s.reg r4).toNat).toNat = (s.reg r1).toNat := by
  obtain ⟨hv, hstate⟩ := bsAppend_of_running ht htrun
  rw [hr2] at hv hstate
  have hreg : ∀ r, t.reg r = s.reg r := by simp [hstate]
  have hstream : t.stream k = s.stream k ++ bitsOf (s.reg r1).toNat 8 := by simp [hstate]
  have hmem' : t.memoryInv :=
    exec_preserves (P := State.memoryInv) (fun _ _ _ _ _ _ h => h) (fun _ _ w => w.memoryInv) ht hmem
  obtain ⟨hfits, rfl⟩ := bsTobytes_of_running hu hurun
  rw [State.advance_buf, ← hreg r4, State.read_pack hmem' hfits, if_pos (by rw [hreg r5, hr5]; omega), Nat.sub_self,
    Nat.mul_zero, Nat.add_zero, hreg r3, hr3, hstream, byteAt_append (bitsOf_length ..), bitsValue_bitsOf hv,
    BitVec.toNat_ofNat, Nat.mod_eq_of_lt hv]

/-- R113 (e): after BS.CLONE both streams hold the source's bits, and each is kept by a command that does not write it. -/
theorem clone_independent {k ks : StreamId} {i : Instr} {s t u : State} (hk : k ≠ ks)
    (ht : exec (.bsClone k ks) s = .next t) (hu : exec i t = .next u) :
    (writesStream i ≠ some ks → u.stream ks = s.stream ks) ∧ (writesStream i ≠ some k → u.stream k = s.stream ks) := by
  obtain ⟨-, -, -, hstream, -⟩ := spacesWrittenOnlyByTheirCommands i t u hu
  cases ht
  refine ⟨fun h => (hstream ks h).trans ?_, fun h => (hstream k h).trans ?_⟩
  · rw [State.stream_advance, State.stream_setStream, if_neg hk.symm]
  · simp

/-- Settles O35: the five laws. -/
theorem bitStreamLaws : Obligations.BitStreamLaws := by
  refine ⟨fun k s t u => reverse_reverse_stream, fun k r1 r2 r3 s t h ht hs => ?_,
    fun k r1 r2 r3 s t u v _ hsize _ _ ht hu hv => ?_,
    fun k r1 r2 r3 r4 r5 s t u _ hmem hr2 hr3 _ hr5 ht htrun hu hurun => ?_, fun k ks i s t u => clone_independent⟩
  · obtain ⟨-, rfl⟩ := bsTobytes_of_running h (ht.trans hs)
    rfl
  · exact tobytes_term hsize ht hu hv
  · exact tobytes_append_byte hmem hr2 hr3 hr5 ht htrun hu hurun

end Sys2Proof.Machine

/-! ## The Galois-field unit (42_galois_field.md)

The sequence e_i = next^i(1) carries everything. Both kinds' next is additive and keeps [0, q), so "multiplication by e_i" is
next applied i times; the field laws follow from that and from the order check, with no polynomial ring and no primality. -/

/-! ### next and the product of kind BIN (R120, R122) -/

namespace Sys2Proof.Machine

theorem two_mul_xor (u v : Nat) : 2 * (u ^^^ v) = 2 * u ^^^ 2 * v := by
  simpa [Nat.shiftLeft_eq, Nat.mul_comm] using Nat.shiftLeft_xor_distrib (i := 1) (a := u) (b := v)

/-- A number is its upper bits followed by its lowest bit. -/
theorem two_mul_half_xor (x : Nat) : 2 * (x / 2) ^^^ (if x.testBit 0 then 1 else 0) = x := by
  rw [Nat.testBit_zero]
  split
  · rename_i hodd
    rw [Nat.xor_one_of_even (even_two_mul _)]
    have := of_decide_eq_true hodd
    omega
  · rename_i heven
    have : x % 2 ≠ 1 := by simpa using heven
    rw [Nat.xor_zero]
    omega

section

variable {m poly u v : Nat}

/-- The reduction is by the coefficient of x^m of 2v, so next is linear over the bits. -/
theorem binNext_eq_xor (hv : v < 2 ^ m) :
    binNext (2 ^ m) poly v = 2 * v ^^^ if (2 * v).testBit m then poly else 0 := by
  unfold binNext
  split
  · rw [Nat.testBit_lt_two_pow ‹_›]
    exact (Nat.xor_zero _).symm
  · rw [Nat.testBit_of_two_pow_le_and_two_pow_add_one_gt (Nat.le_of_not_lt ‹_›) (by omega), if_pos rfl]

@[simp] theorem binNext_zero (m poly : Nat) : binNext (2 ^ m) poly 0 = 0 := if_pos (Nat.two_pow_pos m)

theorem binNext_lt (h1 : 2 ^ m ≤ poly) (h2 : poly < 2 * 2 ^ m) (hv : v < 2 ^ m) : binNext (2 ^ m) poly v < 2 ^ m := by
  unfold binNext
  split
  · assumption
  · rename_i hge
    refine Nat.lt_pow_two_of_testBit _ fun i hi => ?_
    rw [Nat.testBit_xor]
    rcases Nat.eq_or_lt_of_le hi with rfl | hlt
    · rw [Nat.testBit_of_two_pow_le_and_two_pow_add_one_gt (Nat.le_of_not_lt hge) (by omega),
        Nat.testBit_of_two_pow_le_and_two_pow_add_one_gt h1 (by omega)]
      rfl
    · have hpow : 2 * 2 ^ m ≤ 2 ^ i := by
        rw [← Nat.pow_succ']
        exact Nat.pow_le_pow_right (by omega) hlt
      rw [Nat.testBit_lt_two_pow (by omega), Nat.testBit_lt_two_pow (by omega)]
      rfl

theorem binNext_xor (hu : u < 2 ^ m) (hv : v < 2 ^ m) :
    binNext (2 ^ m) poly (u ^^^ v) = binNext (2 ^ m) poly u ^^^ binNext (2 ^ m) poly v := by
  rw [binNext_eq_xor hu, binNext_eq_xor hv, binNext_eq_xor (Nat.xor_lt_two_pow hu hv), two_mul_xor, Nat.testBit_xor]
  have hred : (if ((2 * u).testBit m ^^ (2 * v).testBit m) then poly else 0) =
      (if (2 * u).testBit m then poly else 0) ^^^ if (2 * v).testBit m then poly else 0 := by
    cases (2 * u).testBit m <;> cases (2 * v).testBit m <;> simp
  rw [hred]
  ac_rfl

/-- Horner's rule for a(x) b(x) modulo the polynomial, over the coefficients `js` of b, the highest last, from the value
`init` of the coefficients above them. -/
def hornerMul (q poly a b init : Nat) (js : List Nat) : Nat :=
  js.foldr (fun j acc => binNext q poly acc ^^^ if b.testBit j then a else 0) init

theorem hornerMul_cons (q poly a b init j : Nat) (js : List Nat) :
    hornerMul q poly a b init (j :: js) =
      binNext q poly (hornerMul q poly a b init js) ^^^ if b.testBit j then a else 0 := rfl

theorem polyMulMod_eq_hornerMul (a b : Nat) :
    polyMulMod (2 ^ m) poly a b = hornerMul (2 ^ m) poly a b 0 (List.range m) := by
  rw [polyMulMod, Nat.log2_two_pow]
  rfl

theorem hornerMul_lt (h1 : 2 ^ m ≤ poly) (h2 : poly < 2 * 2 ^ m) {a : Nat} (ha : a < 2 ^ m) (b : Nat) (js : List Nat) :
    hornerMul (2 ^ m) poly a b 0 js < 2 ^ m := by
  induction js with
  | nil => exact Nat.two_pow_pos m
  | cons j js ih =>
    rw [hornerMul_cons]
    exact Nat.xor_lt_two_pow (binNext_lt h1 h2 ih) (by split <;> omega)

/-- A factor x goes out of the product, by linearity of next. -/
theorem hornerMul_binNext_left (h1 : 2 ^ m ≤ poly) (h2 : poly < 2 * 2 ^ m) {a : Nat} (ha : a < 2 ^ m) (b : Nat)
    (js : List Nat) :
    hornerMul (2 ^ m) poly (binNext (2 ^ m) poly a) b 0 js = binNext (2 ^ m) poly (hornerMul (2 ^ m) poly a b 0 js) := by
  induction js with
  | nil => exact (binNext_zero m poly).symm
  | cons j js ih =>
    have hacc := binNext_lt h1 h2 (hornerMul_lt h1 h2 ha b js)
    have hterm : (if b.testBit j then a else 0) < 2 ^ m := by split <;> omega
    rw [hornerMul_cons, hornerMul_cons, ih, binNext_xor hacc hterm, apply_ite (binNext (2 ^ m) poly), binNext_zero]

/-- With the factor 1 Horner's rule puts the coefficients back together, n of them still to come. -/
theorem hornerMul_one {b : Nat} (hb : b < 2 ^ m) (n : Nat) :
    hornerMul (2 ^ m) poly 1 b (b >>> n) (List.range n) = b := by
  induction n with
  | zero => rfl
  | succ n ih =>
    have hhalf : b >>> (n + 1) = b >>> n / 2 := Nat.shiftRight_succ b n
    have hle : b >>> n ≤ b := Nat.shiftRight_le b n
    have hstep : binNext (2 ^ m) poly (b >>> (n + 1)) ^^^ (if b.testBit n then 1 else 0) = b >>> n := by
      rw [hhalf, binNext, if_pos (by omega), show b.testBit n = (b >>> n).testBit 0 by simp]
      exact two_mul_half_xor _
    rw [hornerMul, List.range_succ, List.foldr_append, List.foldr_cons, List.foldr_nil, hstep]
    exact ih

theorem polyMulMod_zero_left (b : Nat) : polyMulMod (2 ^ m) poly 0 b = 0 := by
  have : ∀ js, hornerMul (2 ^ m) poly 0 b 0 js = 0 := fun js => by
    induction js with
    | nil => rfl
    | cons j js ih => rw [hornerMul_cons, ih, ite_self, binNext_zero, Nat.xor_zero]
  rw [polyMulMod_eq_hornerMul, this]

theorem polyMulMod_one_left {b : Nat} (hb : b < 2 ^ m) : polyMulMod (2 ^ m) poly 1 b = b := by
  have hinit : b >>> m = 0 := by rw [Nat.shiftRight_eq_div_pow, Nat.div_eq_of_lt hb]
  rw [polyMulMod_eq_hornerMul, ← hinit, hornerMul_one hb]

theorem polyMulMod_binNext_left (h1 : 2 ^ m ≤ poly) (h2 : poly < 2 * 2 ^ m) {a : Nat} (ha : a < 2 ^ m) (b : Nat) :
    polyMulMod (2 ^ m) poly (binNext (2 ^ m) poly a) b = binNext (2 ^ m) poly (polyMulMod (2 ^ m) poly a b) := by
  rw [polyMulMod_eq_hornerMul, polyMulMod_eq_hornerMul, hornerMul_binNext_left h1 h2 ha]

end

/-! ### The operations, whatever the tables hold (R126, R127) -/

namespace FieldTables

variable {F : FieldTables} {a b : Nat}

theorem add_of_bin (h : F.bin = true) (a b : Nat) : F.add a b = a ^^^ b := if_pos h

theorem add_of_prime (h : ¬F.bin = true) (a b : Nat) : F.add a b = (a + b) % F.q := if_neg h

theorem neg_lt (ha : a < F.q) : F.neg a < F.q := by
  unfold neg
  split
  · exact ha
  · exact Nat.mod_lt _ (by omega)

theorem add_comm (F : FieldTables) (a b : Nat) : F.add a b = F.add b a := by
  rw [add, add, Nat.xor_comm, Nat.add_comm]

theorem add_assoc (F : FieldTables) (a b c : Nat) : F.add (F.add a b) c = F.add a (F.add b c) := by
  unfold add
  split
  · exact Nat.xor_assoc ..
  · rw [Nat.mod_add_mod, Nat.add_mod_mod, Nat.add_assoc]

theorem add_zero (ha : a < F.q) : F.add a 0 = a := by
  unfold add
  split
  · exact Nat.xor_zero _
  · exact Nat.mod_eq_of_lt ha

theorem add_neg (ha : a < F.q) : F.add a (F.neg a) = 0 := by
  unfold add neg
  split
  · exact Nat.xor_self _
  · rw [Nat.add_mod_mod, Nat.add_sub_cancel' ha.le, Nat.mod_self]

theorem sub_eq_add_neg (F : FieldTables) (a : Nat) (hb : b < F.q) : F.sub a b = F.add a (F.neg b) := by
  unfold sub add neg
  split
  · rfl
  · rw [Nat.add_mod_mod, Nat.add_sub_assoc hb.le]

theorem mul_zero_left (F : FieldTables) (b : Nat) : F.mul 0 b = 0 := if_pos (.inl rfl)

theorem mul_comm (F : FieldTables) (a b : Nat) : F.mul a b = F.mul b a := by
  unfold mul
  rw [Nat.add_comm]
  exact if_congr or_comm rfl rfl

end FieldTables

/-! ### A built field over its sequence e_i (R122 to R129) -/

/-- The tables GF.BUILD makes of a sequence that passes the order check (R122, R125), with what next has in both kinds: it
keeps [0, q) and is additive. -/
structure FieldTables.Built (F : FieldTables) (next : Nat → Nat) : Prop where
  size : 3 ≤ F.q
  pow_of_bin : F.bin = true → ∃ m, F.q = 2 ^ m
  order : orderOk F.q (powersFrom next F.q 1) = true
  expT_eq : F.expT = (powersFrom next F.q 1).take (F.q - 1)
  logT_eq : F.logT = logTable F.q F.expT
  next_lt : ∀ v < F.q, next v < F.q
  next_zero : next 0 = 0
  next_add : ∀ u < F.q, ∀ v < F.q, next (F.add u v) = F.add (next u) (next v)

namespace FieldTables.Built

variable {F : FieldTables} {next : Nat → Nat} {a b c i : Nat}

/-! #### The sequence -/

/-- The order check in terms of the sequence (R124). -/
theorem order_spec (h : F.Built next) : next^[F.q - 1] 1 = 1 ∧ (∀ i < F.q, next^[i] 1 ≠ 0) ∧
    ∀ i j, i < j → j < F.q - 1 → next^[i] 1 ≠ next^[j] 1 :=
  (orderOk_iff next (by have := h.size; omega)).1 h.order

theorem power_size (h : F.Built next) : next^[F.q - 1] 1 = 1 := h.order_spec.1

theorem power_inj (h : F.Built next) {j : Nat} (hi : i < F.q - 1) (hj : j < F.q - 1) (he : next^[i] 1 = next^[j] 1) :
    i = j := by
  obtain ⟨-, -, hdistinct⟩ := h.order_spec
  rcases Nat.lt_trichotomy i j with hlt | heq | hlt
  · exact absurd he (hdistinct i j hlt hj)
  · exact heq
  · exact absurd he.symm (hdistinct j i hlt hi)

/-- The sequence has period q-1. -/
theorem power_mod (h : F.Built next) (n : Nat) : next^[n % (F.q - 1)] 1 = next^[n] 1 :=
  Function.IsPeriodicPt.iterate_mod_apply h.power_size n

theorem mod_lt (h : F.Built next) (n : Nat) : n % (F.q - 1) < F.q - 1 :=
  Nat.mod_lt _ (by have := h.size; omega)

theorem power_pos (h : F.Built next) (n : Nat) : 0 < next^[n] 1 := by
  obtain ⟨-, hne, -⟩ := h.order_spec
  rw [← h.power_mod]
  exact Nat.pos_of_ne_zero (hne _ (by have := h.mod_lt n; omega))

theorem iterate_lt (h : F.Built next) (hb : b < F.q) (n : Nat) : next^[n] b < F.q := by
  induction n with
  | zero => exact hb
  | succ n ih =>
    rw [Function.iterate_succ_apply']
    exact h.next_lt _ ih

theorem iterate_zero (h : F.Built next) (n : Nat) : next^[n] 0 = 0 := Function.iterate_fixed h.next_zero n

theorem power_lt (h : F.Built next) (n : Nat) : next^[n] 1 < F.q := h.iterate_lt (by have := h.size; omega) n

/-- q-1 distinct powers fill the q-1 non-zero elements (42_galois_field.md R124). -/
theorem exists_power (h : F.Built next) (h0 : a ≠ 0) (ha : a < F.q) : ∃ i < F.q - 1, next^[i] 1 = a := by
  have hsurj : Set.SurjOn (fun i => next^[i] 1) (Finset.range (F.q - 1)) (Finset.Ico 1 F.q) := by
    refine Finset.surjOn_of_injOn_of_card_le _ (fun i _ => ?_) (fun i hi j hj he => ?_) (by simp)
    · simpa using ⟨h.power_pos i, h.power_lt i⟩
    · exact h.power_inj (by simpa using hi) (by simpa using hj) he
  obtain ⟨i, hi, he⟩ := hsurj (by simpa using ⟨Nat.pos_of_ne_zero h0, ha⟩)
  exact ⟨i, by simpa using hi, he⟩

/-! #### The tables -/

theorem expT_length (h : F.Built next) : F.expT.length = F.q - 1 := by simp [h.expT_eq]

theorem expT_getElem? (h : F.Built next) (hi : i < F.q - 1) : F.expT[i]? = some (next^[i] 1) := by
  rw [h.expT_eq, List.getElem?_take, if_pos hi, powersFrom_getElem? next 1 (by omega)]

theorem expT_nodup (h : F.Built next) : F.expT.Nodup := by
  have hord := h.order
  rw [orderOk, Bool.and_eq_true, distinct_iff_nodup, ← h.expT_eq] at hord
  exact hord.2

theorem logT_length (h : F.Built next) : F.logT.length = F.q - 1 := by simp [h.logT_eq, logTable]

theorem logT_getElem? (h : F.Built next) (hi : i < F.q - 1) : F.logT[next^[i] 1 - 1]? = some i := by
  have hpos := h.power_pos i
  have hlt := h.power_lt i
  obtain ⟨hlen, hget⟩ := List.getElem?_eq_some_iff.1 (h.expT_getElem? hi)
  rw [h.logT_eq, logTable, List.getElem?_map, List.getElem?_range (by omega), Option.map_some, Nat.sub_add_cancel hpos,
    ← hget, h.expT_nodup.idxOf_getElem]

theorem exp_eq (h : F.Built next) (hi : i < F.q - 1) : F.exp i = next^[i] 1 := by
  rw [exp, List.getD, h.expT_getElem? hi, Option.getD_some]

theorem gexp_eq (h : F.Built next) (n : Nat) : F.gexp n = next^[n] 1 := by
  rw [gexp, h.exp_eq (h.mod_lt n), h.power_mod]

/-- LOG of a power is its exponent, reduced. -/
theorem glog_power (h : F.Built next) (n : Nat) : F.glog (next^[n] 1) = n % (F.q - 1) := by
  rw [← h.power_mod, glog, List.getD, h.logT_getElem? (h.mod_lt n), Option.getD_some]

/-- EXP of LOG is the element (R125). -/
theorem gexp_glog (h : F.Built next) (h0 : a ≠ 0) (ha : a < F.q) : F.gexp (F.glog a) = a := by
  obtain ⟨i, hi, rfl⟩ := h.exists_power h0 ha
  rw [h.gexp_eq, h.glog_power, h.power_mod]

theorem glog_lt (h : F.Built next) (h0 : a ≠ 0) (ha : a < F.q) : F.glog a < F.q - 1 := by
  obtain ⟨i, hi, rfl⟩ := h.exists_power h0 ha
  rw [h.glog_power]
  exact h.mod_lt i

/-! #### The operations (R126 to R128) -/

theorem add_lt (h : F.Built next) (ha : a < F.q) (hb : b < F.q) : F.add a b < F.q := by
  unfold add
  split
  · obtain ⟨m, hm⟩ := h.pow_of_bin ‹_›
    rw [hm] at ha hb ⊢
    exact Nat.xor_lt_two_pow ha hb
  · exact Nat.mod_lt _ (by omega)

/-- Multiplication by e_n is next applied n times. -/
theorem power_mul (h : F.Built next) (n : Nat) (hb : b < F.q) : F.mul (next^[n] 1) b = next^[n] b := by
  by_cases hb0 : b = 0
  · rw [hb0, mul_comm, mul_zero_left, h.iterate_zero]
  · obtain ⟨j, hj, rfl⟩ := h.exists_power hb0 hb
    have hne : ¬(next^[n] 1 = 0 ∨ next^[j] 1 = 0) := not_or.2 ⟨(h.power_pos n).ne', (h.power_pos j).ne'⟩
    rw [mul, if_neg hne, h.glog_power, h.glog_power, ← Nat.add_mod, ← Function.iterate_add_apply, ← h.gexp_eq, gexp]

/-- Two elements that are not 0 multiply by adding exponents. -/
theorem power_mul_power (h : F.Built next) (n k : Nat) : F.mul (next^[n] 1) (next^[k] 1) = next^[n + k] 1 := by
  rw [h.power_mul n (h.power_lt k), Function.iterate_add_apply]

theorem one_mul (h : F.Built next) (hb : b < F.q) : F.mul 1 b = b := h.power_mul 0 hb

/-- next goes out of the first factor. -/
theorem next_mul (h : F.Built next) (ha : a < F.q) (hb : b < F.q) : F.mul (next a) b = next (F.mul a b) := by
  by_cases ha0 : a = 0
  · rw [ha0, h.next_zero, mul_zero_left, h.next_zero]
  · obtain ⟨i, -, rfl⟩ := h.exists_power ha0 ha
    rw [h.power_mul i hb, ← Function.iterate_succ_apply' next, ← Function.iterate_succ_apply' next, h.power_mul _ hb]

theorem mul_one (h : F.Built next) (ha : a < F.q) : F.mul a 1 = a := by
  rw [F.mul_comm, h.one_mul ha]

/-- A function that is 0 at 0, b at 1, and lets next out is multiplication by b (R127). -/
theorem mul_unique (h : F.Built next) {f : Nat → Nat} (hzero : f 0 = 0) (hone : f 1 = b)
    (hnext : ∀ a < F.q, f (next a) = next (f a)) (ha : a < F.q) (hb : b < F.q) : F.mul a b = f a := by
  by_cases ha0 : a = 0
  · rw [ha0, mul_zero_left, hzero]
  · have hpower : ∀ n, f (next^[n] 1) = next^[n] b := fun n => by
      induction n with
      | zero => exact hone
      | succ n ih => rw [Function.iterate_succ_apply', Function.iterate_succ_apply', hnext _ (h.power_lt n), ih]
    obtain ⟨i, -, rfl⟩ := h.exists_power ha0 ha
    rw [h.power_mul i hb, hpower]

theorem mul_lt (h : F.Built next) (ha : a < F.q) (hb : b < F.q) : F.mul a b < F.q := by
  by_cases ha0 : a = 0
  · rw [ha0, mul_zero_left]
    exact Nat.zero_lt_of_lt hb
  · obtain ⟨i, -, rfl⟩ := h.exists_power ha0 ha
    rw [h.power_mul i hb]
    exact h.iterate_lt hb i

theorem mul_assoc (h : F.Built next) (ha : a < F.q) (hb : b < F.q) (hc : c < F.q) :
    F.mul (F.mul a b) c = F.mul a (F.mul b c) := by
  refine (h.mul_unique (f := fun a => F.mul (F.mul a b) c) ?_ ?_ (fun a ha => ?_) ha (h.mul_lt hb hc)).symm
  · simp only [mul_zero_left]
  · simp only [h.one_mul hb]
  · simp only [h.next_mul ha hb, h.next_mul (h.mul_lt ha hb) hc]

theorem mul_add (h : F.Built next) (ha : a < F.q) (hb : b < F.q) (hc : c < F.q) :
    F.mul a (F.add b c) = F.add (F.mul a b) (F.mul a c) := by
  refine h.mul_unique (f := fun a => F.add (F.mul a b) (F.mul a c)) ?_ ?_ (fun a ha => ?_) ha (h.add_lt hb hc)
  · simp only [mul_zero_left, add_zero (Nat.zero_lt_of_lt ha)]
  · simp only [h.one_mul hb, h.one_mul hc]
  · simp only [h.next_mul ha hb, h.next_mul ha hc, h.next_add _ (h.mul_lt ha hb) _ (h.mul_lt ha hc)]

/-- inv(a) is the power with the opposite exponent (R128). -/
theorem inv_eq (h : F.Built next) (a : Nat) : F.inv a = next^[F.q - 1 - F.glog a] 1 := h.gexp_eq _

theorem inv_lt (h : F.Built next) (a : Nat) : F.inv a < F.q := by
  rw [h.inv_eq]
  exact h.power_lt _

theorem mul_inv (h : F.Built next) (h0 : a ≠ 0) (ha : a < F.q) : F.mul a (F.inv a) = 1 := by
  have hlog := h.glog_lt h0 ha
  calc
    F.mul a (F.inv a) = F.mul (next^[F.glog a] 1) (next^[F.q - 1 - F.glog a] 1) := by
      rw [← h.gexp_eq (F.glog a), h.gexp_glog h0 ha, h.inv_eq]
    _ = next^[F.q - 1] 1 := by rw [h.power_mul_power, Nat.add_sub_cancel' hlog.le]
    _ = 1 := h.power_size

theorem div_eq_mul_inv (h : F.Built next) (ha : a < F.q) (hb0 : b ≠ 0) (hb : b < F.q) :
    F.div a b = F.mul a (F.inv b) := by
  by_cases ha0 : a = 0
  · rw [ha0, mul_zero_left]
    exact if_pos rfl
  · have hlog := h.glog_lt hb0 hb
    calc
      F.div a b = next^[F.glog a + (F.q - 1) - F.glog b] 1 := (if_neg ha0).trans (h.gexp_eq _)
      _ = F.mul (next^[F.glog a] 1) (next^[F.q - 1 - F.glog b] 1) := by
        rw [h.power_mul_power, Nat.add_sub_assoc hlog.le]
      _ = F.mul a (F.inv b) := by rw [← h.gexp_eq (F.glog a), h.gexp_glog ha0 ha, h.inv_eq]

end FieldTables.Built

/-! ### What GF.BUILD accepts (R122, R125) -/

/-- Tables that GF.BUILD made are those of a built field. -/
theorem built_of_buildTables {F : FieldTables} {maxSize kind poly alpha : Nat} (hbin : F.bin = true ↔ kind = 0)
    (h : buildTables maxSize kind F.q poly alpha = .ok (F.expT, F.logT)) :
    ∃ next, nextOf maxSize kind F.q poly alpha = .ok next ∧ F.Built next := by
  obtain ⟨next, hnext, horder, hexp, hlog⟩ := buildTables_eq_ok.1 h
  obtain ⟨hsize, -⟩ := nextOf_size hnext
  refine ⟨next, hnext, ?_⟩
  rcases nextOf_eq_ok.1 hnext with ⟨hkind, -, -, hpow, hp1, hp2, rfl⟩ | ⟨hkind, -, -, -, -, rfl⟩
  · have hb := hbin.2 hkind
    rw [← hpow] at hp1 hp2
    refine ⟨hsize, fun _ => ⟨_, hpow.symm⟩, horder, hexp, hlog, fun v hv => ?_, ?_, fun u hu v hv => ?_⟩
    · rw [← hpow] at hv ⊢
      exact binNext_lt hp1 hp2 hv
    · rw [← hpow, binNext_zero]
    · rw [← hpow] at hu hv ⊢
      rw [FieldTables.add_of_bin hb, FieldTables.add_of_bin hb, binNext_xor hu hv]
  · have hb : ¬F.bin = true := fun hb => by have := hbin.1 hb; omega
    refine ⟨hsize, fun hc => absurd hc hb, horder, hexp, hlog, fun v _ => Nat.mod_lt _ (by omega), ?_, fun u _ v _ => ?_⟩
    · rw [primeNext, Nat.zero_mul, Nat.zero_mod]
    · rw [FieldTables.add_of_prime hb, FieldTables.add_of_prime hb, primeNext, primeNext, primeNext, Nat.mod_mul_mod,
        Nat.add_mul, ← Nat.add_mod]

theorem State.field_bin_iff (s : State) : s.field.bin = true ↔ s.gfKind.toNat = 0 := by
  rw [State.field, beq_iff_eq, ← BitVec.toNat_inj]
  rfl

/-- While GF_VALID = 1 the unit's tables are those of a built field (10_state.md R18, R19). -/
theorem State.built_of_fieldInv {s : State} (hs : s.fieldInv) (hv : s.gfValid = true) :
    ∃ next, nextOf s.params.gfMaxSize s.gfKind.toNat s.gfSize.toNat s.gfPoly.toNat s.gfAlpha.toNat = .ok next ∧
      s.field.Built next :=
  built_of_buildTables s.field_bin_iff (hs hv)

theorem isPowerOfTwo_eq_false_iff {q : Nat} : isPowerOfTwo q = false ↔ ∀ m, q ≠ 2 ^ m := by
  rw [isPowerOfTwo, beq_eq_false_iff_ne]
  refine ⟨fun h m hm => h ?_, fun h he => h _ he.symm⟩
  rw [hm, Nat.log2_two_pow]

theorem exec_gfBuild_of_error {s : State} {code : Nat} (h : s.buildResult = .error code) :
    exec .gfBuild s = .next (faultedState s 10 code) := by
  change execGfBuild s = _
  rw [execGfBuild, h]
  rfl

theorem exec_gfBuild_of_ok {s : State} {e l : List Nat} (h : s.buildResult = .ok (e, l)) :
    exec .gfBuild s = .next (State.advance { s with exp := e, log := l, gfValid := true }) := by
  change execGfBuild s = _
  rw [execGfBuild, h]
  rfl

/-- GF.BUILD that leaves the block running passed every check and wrote the tables (R122). -/
theorem gfBuild_of_running {s t : State} (h : exec .gfBuild s = .next t) (hrun : t.runstate = .run) :
    s.buildResult = .ok (t.exp, t.log) ∧ t = State.advance { s with exp := t.exp, log := t.log, gfValid := true } := by
  cases hr : s.buildResult with
  | error code =>
    cases (exec_gfBuild_of_error hr).symm.trans h
    cases hrun
  | ok tables =>
    obtain ⟨e, l⟩ := tables
    cases (exec_gfBuild_of_ok hr).symm.trans h
    exact ⟨rfl, rfl⟩

/-- A check before the order check that fails is GF.BUILD's fault. -/
theorem exec_gfBuild_of_nextOf_error {s : State} {code : Nat}
    (h : nextOf s.params.gfMaxSize s.gfKind.toNat s.gfSize.toNat s.gfPoly.toNat s.gfAlpha.toNat = .error code) :
    exec .gfBuild s = .next (faultedState s 10 code) :=
  exec_gfBuild_of_error (by rw [State.buildResult, buildTables, h])

theorem buildTables_of_badOrder {maxSize kind q poly alpha : Nat} {next : Nat → Nat}
    (h : nextOf maxSize kind q poly alpha = .ok next) (horder : orderOk q (powersFrom next q 1) = false) :
    buildTables maxSize kind q poly alpha = .error 4 := by
  rw [buildTables, h]
  exact if_neg (by simp [horder])

theorem buildTables_of_order {maxSize kind q poly alpha : Nat} {next : Nat → Nat}
    (h : nextOf maxSize kind q poly alpha = .ok next) (horder : orderOk q (powersFrom next q 1) = true) :
    ∃ e l, buildTables maxSize kind q poly alpha = .ok (e, l) :=
  ⟨_, _, buildTables_eq_ok.2 ⟨next, h, horder, rfl, rfl⟩⟩

/-- The order check fails as the statements say it (R122, R124). -/
theorem orderOk_eq_false_iff (next : Nat → Nat) {q : Nat} (hq : 1 ≤ q) :
    orderOk q (powersFrom next q 1) = false ↔
      next^[q - 1] 1 ≠ 1 ∨ (∃ i < q, next^[i] 1 = 0) ∨ ∃ i j, i < j ∧ j < q - 1 ∧ next^[i] 1 = next^[j] 1 := by
  rw [← Bool.not_eq_true, orderOk_iff next hq]
  simp only [not_and_or, not_forall, not_not, exists_prop]

/-- GF.BUILD once the checks before the order check have passed (R122). -/
theorem buildOutcome_of_nextOf {s : State} {next : Nat → Nat}
    (h : nextOf s.params.gfMaxSize s.gfKind.toNat s.gfSize.toNat s.gfPoly.toNat s.gfAlpha.toNat = .ok next) :
    BuildOutcome s next := by
  obtain ⟨hsize, -⟩ := nextOf_size h
  have hbad := orderOk_eq_false_iff next (q := s.gfSize.toNat) (by omega)
  refine ⟨fun hc => exec_gfBuild_of_error (buildTables_of_badOrder h (hbad.2 hc)), fun hc => ?_⟩
  obtain ⟨e, l, htables⟩ := buildTables_of_order h (Bool.eq_true_of_not_eq_false fun hf => hc (hbad.1 hf))
  obtain ⟨next', hnext', hbuilt⟩ :=
    built_of_buildTables (F := { s.field with expT := e, logT := l }) s.field_bin_iff htables
  cases h.symm.trans hnext'
  exact ⟨_, exec_gfBuild_of_ok htables, rfl, hbuilt.expT_length, hbuilt.logT_length,
    fun i hi => ⟨hbuilt.expT_getElem? hi, hbuilt.logT_getElem? hi⟩⟩

/-! ### The statements -/

/-- Settles O38: both products start at 0 and 1 and let next out of the first factor. -/
theorem tableProductIsFieldProduct : Obligations.TableProductIsFieldProduct := by
  intro s hs hv a b ha hb
  refine ⟨rfl, ?_⟩
  change s.field.mul a b = _
  obtain ⟨next, hnext, hbuilt⟩ := s.built_of_fieldInv hs hv
  rcases nextOf_eq_ok.1 hnext with ⟨hkind, -, -, hpow, hp1, hp2, rfl⟩ | ⟨hkind, -, -, -, -, rfl⟩
  · rw [if_pos hkind]
    generalize s.gfSize.toNat.log2 = m at hpow
    rw [← hpow] at hb hp1 hp2 hbuilt ⊢
    refine hbuilt.mul_unique (f := (polyMulMod (2 ^ m) s.gfPoly.toNat · b)) (polyMulMod_zero_left b)
      (polyMulMod_one_left hb) (fun v hv => ?_) ha (hb.trans_eq hpow)
    exact polyMulMod_binNext_left hp1 hp2 (hv.trans_eq hpow.symm) b
  · rw [if_neg (by omega)]
    refine hbuilt.mul_unique (f := (· * b % s.gfSize.toNat)) ?_ ?_ (fun v _ => ?_) ha hb
    · simp
    · simp [Nat.mod_eq_of_lt hb]
    · simp only [primeNext, Nat.mod_mul_mod]
      rw [Nat.mul_right_comm]

/-- Settles O39: each law is a lemma about built fields. -/
theorem builtFieldIsField : Obligations.BuiltFieldIsField := by
  intro s hs hv q F a b c ha hb hc
  obtain ⟨next, -, hbuilt⟩ := s.built_of_fieldInv hs hv
  have hsize : 3 ≤ q := hbuilt.size
  refine ⟨hbuilt.add_lt ha hb, hbuilt.mul_lt ha hb, F.neg_lt ha, F.add_comm a b, F.add_assoc a b c, F.mul_comm a b,
    hbuilt.mul_assoc ha hb hc, hbuilt.mul_add ha hb hc, F.add_zero ha, hbuilt.mul_one ha, F.add_neg ha,
    F.sub_eq_add_neg a hb, fun h0 => ⟨hbuilt.inv_lt a, hbuilt.mul_inv h0 ha⟩, fun h0 => hbuilt.div_eq_mul_inv ha h0 hb,
    fun hk => if_pos (s.field_bin_iff.2 hk), fun hk => ?_⟩
  have hbin : ¬F.bin = true := fun hc => by have := s.field_bin_iff.1 hc; omega
  exact (if_neg hbin).trans (Nat.mod_eq_of_lt (by omega : q - 1 < q))

/-- Settles O36: the checks before the order check decide next or the fault, and the order check decides the rest. -/
theorem buildFollowsItsChecks : Obligations.BuildFollowsItsChecks := by
  intro s q poly alpha badSize
  refine ⟨by decide, fun hk => ?_, fun hk => ?_, fun hk => ?_⟩
  · rw [← isPowerOfTwo_eq_false_iff]
    refine ⟨fun hsize => ?_, fun hsize => ⟨fun hpoly => ?_, fun hpoly => buildOutcome_of_nextOf ?_⟩⟩
    · exact exec_gfBuild_of_nextOf_error (by rw [nextOf, if_pos hk, if_pos hsize])
    · exact exec_gfBuild_of_nextOf_error (by rw [nextOf, if_pos hk, if_neg hsize, if_pos hpoly])
    · rw [nextOf, if_pos hk, if_neg hsize, if_neg hpoly]
      rfl
  · have hk0 : s.gfKind.toNat ≠ 0 := by omega
    refine ⟨fun hsize => ?_, fun hsize => ⟨fun halpha => ?_, fun halpha => buildOutcome_of_nextOf ?_⟩⟩
    · exact exec_gfBuild_of_nextOf_error (by rw [nextOf, if_neg hk0, if_pos hk, if_pos hsize])
    · exact exec_gfBuild_of_nextOf_error (by rw [nextOf, if_neg hk0, if_pos hk, if_neg hsize, if_pos halpha])
    · rw [nextOf, if_neg hk0, if_pos hk, if_neg hsize, if_neg halpha]
      rfl
  · exact exec_gfBuild_of_nextOf_error (by rw [nextOf, if_neg (by omega), if_neg (by omega)])

/-- Settles O37: the two tables of a built field, read at a power and at an element. -/
theorem builtTablesAreInverse : Obligations.BuiltTablesAreInverse := by
  intro s t _ hexec hrun q F
  obtain ⟨htables, hframe⟩ := gfBuild_of_running hexec hrun
  have hF : F = { s.field with expT := t.exp, logT := t.log } := by
    change t.field = _
    rw [hframe]
    rfl
  rw [hF]
  obtain ⟨next, -, hbuilt⟩ := built_of_buildTables (F := { s.field with expT := t.exp, logT := t.log }) s.field_bin_iff
    htables
  have hsize : 3 ≤ q := hbuilt.size
  have hfirst : 0 < q - 1 := by omega
  refine ⟨hbuilt.exp_eq hfirst, (hbuilt.glog_power 0).trans (Nat.zero_mod _), fun i hi => ?_, fun a h1 ha => ?_⟩
  · have hiq : i < q - 1 := by omega
    rw [hbuilt.exp_eq hiq, hbuilt.gexp_eq, hbuilt.glog_power]
    exact ⟨rfl, hbuilt.power_pos i, hbuilt.power_lt i, Nat.mod_eq_of_lt hiq⟩
  · have h0 : a ≠ 0 := by omega
    have hlog := hbuilt.glog_lt h0 ha
    rw [hbuilt.exp_eq hlog, ← hbuilt.gexp_eq, hbuilt.gexp_glog h0 ha]
    exact ⟨Nat.le_sub_one_of_lt hlog, rfl⟩

/-! ### The scalar commands (R130 to R137) -/

/-- A command behind the common checks, as the statements say it (R130). -/
theorem fieldCommand_outcome {i : Instr} {s : State} {operands : List Nat} {command : Result} {body : Prop}
    (h : exec i s = s.fieldCommand operands command) (hbody : exec i s = command → body) :
    FieldCommand i s operands body := by
  unfold FieldCommand
  split
  · rw [h, State.fieldCommand, State.operandFault, if_pos ‹_›]
    rfl
  · rw [State.fieldCommand, State.operandFault, if_neg ‹_›] at h
    induction operands with
    | nil => exact hbody h
    | cons a operands ih =>
      rw [List.find?_cons] at h
      unfold FieldChecks
      split
      · rw [decide_eq_true (by assumption)] at h
        exact h
      · rw [decide_eq_false (by assumption)] at h
        exact ih h

/-- A scalar command that writes rd, as the statements say it. -/
theorem wroteReg_of_fieldResult {i : Instr} {s : State} {rd : Reg} {v : Nat} (h : exec i s = s.fieldResult rd v) :
    ∃ t, exec i s = .next t ∧ WroteReg s t rd (BitVec.ofNat 32 v) :=
  ⟨_, h, wroteReg_setReg s rd _⟩

/-- A scalar command with a zero operand that raises FieldDomain, else writes rd, as the statements say it. -/
theorem fieldDomain_outcome {i : Instr} {s : State} {rd : Reg} {a v : Nat}
    (h : exec i s = if a = 0 then s.raise .fieldDomain 0 else s.fieldResult rd v) :
    if a = 0 then exec i s = .next (faultedState s 11 0)
    else ∃ t, exec i s = .next t ∧ WroteReg s t rd (BitVec.ofNat 32 v) := by
  split
  · exact h.trans (if_pos ‹_›)
  · exact wroteReg_of_fieldResult (h.trans (if_neg ‹_›))

/-- Settles O40: the common checks, then one sum or difference. -/
theorem gfAddSubResults : Obligations.GfAddSubResults := by
  intro rd rs1 rs2 s
  refine ⟨encode_opByte _, encode_opByte _, ?_, ?_⟩ <;> simp only [← s.field_bin_iff]
  · exact fieldCommand_outcome rfl wroteReg_of_fieldResult
  · exact fieldCommand_outcome rfl wroteReg_of_fieldResult

/-- Settles O41: the common checks, the zero divisor, then one value by the tables. -/
theorem gfMulDivInvResults : Obligations.GfMulDivInvResults := fun _ _ _ _ =>
  ⟨encode_opByte _, encode_opByte _, encode_opByte _, fieldCommand_outcome rfl wroteReg_of_fieldResult,
    fieldCommand_outcome rfl fieldDomain_outcome, fieldCommand_outcome rfl fieldDomain_outcome⟩

/-- Settles O42: GF.EXP has no operand to check; GF.LOG has one, and zero has no logarithm. -/
theorem gfExpLogResults : Obligations.GfExpLogResults := fun _ _ _ =>
  ⟨encode_opByte _, encode_opByte _, fieldCommand_outcome rfl wroteReg_of_fieldResult,
    fieldCommand_outcome rfl fieldDomain_outcome⟩

end Sys2Proof.Machine

/-! ## The Reed-Solomon unit (43_reed_solomon.md)

A built field is a field of Mathlib, and a coefficient list over it represents a polynomial; the model's polynomial
operations are those of Mathlib's K[X]. The parity is a remainder by the generator, the decoder's key equation and its
solution by the Euclidean algorithm are facts about K[X]. -/

namespace Sys2Proof.Machine

open Polynomial (C X)
open scoped Polynomial

variable {K : Type} [Field K] {F : FieldTables} {next : Nat → Nat} {φ : Nat → K}

/-! ### A built field as a field of Mathlib (R126 to R129) -/

/-- φ is an isomorphism from the built field's numbers below q to the field K. -/
structure FieldTables.Models (F : FieldTables) (next : Nat → Nat) (φ : Nat → K) : Prop extends F.Built next where
  map_zero : φ 0 = 0
  map_one : φ 1 = 1
  inj : ∀ {a b}, a < F.q → b < F.q → φ a = φ b → a = b
  map_add : ∀ {a b}, a < F.q → b < F.q → φ (F.add a b) = φ a + φ b
  map_mul : ∀ {a b}, a < F.q → b < F.q → φ (F.mul a b) = φ a * φ b

/-- The numbers a field computes with. -/
def FieldTables.Elem (F : FieldTables) : Type := {a : Nat // a < F.q}

/-- The element a number below q is. -/
def FieldTables.elemOf (F : FieldTables) (h0 : 0 < F.q) (a : Nat) : F.Elem := if ha : a < F.q then ⟨a, ha⟩ else ⟨0, h0⟩

/-- The field axioms of a built field, on its elements. -/
@[reducible] def FieldTables.Built.elemField (h : F.Built next) : Field F.Elem :=
  have hq : 1 < F.q := by have := h.size; omega
  have h0 : 0 < F.q := by omega
  letI : Add F.Elem := ⟨fun a b => ⟨F.add a.1 b.1, h.add_lt a.2 b.2⟩⟩
  letI : Mul F.Elem := ⟨fun a b => ⟨F.mul a.1 b.1, h.mul_lt a.2 b.2⟩⟩
  letI : Neg F.Elem := ⟨fun a => ⟨F.neg a.1, FieldTables.neg_lt a.2⟩⟩
  letI : Zero F.Elem := ⟨⟨0, h0⟩⟩
  letI : One F.Elem := ⟨⟨1, hq⟩⟩
  letI : Inv F.Elem := ⟨fun a => if a.1 = 0 then ⟨0, h0⟩ else ⟨F.inv a.1, h.inv_lt a.1⟩⟩
  .ofMinimalAxioms F.Elem
    (fun a b c => Subtype.ext (F.add_assoc a.1 b.1 c.1))
    (fun a => Subtype.ext ((F.add_comm 0 a.1).trans (F.add_zero a.2)))
    (fun a => Subtype.ext ((F.add_comm _ a.1).trans (F.add_neg a.2)))
    (fun a b c => Subtype.ext (h.mul_assoc a.2 b.2 c.2))
    (fun a b => Subtype.ext (F.mul_comm a.1 b.1))
    (fun a => Subtype.ext (h.one_mul a.2))
    (fun a ha => by
      have ha0 : a.1 ≠ 0 := fun hc => ha (Subtype.ext hc)
      refine Subtype.ext ?_
      change F.mul a.1 (if a.1 = 0 then (⟨0, h0⟩ : F.Elem) else ⟨F.inv a.1, h.inv_lt a.1⟩).1 = 1
      rw [if_neg ha0]
      exact h.mul_inv ha0 a.2)
    (if_pos rfl)
    (fun a b c => Subtype.ext (h.mul_add a.2 b.2 c.2))
    ⟨⟨0, h0⟩, ⟨1, hq⟩, fun hc => Nat.zero_ne_one (congrArg Subtype.val hc)⟩

/-- Every built field is a field of Mathlib. -/
theorem FieldTables.Built.exists_models (h : F.Built next) :
    ∃ (K : Type) (_ : Field K) (φ : Nat → K), F.Models next φ := by
  have h0 : 0 < F.q := by have := h.size; omega
  have hφ : ∀ {a : Nat} (ha : a < F.q), F.elemOf h0 a = ⟨a, ha⟩ := fun ha => dif_pos ha
  let _ := h.elemField
  refine ⟨F.Elem, inferInstance, F.elemOf h0, h, hφ h0, hφ (by have := h.size; omega), ?_, ?_, ?_⟩
  · intro a b ha hb hab
    rw [hφ ha, hφ hb] at hab
    exact congrArg Subtype.val hab
  · intro a b ha hb
    rw [hφ ha, hφ hb, hφ (h.add_lt ha hb)]
    rfl
  · intro a b ha hb
    rw [hφ ha, hφ hb, hφ (h.mul_lt ha hb)]
    rfl

namespace FieldTables.Models

variable {a b : Nat}

theorem zero_lt (h : F.Models next φ) : 0 < F.q := by have := h.size; omega

theorem one_lt (h : F.Models next φ) : 1 < F.q := by have := h.size; omega

theorem map_eq_zero (h : F.Models next φ) (ha : a < F.q) : φ a = 0 ↔ a = 0 :=
  ⟨fun hc => h.inj ha h.zero_lt (hc.trans h.map_zero.symm), fun hc => hc ▸ h.map_zero⟩

theorem map_neg (h : F.Models next φ) (ha : a < F.q) : φ (F.neg a) = -φ a := by
  refine (neg_eq_of_add_eq_zero_right ?_).symm
  rw [← h.map_add ha (neg_lt ha), add_neg ha, h.map_zero]

theorem sub_lt (h : F.Models next φ) (ha : a < F.q) (hb : b < F.q) : F.sub a b < F.q := by
  rw [F.sub_eq_add_neg a hb]
  exact h.add_lt ha (neg_lt hb)

theorem map_sub (h : F.Models next φ) (ha : a < F.q) (hb : b < F.q) : φ (F.sub a b) = φ a - φ b := by
  rw [F.sub_eq_add_neg a hb, h.map_add ha (neg_lt hb), h.map_neg hb]
  ring

theorem map_inv (h : F.Models next φ) (h0 : a ≠ 0) (ha : a < F.q) : φ (F.inv a) = (φ a)⁻¹ := by
  have hmul := h.map_mul ha (h.inv_lt a)
  rw [h.mul_inv h0 ha, h.map_one] at hmul
  exact eq_inv_of_mul_eq_one_right hmul.symm

theorem exp_lt (h : F.Models next φ) (i : Nat) : F.exp (i % (F.q - 1)) < F.q := by
  rw [h.exp_eq (h.mod_lt i)]
  exact h.power_lt _

theorem div_lt (h : F.Models next φ) (a b : Nat) : F.div a b < F.q := by
  unfold div
  split
  · exact h.zero_lt
  · exact h.exp_lt _

theorem map_div (h : F.Models next φ) (ha : a < F.q) (hb0 : b ≠ 0) (hb : b < F.q) :
    φ (F.div a b) = φ a / φ b := by
  rw [h.div_eq_mul_inv ha hb0 hb, h.map_mul ha (h.inv_lt b), h.map_inv hb0 hb, div_eq_mul_inv]

theorem gexp_lt (h : F.Models next φ) (i : Nat) : F.gexp i < F.q := h.exp_lt i

theorem gexp_ne_zero (h : F.Models next φ) (i : Nat) : F.gexp i ≠ 0 := by
  rw [h.gexp_eq]
  exact (h.power_pos i).ne'

/-- gexp(i) is α^i (R129). -/
theorem map_gexp (h : F.Models next φ) (i : Nat) : φ (F.gexp i) = φ (F.gexp 1) ^ i := by
  induction i with
  | zero => rw [h.gexp_eq, pow_zero]; exact h.map_one
  | succ i ih =>
    have hmul : F.gexp (i + 1) = F.mul (F.gexp i) (F.gexp 1) := by
      rw [h.gexp_eq, h.gexp_eq, h.gexp_eq, h.power_mul_power]
    rw [hmul, h.map_mul (h.gexp_lt i) (h.gexp_lt 1), ih, pow_succ]

theorem map_gexp_ne_zero (h : F.Models next φ) (i : Nat) : φ (F.gexp i) ≠ 0 := fun hc =>
  h.gexp_ne_zero i ((h.map_eq_zero (h.gexp_lt i)).1 hc)

/-- The powers α^0 .. α^(q-2) are pairwise distinct (R124). -/
theorem map_gexp_inj (h : F.Models next φ) {i j : Nat} (hi : i < F.q - 1) (hj : j < F.q - 1)
    (he : φ (F.gexp i) = φ (F.gexp j)) : i = j := by
  have hij := h.inj (h.gexp_lt i) (h.gexp_lt j) he
  rw [h.gexp_eq, h.gexp_eq] at hij
  exact h.power_inj hi hj hij

end FieldTables.Models

/-! ### Coefficient lists as polynomials (R138) -/

/-- The polynomial over K of a list of coefficients, index = degree. -/
noncomputable def polyOf (φ : Nat → K) : CoeffList → K[X]
  | [] => 0
  | c :: p => C (φ c) + X * polyOf φ p

theorem polyOf_singleton (c : Nat) : polyOf φ [c] = C (φ c) := by simp [polyOf]

theorem coeff_polyOf (h0 : φ 0 = 0) (p : CoeffList) (i : Nat) : (polyOf φ p).coeff i = φ (p.getD i 0) := by
  induction p generalizing i with
  | nil => simp [polyOf, h0]
  | cons c p ih =>
    cases i with
    | zero => simp [polyOf]
    | succ i => simp [polyOf, ih]

theorem polyOf_append (p r : CoeffList) : polyOf φ (p ++ r) = polyOf φ p + X ^ p.length * polyOf φ r := by
  induction p with
  | nil => simp [polyOf]
  | cons c p ih => simp only [List.cons_append, polyOf, ih, List.length_cons]; ring

theorem polyOf_replicate_zero (h0 : φ 0 = 0) (n : Nat) : polyOf φ (List.replicate n 0) = 0 := by
  induction n with
  | zero => rfl
  | succ n ih => simp [List.replicate_succ, polyOf, h0, ih]

theorem getD_normalise (p : CoeffList) (i : Nat) : (normalise p).getD i 0 = p.getD i 0 := by
  induction p generalizing i with
  | nil => rfl
  | cons c p ih =>
    rw [normalise]
    split
    · rename_i hn
      rw [hn] at ih
      cases i with
      | zero => split <;> simp [*]
      | succ i => rw [List.getD_cons_succ, ← ih]; split <;> simp
    · rename_i d r hn
      rw [hn] at ih
      cases i with
      | zero => rfl
      | succ i => exact ih i

theorem normalise_normalise (p : CoeffList) : normalise (normalise p) = normalise p := by
  induction p with
  | nil => rfl
  | cons c p ih =>
    rw [normalise]
    split
    · split
      · rfl
      · simp [normalise, *]
    · rename_i d r hn
      rw [hn] at ih
      rw [normalise, ih]

theorem mem_of_mem_normalise {p : CoeffList} {c : Nat} (h : c ∈ normalise p) : c ∈ p := by
  induction p with
  | nil => exact h
  | cons d p ih =>
    rw [normalise] at h
    split at h
    · split at h
      · cases h
      · exact List.mem_cons.2 (.inl (List.mem_singleton.1 h))
    · rename_i hn
      rw [hn] at ih
      exact List.mem_cons.2 ((List.mem_cons.1 h).imp_right ih)

/-- The length of the normalised list is the least bound on the degrees of the non-zero coefficients. -/
theorem length_normalise_le_iff {p : CoeffList} {k : Nat} :
    (normalise p).length ≤ k ↔ ∀ i, k ≤ i → p.getD i 0 = 0 := by
  refine ⟨fun h i hi => ?_, fun h => ?_⟩
  · rw [← getD_normalise]
    exact List.getD_eq_default _ _ (by omega)
  · induction p generalizing k with
    | nil => exact Nat.zero_le k
    | cons c p ih =>
      cases k with
      | zero =>
        have hc : c = 0 := h 0 (Nat.zero_le 0)
        have hp : (normalise p).length ≤ 0 := ih fun i _ => h (i + 1) (Nat.zero_le _)
        rw [Nat.le_zero, List.length_eq_zero_iff] at hp
        simp [normalise, hp, hc]
      | succ k =>
        have hp : (normalise p).length ≤ k := ih fun i hi => h (i + 1) (Nat.succ_le_succ hi)
        rw [normalise]
        split
        · split <;> simp
        · rename_i hn
          rw [hn] at hp
          exact Nat.succ_le_succ hp

end Sys2Proof.Machine

namespace Sys2Proof.Machine

open Polynomial (C X)
open scoped Polynomial

variable {K : Type} [Field K] {F : FieldTables} {next : Nat → Nat} {φ : Nat → K}

/-- The list p of field elements, with no trailing zero, represents the polynomial P. -/
structure FieldTables.Rep (F : FieldTables) (φ : Nat → K) (p : CoeffList) (P : K[X]) : Prop where
  lt : ∀ c ∈ p, c < F.q
  normal : normalise p = p
  eq : polyOf φ p = P

theorem getD_zipPoly {f : Nat → Nat → Nat} (h0 : f 0 0 = 0) (p r : CoeffList) (i : Nat) :
    (zipPoly f p r).getD i 0 = f (p.getD i 0) (r.getD i 0) := by
  induction p generalizing r i with
  | nil =>
    have hmap := List.getD_map (l := r) (d := 0) (n := i) (f := f 0)
    rw [h0] at hmap
    exact hmap
  | cons c p ih =>
    cases r with
    | nil =>
      have hmap := List.getD_map (l := c :: p) (d := 0) (n := i) (f := fun c => f c 0)
      simp only [h0] at hmap
      exact hmap
    | cons d r =>
      cases i with
      | zero => rfl
      | succ i => exact ih r i

namespace FieldTables.Models

variable {p r : CoeffList} {P R : K[X]}

theorem getD_lt (h : F.Models next φ) (hp : ∀ c ∈ p, c < F.q) (i : Nat) : p.getD i 0 < F.q := by
  rw [List.getD_eq_getElem?_getD]
  cases hi : p[i]? with
  | none => exact h.zero_lt
  | some c => exact hp c (List.mem_of_getElem? hi)

theorem rep_normalise (h : F.Models next φ) (hp : ∀ c ∈ p, c < F.q) : F.Rep φ (normalise p) (polyOf φ p) where
  lt c hc := hp c (mem_of_mem_normalise hc)
  normal := normalise_normalise p
  eq := by
    ext i
    rw [coeff_polyOf h.map_zero, coeff_polyOf h.map_zero, getD_normalise]

theorem peval_lt (h : F.Models next φ) (hp : ∀ c ∈ p, c < F.q) {v : Nat} (hv : v < F.q) : peval F p v < F.q := by
  induction p with
  | nil => exact h.zero_lt
  | cons c p ih =>
    rw [List.forall_mem_cons] at hp
    exact h.add_lt (h.mul_lt (ih hp.2) hv) hp.1

/-- peval is evaluation (R138). -/
theorem map_peval (h : F.Models next φ) (hp : ∀ c ∈ p, c < F.q) {v : Nat} (hv : v < F.q) :
    φ (peval F p v) = (polyOf φ p).eval (φ v) := by
  induction p with
  | nil => rw [polyOf, Polynomial.eval_zero]; exact h.map_zero
  | cons c p ih =>
    rw [List.forall_mem_cons] at hp
    have hpv := h.peval_lt hp.2 hv
    rw [peval, h.map_add (h.mul_lt hpv hv) hp.1, h.map_mul hpv hv, ih hp.2]
    simp only [polyOf, Polynomial.eval_add, Polynomial.eval_mul, Polynomial.eval_C, Polynomial.eval_X]
    ring

/-! #### Degree and leading coefficient of a represented polynomial -/

theorem rep_coeff (h : F.Models next φ) (hp : F.Rep φ p P) (i : Nat) : P.coeff i = φ (p.getD i 0) := by
  rw [← hp.eq, coeff_polyOf h.map_zero]

theorem rep_length_le_iff (h : F.Models next φ) (hp : F.Rep φ p P) {k : Nat} : p.length ≤ k ↔ P.degree < k := by
  rw [Polynomial.degree_lt_iff_coeff_zero, ← hp.normal, length_normalise_le_iff]
  refine forall₂_congr fun i _ => ?_
  rw [h.rep_coeff hp, h.map_eq_zero (h.getD_lt hp.lt i)]

theorem rep_length (h : F.Models next φ) (hp : F.Rep φ p P) (hP : P ≠ 0) : p.length = P.natDegree + 1 := by
  have hle := (h.rep_length_le_iff hp (k := P.natDegree + 1)).2 (by
    rw [Polynomial.degree_eq_natDegree hP]
    exact_mod_cast Nat.lt_succ_self _)
  have hge := (h.rep_length_le_iff hp (k := P.natDegree)).not.2 (by simp [Polynomial.degree_eq_natDegree hP])
  omega

theorem rep_length_eq_zero_iff (h : F.Models next φ) (hp : F.Rep φ p P) : p.length = 0 ↔ P = 0 := by
  refine ⟨fun hc => ?_, fun hc => Nat.le_zero.1 ((h.rep_length_le_iff hp).2 (by simp [hc]))⟩
  rw [← hp.eq, List.length_eq_zero_iff.1 hc, polyOf]

theorem rep_degree_lt (h : F.Models next φ) (hp : F.Rep φ p P) (hr : F.Rep φ r R) (hR : R ≠ 0)
    (hlt : p.length < r.length) : P.degree < R.degree := by
  have hlen := h.rep_length hr hR
  rw [Polynomial.degree_eq_natDegree hR, ← h.rep_length_le_iff hp]
  omega

theorem lead_lt (h : F.Models next φ) (hp : F.Rep φ p P) : lead p < F.q := by
  rw [lead, List.getLastD_eq_getLast?, List.getLast?_eq_getElem?, ← List.getD_eq_getElem?_getD]
  exact h.getD_lt hp.lt _

theorem map_lead (h : F.Models next φ) (hp : F.Rep φ p P) : φ (lead p) = P.leadingCoeff := by
  rw [lead, List.getLastD_eq_getLast?, List.getLast?_eq_getElem?, ← List.getD_eq_getElem?_getD, ← h.rep_coeff hp]
  by_cases hP : P = 0
  · simp [hP]
  · rw [h.rep_length hp hP, Nat.add_sub_cancel, Polynomial.leadingCoeff]

/-! #### The operations -/

theorem rep_nil : F.Rep φ [] 0 := ⟨by simp, rfl, rfl⟩

theorem rep_one (h : F.Models next φ) : F.Rep φ [1] 1 :=
  ⟨by simpa using h.one_lt, rfl, by simp [polyOf, h.map_one]⟩

/-- A list given by its coefficients, all in the field, represents the polynomial with those coefficients. -/
theorem rep_of_getD (h : F.Models next φ) {f : Nat → Nat} (hp : ∀ i, p.getD i 0 = f i) (hlt : ∀ i, f i < F.q)
    (hP : ∀ i, φ (f i) = P.coeff i) : F.Rep φ (normalise p) P := by
  have hn := h.rep_normalise (p := p) fun c hc => by
    obtain ⟨i, hi⟩ := List.mem_iff_getElem?.1 hc
    have hfi := hp i
    rw [List.getD_eq_getElem?_getD, hi, Option.getD_some] at hfi
    exact hfi ▸ hlt i
  convert hn using 1
  ext i
  rw [coeff_polyOf h.map_zero, hp, hP]

theorem rep_padd (h : F.Models next φ) (hp : F.Rep φ p P) (hr : F.Rep φ r R) : F.Rep φ (padd F p r) (P + R) := by
  have hzero : F.add 0 0 = 0 := add_zero h.zero_lt
  refine h.rep_of_getD (getD_zipPoly hzero p r) (fun i => h.add_lt (h.getD_lt hp.lt i) (h.getD_lt hr.lt i)) fun i => ?_
  rw [h.map_add (h.getD_lt hp.lt i) (h.getD_lt hr.lt i), ← h.rep_coeff hp, ← h.rep_coeff hr, Polynomial.coeff_add]

theorem rep_psub (h : F.Models next φ) (hp : F.Rep φ p P) (hr : F.Rep φ r R) : F.Rep φ (psub F p r) (P - R) := by
  have hzero : F.sub 0 0 = 0 := (h.map_eq_zero (h.sub_lt h.zero_lt h.zero_lt)).1 (by
    rw [h.map_sub h.zero_lt h.zero_lt, sub_self])
  refine h.rep_of_getD (getD_zipPoly hzero p r) (fun i => h.sub_lt (h.getD_lt hp.lt i) (h.getD_lt hr.lt i)) fun i => ?_
  rw [h.map_sub (h.getD_lt hp.lt i) (h.getD_lt hr.lt i), ← h.rep_coeff hp, ← h.rep_coeff hr, Polynomial.coeff_sub]

theorem rep_pscale (h : F.Models next φ) (hp : F.Rep φ p P) {c : Nat} (hc : c < F.q) :
    F.Rep φ (pscale F p c) (P * C (φ c)) := by
  have hget : ∀ i, (p.map (F.mul · c)).getD i 0 = F.mul (p.getD i 0) c := fun i => by
    have hmap := List.getD_map (l := p) (d := 0) (n := i) (f := (F.mul · c))
    simp only [mul_zero_left] at hmap
    exact hmap
  refine h.rep_of_getD hget (fun i => h.mul_lt (h.getD_lt hp.lt i) hc) fun i => ?_
  rw [h.map_mul (h.getD_lt hp.lt i) hc, ← h.rep_coeff hp, Polynomial.coeff_mul_C]

theorem rep_pshift (h : F.Models next φ) (hp : ∀ c ∈ p, c < F.q) (n : Nat) :
    F.Rep φ (pshift p n) (X ^ n * polyOf φ p) := by
  have hn := h.rep_normalise (p := List.replicate n 0 ++ p) fun c hc => by
    rcases List.mem_append.1 hc with hc | hc
    · rw [List.eq_of_mem_replicate hc]
      exact h.zero_lt
    · exact hp c hc
  rwa [polyOf_append, polyOf_replicate_zero h.map_zero, zero_add, List.length_replicate] at hn

theorem rep_pmul (h : F.Models next φ) (hp : F.Rep φ p P) (hr : F.Rep φ r R) : F.Rep φ (pmul F p r) (P * R) := by
  have hmul : ∀ p : CoeffList, (∀ c ∈ p, c < F.q) → F.Rep φ (pmul F p r) (polyOf φ p * R) := fun p hp => by
    induction p with
    | nil => rw [polyOf, zero_mul]; exact rep_nil
    | cons c p ih =>
      rw [List.forall_mem_cons] at hp
      have hsum := h.rep_padd (h.rep_pscale hr hp.1) (h.rep_pshift (ih hp.2).lt 1)
      rw [(ih hp.2).eq] at hsum
      rw [pmul, polyOf]
      convert hsum using 1
      ring
  exact hp.eq ▸ hmul p hp.lt

/-- pmodx drops a multiple of x^n. -/
theorem rep_pmodx (h : F.Models next φ) (hp : F.Rep φ p P) (n : Nat) :
    ∃ Q, F.Rep φ (pmodx p n) (P - X ^ n * Q) ∧ (pmodx p n).length ≤ n := by
  have hn := h.rep_normalise (p := p.take n) fun c hc => hp.lt c (List.mem_of_mem_take hc)
  have hdvd : X ^ n ∣ P - polyOf φ (p.take n) := Polynomial.X_pow_dvd_iff.2 fun i hi => by
    rw [Polynomial.coeff_sub, h.rep_coeff hp, coeff_polyOf h.map_zero, List.getD_eq_getElem?_getD,
      List.getD_eq_getElem?_getD, List.getElem?_take_of_lt hi, sub_self]
  obtain ⟨Q, hQ⟩ := hdvd
  refine ⟨Q, ?_, ?_⟩
  · rw [← hQ, sub_sub_cancel]
    exact hn
  · rw [pmodx, length_normalise_le_iff]
    exact fun i hi => List.getD_eq_default _ _ (by rw [List.length_take]; omega)

/-- One round of the long division removes the leading term of the remainder (R138). -/
theorem degree_round_lt (h : F.Models next φ) {d rem : CoeffList} {D R : K[X]} (hd : F.Rep φ d D) (hD : D ≠ 0)
    (hrem : F.Rep φ rem R) (hR : R ≠ 0) (hle : d.length ≤ rem.length) :
    (R - D * (X ^ (rem.length - d.length) * polyOf φ [F.div (lead rem) (lead d)])).degree < R.degree := by
  have hlead : φ (lead d) ≠ 0 := by rwa [h.map_lead hd, Ne, Polynomial.leadingCoeff_eq_zero]
  have hlead0 : lead d ≠ 0 := fun hc => hlead (by rw [hc, h.map_zero])
  have hcoeff : φ (F.div (lead rem) (lead d)) = R.leadingCoeff / D.leadingCoeff := by
    rw [h.map_div (h.lead_lt hrem) hlead0 (h.lead_lt hd), h.map_lead hrem, h.map_lead hd]
  have hDc : D.leadingCoeff ≠ 0 := Polynomial.leadingCoeff_ne_zero.2 hD
  have hRc : R.leadingCoeff ≠ 0 := Polynomial.leadingCoeff_ne_zero.2 hR
  have hlenD := h.rep_length hd hD
  have hlenR := h.rep_length hrem hR
  rw [polyOf_singleton, hcoeff]
  refine Polynomial.degree_sub_lt_left ?_ hR ?_
  · rw [Polynomial.degree_mul, Polynomial.degree_mul, Polynomial.degree_X_pow,
      Polynomial.degree_C (div_ne_zero hRc hDc), Polynomial.degree_eq_natDegree hD, Polynomial.degree_eq_natDegree hR,
      hlenD, hlenR]
    norm_cast
    omega
  · rw [Polynomial.leadingCoeff_mul, Polynomial.leadingCoeff_mul, Polynomial.leadingCoeff_X_pow,
      Polynomial.leadingCoeff_C, one_mul, mul_div_cancel₀ _ hDc]

/-- The rounds of the long division keep dividend = divisor · quotient + remainder (R138). -/
theorem rep_divLoop (h : F.Models next φ) {d : CoeffList} {D : K[X]} (hd : F.Rep φ d D) (hD : D ≠ 0) {fuel : Nat}
    {quo rem : CoeffList} {A Q R : K[X]} (hquo : F.Rep φ quo Q) (hrem : F.Rep φ rem R) (hA : A = D * Q + R)
    (hfuel : rem.length ≤ fuel) :
    ∃ Q' R', F.Rep φ (divLoop F d fuel quo rem).1 Q' ∧ F.Rep φ (divLoop F d fuel quo rem).2 R' ∧ A = D * Q' + R' ∧
      R'.degree < D.degree := by
  have hlen := h.rep_length hd hD
  induction fuel generalizing quo rem Q R with
  | zero => exact ⟨Q, R, hquo, hrem, hA, h.rep_degree_lt hrem hd hD (by omega)⟩
  | succ fuel ih =>
    rw [divLoop]
    split
    · exact ⟨Q, R, hquo, hrem, hA, h.rep_degree_lt hrem hd hD ‹_›⟩
    · rename_i hge
      have hR : R ≠ 0 := fun hR => by
        have := (h.rep_length_eq_zero_iff hrem).2 hR
        omega
      have hlenR := h.rep_length hrem hR
      have ht := h.rep_pshift (p := [F.div (lead rem) (lead d)]) (by simpa using h.div_lt _ _) (rem.length - d.length)
      have hrem' := h.rep_psub hrem (h.rep_pmul hd ht)
      have hlt := h.degree_round_lt hd hD hrem hR (Nat.le_of_not_lt hge)
      refine ih (h.rep_padd hquo ht) hrem' (by rw [hA]; ring) ((h.rep_length_le_iff hrem').2 (hlt.trans_le ?_))
      rw [Polynomial.degree_eq_natDegree hR]
      exact_mod_cast (by omega : R.natDegree ≤ fuel)

/-- pdivmod is division with remainder (R138). -/
theorem rep_pdivmod (h : F.Models next φ) {a d : CoeffList} {A D : K[X]} (ha : F.Rep φ a A) (hd : F.Rep φ d D)
    (hD : D ≠ 0) :
    ∃ Q R, F.Rep φ (pdivmod F a d).1 Q ∧ F.Rep φ (pdivmod F a d).2 R ∧ A = D * Q + R ∧ R.degree < D.degree :=
  h.rep_divLoop hd hD rep_nil ha (by rw [mul_zero, zero_add]) le_rfl

end FieldTables.Models

end Sys2Proof.Machine

namespace Sys2Proof.Machine

open Polynomial (C X)
open scoped Polynomial

variable {K : Type} [Field K] {F : FieldTables} {next : Nat → Nat} {φ : Nat → K}

/-! ### Blocks, the generator and the parity (R151 to R155) -/

theorem degree_polyOf_lt (h0 : φ 0 = 0) (p : CoeffList) : (polyOf φ p).degree < p.length :=
  Polynomial.degree_lt_iff_coeff_zero _ _ |>.2 fun i hi => by
    rw [coeff_polyOf h0, List.getD_eq_default _ _ hi, h0]

theorem getD_reverse {l : List Nat} {i : Nat} (hi : i < l.length) :
    l.reverse.getD i 0 = l.getD (l.length - 1 - i) 0 := by
  rw [List.getD_eq_getElem?_getD, List.getD_eq_getElem?_getD, List.getElem?_reverse hi]

theorem getD_map_range (f : Nat → Nat) {n i : Nat} (hi : i < n) : ((List.range n).map f).getD i 0 = f i := by
  simp [hi]

/-- The generator polynomial, the product of x - α^(b+j) for j < ec (R152). -/
noncomputable def genPoly (F : FieldTables) (φ : Nat → K) (b ec : Nat) : K[X] :=
  ∏ j ∈ Finset.range ec, (X - C (φ (F.gexp (b + j))))

theorem genPoly_monic (F : FieldTables) (φ : Nat → K) (b ec : Nat) : (genPoly F φ b ec).Monic :=
  Polynomial.monic_prod_of_monic _ _ fun _ _ => Polynomial.monic_X_sub_C _

theorem genPoly_natDegree (F : FieldTables) (φ : Nat → K) (b ec : Nat) : (genPoly F φ b ec).natDegree = ec := by
  rw [genPoly, Polynomial.natDegree_prod_of_monic _ _ fun _ _ => Polynomial.monic_X_sub_C _]
  simp

theorem genPoly_degree (F : FieldTables) (φ : Nat → K) (b ec : Nat) : (genPoly F φ b ec).degree = ec := by
  rw [Polynomial.degree_eq_natDegree (genPoly_monic F φ b ec).ne_zero, genPoly_natDegree]

theorem eval_genPoly (F : FieldTables) (φ : Nat → K) (b : Nat) {ec j : Nat} (hj : j < ec) :
    (genPoly F φ b ec).eval (φ (F.gexp (b + j))) = 0 := by
  rw [genPoly, Polynomial.eval_prod]
  exact Finset.prod_eq_zero (Finset.mem_range.2 hj) (by simp)

/-- Two polynomials of degree below ec that differ by a multiple of the generator are equal. -/
theorem eq_of_genPoly_dvd_sub {b ec : Nat} {P R : K[X]} (hP : P.degree < ec) (hR : R.degree < ec)
    (hdvd : genPoly F φ b ec ∣ P - R) : P = R :=
  sub_eq_zero.1 (Polynomial.eq_zero_of_dvd_of_degree_lt hdvd
    (((Polynomial.degree_sub_le _ _).trans_lt (max_lt hP hR)).trans_eq (genPoly_degree F φ b ec).symm))

theorem generator_succ (F : FieldTables) (b ec : Nat) :
    generator F b (ec + 1) = pmul F (generator F b ec) [F.sub 0 (F.gexp (b + ec)), 1] := by
  rw [generator, List.range_succ, List.foldl_append]
  rfl

/-- The LFSR's coefficients G[1 .. ec] (R153). -/
def lfsrTaps (F : FieldTables) (b ec : Nat) : List Nat :=
  (List.range ec).map fun j => (generator F b ec).getD (ec - 1 - j) 0

/-- A block's polynomial times x has the entries of the block from the highest degree down. -/
theorem coeff_X_mul_reverse (h0 : φ 0 = 0) (r : List Nat) {i : Nat} (hi : i ≤ r.length) :
    (X * polyOf φ r.reverse).coeff i = φ (r.getD (r.length - i) 0) := by
  cases i with
  | zero => rw [Polynomial.coeff_X_mul_zero, List.getD_eq_default _ _ (by omega), h0]
  | succ i => rw [Polynomial.coeff_X_mul, coeff_polyOf h0, getD_reverse hi, Nat.sub_sub, Nat.add_comm 1]

namespace FieldTables.Models

variable {b ec : Nat} {d r : List Nat}

theorem rep_generator (h : F.Models next φ) (b ec : Nat) : F.Rep φ (generator F b ec) (genPoly F φ b ec) := by
  induction ec with
  | zero => exact h.rep_one
  | succ ec ih =>
    have hroot := h.gexp_lt (b + ec)
    have hfactor : F.Rep φ [F.sub 0 (F.gexp (b + ec)), 1] (X - C (φ (F.gexp (b + ec)))) := by
      refine ⟨by simpa using ⟨h.sub_lt h.zero_lt hroot, h.one_lt⟩, by simp [normalise], ?_⟩
      rw [polyOf, polyOf_singleton, h.map_sub h.zero_lt hroot, h.map_zero, h.map_one, Polynomial.C_sub, Polynomial.C_0,
        Polynomial.C_1]
      ring
    have hprod := h.rep_pmul ih hfactor
    rwa [genPoly, ← Finset.prod_range_succ, ← genPoly, ← generator_succ] at hprod

/-- The value of a block is that of its polynomial (R151). -/
theorem map_blockValue (h : F.Models next φ) (hr : ∀ v ∈ r, v < F.q) {v : Nat} (hv : v < F.q) :
    φ (blockValue F r v) = (polyOf φ r.reverse).eval (φ v) := by
  have hrep := h.rep_normalise (p := r.reverse) fun c hc => hr c (List.mem_reverse.1 hc)
  rw [blockValue, ← peval_blockPoly, blockPoly, h.map_peval hrep.lt hv, hrep.eq]

theorem blockValue_lt (h : F.Models next φ) (hr : ∀ v ∈ r, v < F.q) {v : Nat} (hv : v < F.q) :
    blockValue F r v < F.q := by
  rw [blockValue, ← peval_blockPoly]
  exact h.peval_lt (h.rep_normalise fun c hc => hr c (List.mem_reverse.1 hc)).lt hv

/-- A block is a code block when the roots of the generator are roots of its polynomial (R155). -/
theorem isBlock_iff (h : F.Models next φ) (hr : ∀ v ∈ r, v < F.q) :
    IsBlock F b ec r ↔ ∀ j < ec, (polyOf φ r.reverse).eval (φ (F.gexp (b + j))) = 0 :=
  forall₂_congr fun j _ => by
    rw [← h.map_blockValue hr (h.gexp_lt _), h.map_eq_zero (h.blockValue_lt hr (h.gexp_lt _))]

/-- The parity is the negated remainder of data · x^ec by the generator (R153). -/
theorem parity_spec (h : F.Models next φ) (b ec : Nat) (hd : ∀ v ∈ d, v < F.q) :
    ∃ (rem : CoeffList) (R : K[X]), F.Rep φ rem R ∧
      parity F b ec d = (List.range ec).map (fun j => F.neg (rem.getD (ec - 1 - j) 0)) ∧
      genPoly F φ b ec ∣ X ^ ec * polyOf φ d.reverse - R ∧ R.degree < ec := by
  have hdata := h.rep_normalise (p := d.reverse) fun c hc => hd c (List.mem_reverse.1 hc)
  have hshift := h.rep_pshift hdata.lt ec
  obtain ⟨Q, R, -, hrem, heq, hlt⟩ := h.rep_pdivmod hshift (h.rep_generator b ec) (genPoly_monic F φ b ec).ne_zero
  refine ⟨_, R, hrem, rfl, ⟨Q, ?_⟩, hlt.trans_eq (genPoly_degree F φ b ec)⟩
  rw [← hdata.eq, heq]
  ring

theorem parity_lt (h : F.Models next φ) (hd : ∀ v ∈ d, v < F.q) : ∀ v ∈ parity F b ec d, v < F.q := by
  obtain ⟨rem, R, hrem, heq, -⟩ := h.parity_spec b ec hd
  rw [heq]
  intro v hv
  obtain ⟨j, -, rfl⟩ := List.mem_map.1 hv
  exact neg_lt (h.getD_lt hrem.lt _)

/-- Data followed by its parity is a multiple of the generator (R153, R155). -/
theorem isBlock_append_parity (h : F.Models next φ) (hd : ∀ v ∈ d, v < F.q) :
    IsBlock F b ec (d ++ parity F b ec d) := by
  obtain ⟨rem, R, hrem, heq, ⟨Q, hQ⟩, hlt⟩ := h.parity_spec b ec hd
  have hparity : polyOf φ (parity F b ec d).reverse = -R := by
    ext i
    rw [coeff_polyOf h.map_zero, Polynomial.coeff_neg]
    by_cases hi : i < ec
    · rw [getD_reverse (by simpa using hi), parity_length, heq, getD_map_range _ (by omega),
        show ec - 1 - (ec - 1 - i) = i by omega, h.map_neg (h.getD_lt hrem.lt i), h.rep_coeff hrem]
    · rw [List.getD_eq_default _ _ (by simpa using hi), h.map_zero,
        (Polynomial.degree_lt_iff_coeff_zero _ _).1 hlt i (by omega), neg_zero]
  refine (h.isBlock_iff fun v hv => ?_).2 fun j hj => ?_
  · exact (List.mem_append.1 hv).elim (hd v) (h.parity_lt hd v)
  · rw [List.reverse_append, polyOf_append, hparity, List.length_reverse, parity_length, neg_add_eq_sub, hQ,
      Polynomial.eval_mul, eval_genPoly F φ b hj, zero_mul]

/-! #### The LFSR (R153) -/

theorem lfsrStep_length (F : FieldTables) (ec : Nat) (g reg : List Nat) (v : Nat) :
    (lfsrStep F ec g reg v).length = ec := by simp [lfsrStep]

/-- Cell j after one clock; the last cell has no left neighbour, which reads as 0. -/
theorem getD_lfsrStep_spec (h : F.Models next φ) {reg : List Nat} (hlen : reg.length = ec) (hreg : ∀ c ∈ reg, c < F.q)
    {v j : Nat} (hv : v < F.q) (hj : j < ec) :
    (lfsrStep F ec (lfsrTaps F b ec) reg v).getD j 0 < F.q ∧
      φ ((lfsrStep F ec (lfsrTaps F b ec) reg v).getD j 0) =
        φ (reg.getD (j + 1) 0) - (φ v + φ (reg.getD 0 0)) * (genPoly F φ b ec).coeff (ec - 1 - j) := by
  have hgen := h.rep_generator b ec
  have hreg0 := h.getD_lt hreg 0
  have hnext := h.getD_lt hreg (j + 1)
  have hsum := h.add_lt hv hreg0
  have htap := h.getD_lt hgen.lt (ec - 1 - j)
  have hterm := h.mul_lt hsum htap
  rw [h.rep_coeff hgen, ← h.map_add hv hreg0, ← h.map_mul hsum htap, lfsrStep]
  simp only [lfsrTaps]
  rw [getD_map_range _ hj, getD_map_range _ hj]
  split
  · exact ⟨h.sub_lt hnext hterm, h.map_sub hnext hterm⟩
  · have hlast : reg.getD (j + 1) 0 = 0 := List.getD_eq_default _ _ (by omega)
    rw [hlast, h.map_zero, zero_sub]
    exact ⟨neg_lt hterm, h.map_neg hterm⟩

theorem lfsrStep_lt (h : F.Models next φ) {reg : List Nat} (hlen : reg.length = ec) (hreg : ∀ c ∈ reg, c < F.q)
    {v : Nat} (hv : v < F.q) : ∀ c ∈ lfsrStep F ec (lfsrTaps F b ec) reg v, c < F.q := by
  intro c hc
  obtain ⟨j, hj, rfl⟩ := List.mem_iff_getElem.1 hc
  rw [← List.getD_eq_getElem _ 0]
  exact (h.getD_lfsrStep_spec hlen hreg hv (by rwa [lfsrStep_length] at hj)).1

/-- One clock of the LFSR multiplies the register's polynomial by x, adds v·x^ec and subtracts the multiple of the
generator that clears x^ec. -/
theorem polyOf_lfsrStep (h : F.Models next φ) {reg : List Nat} (hlen : reg.length = ec) (hreg : ∀ c ∈ reg, c < F.q)
    {v : Nat} (hv : v < F.q) :
    polyOf φ (lfsrStep F ec (lfsrTaps F b ec) reg v).reverse =
      X * polyOf φ reg.reverse + X ^ ec * C (φ v) - C (φ v + φ (reg.getD 0 0)) * genPoly F φ b ec := by
  have hcell := fun j => h.getD_lfsrStep_spec (b := b) (j := j) hlen hreg hv
  have hsteplen := lfsrStep_length F ec (lfsrTaps F b ec) reg v
  generalize lfsrStep F ec (lfsrTaps F b ec) reg v = step at hcell hsteplen
  ext i
  rw [coeff_polyOf h.map_zero, Polynomial.coeff_sub, Polynomial.coeff_add, Polynomial.coeff_C_mul,
    Polynomial.coeff_X_pow_mul']
  rcases Nat.lt_trichotomy i ec with hi | rfl | hi
  · rw [getD_reverse (by omega), hsteplen, (hcell _ (by omega)).2, coeff_X_mul_reverse h.map_zero reg (by omega), hlen,
      show ec - 1 - (ec - 1 - i) = i by omega, show ec - 1 - i + 1 = ec - i by omega, if_neg (by omega)]
    ring
  · have hlead := genPoly_monic F φ b i
    rw [Polynomial.Monic, Polynomial.leadingCoeff, genPoly_natDegree] at hlead
    rw [List.getD_eq_default _ _ (by simp [hsteplen]), coeff_X_mul_reverse h.map_zero reg hlen.ge, hlen, Nat.sub_self,
      if_pos le_rfl, Polynomial.coeff_C_zero, hlead, h.map_zero]
    ring
  · obtain ⟨k, rfl⟩ : ∃ k, i = ec + k + 1 := ⟨i - ec - 1, by omega⟩
    rw [List.getD_eq_default _ _ (by simp [hsteplen]; omega), Polynomial.coeff_X_mul, coeff_polyOf h.map_zero,
      List.getD_eq_default _ _ (by simp [hlen]), if_pos (by omega), Polynomial.coeff_C_of_ne_zero (by omega),
      Polynomial.coeff_eq_zero_of_natDegree_lt (by rw [genPoly_natDegree]; omega), h.map_zero]
    ring

/-- After the data the register's polynomial is data · x^ec modulo the generator. -/
theorem lfsr_spec (h : F.Models next φ) (b ec : Nat) (hd : ∀ v ∈ d, v < F.q) :
    let reg := d.foldl (lfsrStep F ec (lfsrTaps F b ec)) (List.replicate ec 0)
    reg.length = ec ∧ (∀ c ∈ reg, c < F.q) ∧ genPoly F φ b ec ∣ X ^ ec * polyOf φ d.reverse - polyOf φ reg.reverse := by
  induction d using List.reverseRecOn with
  | nil =>
    refine ⟨by simp, fun c hc => (List.eq_of_mem_replicate hc).trans_lt h.zero_lt, ?_⟩
    simp [polyOf, polyOf_replicate_zero h.map_zero]
  | append_singleton d v ih =>
    obtain ⟨hlen, hreg, Q, hQ⟩ := ih fun c hc => hd c (List.mem_append_left _ hc)
    have hv := hd v (by simp)
    simp only [List.foldl_append, List.foldl_cons, List.foldl_nil]
    generalize d.foldl (lfsrStep F ec (lfsrTaps F b ec)) (List.replicate ec 0) = reg at hlen hreg hQ ⊢
    refine ⟨lfsrStep_length .., h.lfsrStep_lt hlen hreg hv, X * Q + C (φ v + φ (reg.getD 0 0)), ?_⟩
    rw [h.polyOf_lfsrStep hlen hreg hv, List.reverse_append, List.reverse_singleton, List.singleton_append, polyOf]
    linear_combination X * hQ

/-- The LFSR's register is the remainder: both are data · x^ec modulo the generator, of degree below ec (R153). -/
theorem parity_eq_lfsrParity (h : F.Models next φ) (b ec : Nat) (hd : ∀ v ∈ d, v < F.q) :
    parity F b ec d = lfsrParity F ec (lfsrTaps F b ec) d := by
  obtain ⟨rem, R, hrem, heq, hdvdR, hlt⟩ := h.parity_spec b ec hd
  obtain ⟨hlen, hreg, hdvd⟩ := h.lfsr_spec b ec hd
  rw [heq, lfsrParity]
  generalize d.foldl _ _ = reg at *
  have hltreg := degree_polyOf_lt h.map_zero reg.reverse
  rw [List.length_reverse, hlen] at hltreg
  have hR : R = polyOf φ reg.reverse := eq_of_genPoly_dvd_sub hlt hltreg (by
    have := dvd_sub hdvd hdvdR
    rwa [sub_sub_sub_cancel_left] at this)
  refine List.ext_getElem (by simp [hlen]) fun j hj _ => ?_
  have hjec : j < ec := by simpa using hj
  rw [List.getElem_map, List.getElem_map, List.getElem_range, ← List.getD_eq_getElem _ 0]
  congr 1
  refine h.inj (h.getD_lt hrem.lt _) (h.getD_lt hreg _) ?_
  rw [← h.rep_coeff hrem, hR, coeff_polyOf h.map_zero, getD_reverse (by omega), hlen,
    show ec - 1 - (ec - 1 - j) = j by omega]

end FieldTables.Models

end Sys2Proof.Machine

namespace Sys2Proof.Machine

/-! ### The commands' checks and writes (R150, R154, R156 to R159, R171) -/

section

variable {i : Instr} {s : State} {n : Nat} {body : Prop}

/-- The range check of the codewords, as the statements say it (R150). -/
theorem codewordChecks_of (hbad : ∀ j, s.badCodeword n = some j → exec i s = s.raise .outOfRange j)
    (hok : s.badCodeword n = none → body) : CodewordChecks i s n body :=
  ⟨fun j hj hq hlt => hbad j (State.badCodeword_eq_some.2 ⟨hj, hq, hlt⟩),
    fun hlt => hok (State.badCodeword_eq_none.2 hlt)⟩

/-- The check for marks at or beyond n, as the statements say it (R159). -/
theorem erasureChecks_of (hbad : ∀ j, s.badErasure n = some j → exec i s = s.raise .outOfRange j)
    (hok : s.badErasure n = none → body) : ErasureChecks i s n body := by
  refine ⟨fun j hn hcap hj hfirst => hbad j ?_, fun hzero => hok ?_⟩
  · exact State.badErasure_of_first hn hcap hj fun l hl hlj => by simp [hfirst l hl hlj]
  · exact State.badErasure_eq_none.2 fun j hn hcap => by simp [hzero j hn hcap]

/-- The set E of the statements is the model's (R159). -/
theorem State.erasures_eq (s : State) (n : Nat) : s.erasures n = (List.range n).filter fun j => s.er.read j = 1 :=
  List.filter_congr fun j _ => by rw [beq_eq_decide]

theorem State.codewords_lt (h : s.badCodeword n = none) : ∀ v ∈ s.codewords n, v < s.field.q := by
  intro v hv
  obtain ⟨j, hj⟩ := List.mem_iff_getElem?.1 hv
  obtain ⟨hlt, -⟩ := List.getElem?_eq_some_iff.1 hj
  rw [State.codewords_length] at hlt
  rw [State.codewords_getElem? s hlt] at hj
  exact Option.some.inj hj ▸ State.badCodeword_eq_none.1 h j hlt

theorem State.getD_codewords (s : State) {j : Nat} (h : j < n) : (s.codewords n).getD j 0 = (s.cw.read j).toNat := by
  rw [List.getD_eq_getElem?_getD, State.codewords_getElem? s h, Option.getD_some]

/-- CW[0 .. n-1] is the block that has its entries. -/
theorem State.codewords_eq {l : List Nat} (hl : l.length = n) (h : ∀ j < n, (s.cw.read j).toNat = l.getD j 0) :
    s.codewords n = l := by
  refine List.ext_getElem (by simp [hl]) fun j hj hjl => ?_
  rw [State.codewords_length] at hj
  rw [← List.getD_eq_getElem _ 0, ← List.getD_eq_getElem _ 0, s.getD_codewords hj, h j hj]

/-- Codewords written inside CW read back, and every other entry is as before (R154, R171). -/
theorem State.read_writeCodewords {a : Nat} {vals : List Nat} (hs : s.memoryInv) (ha : a + vals.length ≤ s.params.cwCap)
    (hv : ∀ v ∈ vals, v < 2 ^ 16) (j : Nat) :
    ((s.writeCodewords a vals).cw.read j).toNat =
      if a ≤ j ∧ j < a + vals.length then vals.getD (j - a) 0 else (s.cw.read j).toNat := by
  obtain ⟨-, hcw, -⟩ := hs
  rw [State.writeCodewords_cw, Memory.read_writeList hcw (by simpa using ha), List.length_map]
  split
  · have hlt : j - a < vals.length := by omega
    have hval : vals[j - a] < 2 ^ 16 := hv _ (List.getElem_mem hlt)
    simpa [hlt, Nat.mod_eq_iff_lt] using hval
  · rfl

/-- A built field's numbers are codewords: GF_SIZE is at most GF_MAXSIZE (00_scope.md R5). -/
theorem State.fieldSize_le (hs : s.fieldInv) (hv : s.gfValid = true) : s.field.q ≤ 2 ^ 16 := by
  obtain ⟨next, hnext, -⟩ := s.built_of_fieldInv hs hv
  have hok := s.params.ok
  simp only [paramsOk, Bool.and_eq_true, decide_eq_true_eq] at hok
  exact (nextOf_size hnext).2.trans hok.2

/-- While GF_VALID = 1 the unit's field is a field of Mathlib. -/
theorem State.models_of_fieldInv (hs : s.fieldInv) (hv : s.gfValid = true) :
    ∃ (K : Type) (_ : Field K) (next : Nat → Nat) (φ : Nat → K), s.field.Models next φ := by
  obtain ⟨next, -, hbuilt⟩ := s.built_of_fieldInv hs hv
  obtain ⟨K, hK, φ, h⟩ := hbuilt.exists_models
  exact ⟨K, hK, next, φ, h⟩

theorem isBlock_iff_isCodeBlock (F : FieldTables) (b ec : Nat) (r : List Nat) :
    IsBlock F b ec r ↔ isCodeBlock F b ec r = true := (isCodeBlock_iff F b ec r).symm

end

/-! #### RS.ENC -/

section

variable {rs1 rs2 : Reg} {s : State}

theorem exec_rsEnc_of_bad {j : Nat} (hv : ¬s.gfValid = false)
    (hk : ¬(s.field.q < s.val rs1 + s.val rs2 ∨ s.params.cwCap < s.val rs1 + s.val rs2))
    (hj : s.badCodeword (s.val rs1) = some j) : exec (.rsEnc rs1 rs2) s = s.raise .outOfRange j := by
  change execRsEnc rs1 rs2 s = _
  rw [execRsEnc, if_neg hv, if_neg hk, hj]

theorem exec_rsEnc_of_ok (hv : ¬s.gfValid = false)
    (hk : ¬(s.field.q < s.val rs1 + s.val rs2 ∨ s.params.cwCap < s.val rs1 + s.val rs2))
    (hj : s.badCodeword (s.val rs1) = none) :
    exec (.rsEnc rs1 rs2) s =
      (s.writeCodewords (s.val rs1) (parity s.field s.base (s.val rs2) (s.codewords (s.val rs1)))).complete := by
  change execRsEnc rs1 rs2 s = _
  rw [execRsEnc, if_neg hv, if_neg hk, hj]

/-- The parity RS.ENC writes reads back (R154). -/
theorem wroteCodewords_parity (hs : s.Inv) (hv : s.gfValid = true) {k ec : Nat} (hcap : k + ec ≤ s.params.cwCap)
    (hk : s.badCodeword k = none) :
    WroteCodewords s (s.writeCodewords k (parity s.field s.base ec (s.codewords k))).advance k
      (parity s.field s.base ec (s.codewords k)) := by
  obtain ⟨K, _, next, φ, h⟩ := State.models_of_fieldInv hs.field hv
  refine ⟨rfl, State.read_writeCodewords hs.memory (by simpa using hcap) fun v hmem => ?_⟩
  exact (h.parity_lt (State.codewords_lt hk) v hmem).trans_le (State.fieldSize_le hs.field hv)

/-- Settles O43: the checks in order, then one write of the parity. -/
theorem encWritesParityAfterData : Obligations.EncWritesParityAfterData := by
  intro rs1 rs2 s hs k ec
  refine ⟨encode_opByte _, ?_⟩
  split
  · exact if_pos ‹_›
  rename_i hv
  split
  · exact (if_neg hv).trans (if_pos ‹_›)
  rename_i hk
  refine codewordChecks_of (fun j => exec_rsEnc_of_bad hv hk) fun hj =>
    ⟨_, exec_rsEnc_of_ok hv hk hj, ?_, parity_length ..⟩
  exact wroteCodewords_parity hs (Bool.eq_true_of_not_eq_false hv) (Nat.le_of_not_lt fun hc => hk (.inr hc)) hj

/-- Settles O44: the LFSR's register is the remainder. -/
theorem lfsrComputesParity : Obligations.LfsrComputesParity := by
  intro s ec d hs hv hd
  obtain ⟨K, _, next, φ, h⟩ := State.models_of_fieldInv hs hv
  exact h.parity_eq_lfsrParity _ ec hd

/-- RS.ENC that leaves the block running passed its checks and wrote the parity. -/
theorem rsEnc_of_running {t : State} (h : exec (.rsEnc rs1 rs2) s = .next t) (hrun : t.runstate = .run) :
    s.gfValid = true ∧ s.val rs1 + s.val rs2 ≤ s.params.cwCap ∧ s.badCodeword (s.val rs1) = none ∧
      t = (s.writeCodewords (s.val rs1) (parity s.field s.base (s.val rs2) (s.codewords (s.val rs1)))).advance := by
  by_cases hv : s.gfValid = false
  · exact absurd hrun (State.not_running_of_raise ((if_pos hv).symm.trans h))
  by_cases hk : s.field.q < s.val rs1 + s.val rs2 ∨ s.params.cwCap < s.val rs1 + s.val rs2
  · exact absurd hrun (State.not_running_of_raise (((if_neg hv).trans (if_pos hk)).symm.trans h))
  cases hj : s.badCodeword (s.val rs1) with
  | some j => exact absurd hrun (State.not_running_of_raise ((exec_rsEnc_of_bad hv hk hj).symm.trans h))
  | none =>
    refine ⟨Bool.eq_true_of_not_eq_false hv, Nat.le_of_not_lt fun hc => hk (.inr hc), rfl, ?_⟩
    exact (State.complete_next_iff.1 ((exec_rsEnc_of_ok hv hk hj).symm.trans h)).symm

/-- Settles O45: the codewords are the data and its parity, a multiple of the generator. -/
theorem encodedBlockHasZeroSyndromes : Obligations.EncodedBlockHasZeroSyndromes := by
  intro rs1 rs2 s t hs _ hexec hrun
  obtain ⟨hv, hcap, hk, rfl⟩ := rsEnc_of_running hexec hrun
  obtain ⟨K, _, next, φ, h⟩ := State.models_of_fieldInv hs.field hv
  obtain ⟨-, hread⟩ := wroteCodewords_parity hs hv hcap hk
  have hblock := h.isBlock_append_parity (b := s.base) (ec := s.val rs2) (State.codewords_lt hk)
  refine (congrArg (IsBlock s.field s.base (s.val rs2)) ?_).mpr hblock
  refine State.codewords_eq ?_ fun j hj => ?_
  · rw [List.length_append, State.codewords_length, parity_length]
    rfl
  rw [hread, parity_length]
  by_cases hjk : j < s.val rs1
  · rw [if_neg (by omega), List.getD_append _ _ _ _ (by simpa using hjk), s.getD_codewords hjk]
  · rw [if_pos ⟨by omega, hj⟩, List.getD_append_right _ _ _ _ (by simpa using hjk), State.codewords_length]

end

/-! #### RS.CHK, RS.ERASE and RS.ERCLR -/

section

variable {rd rs1 rs2 : Reg} {s : State}

theorem exec_rsChk_of_bad {j : Nat} (hv : ¬s.gfValid = false)
    (hn : ¬(s.field.q < s.val rs1 ∨ s.params.cwCap < s.val rs1)) (hec : ¬s.val rs1 < s.val rs2)
    (hj : s.badCodeword (s.val rs1) = some j) : exec (.rsChk rd rs1 rs2) s = s.raise .outOfRange j := by
  change execRsChk rd rs1 rs2 s = _
  rw [execRsChk, if_neg hv, if_neg hn, if_neg hec, hj]

theorem exec_rsChk_of_ok (hv : ¬s.gfValid = false)
    (hn : ¬(s.field.q < s.val rs1 ∨ s.params.cwCap < s.val rs1)) (hec : ¬s.val rs1 < s.val rs2)
    (hj : s.badCodeword (s.val rs1) = none) :
    exec (.rsChk rd rs1 rs2) s =
      (s.setReg rd (boolWord (isCodeBlock s.field s.base (s.val rs2) (s.codewords (s.val rs1))))).complete := by
  change execRsChk rd rs1 rs2 s = _
  rw [execRsChk, if_neg hv, if_neg hn, if_neg hec, hj]

end

/-- Settles O46: the checks in order, then one register write of the test. -/
theorem chkTestsSyndromes : Obligations.ChkTestsSyndromes := by
  intro rd rs1 rs2 s n ec
  refine ⟨encode_opByte _, ?_⟩
  split
  · exact if_pos ‹_›
  rename_i hv
  split
  · exact (if_neg hv).trans (if_pos ‹_›)
  rename_i hn
  split
  · exact (if_neg hv).trans ((if_neg hn).trans (if_pos ‹_›))
  rename_i hec
  refine codewordChecks_of (fun j => exec_rsChk_of_bad hv hn hec) fun hj =>
    ⟨_, _, exec_rsChk_of_ok hv hn hec hj, wroteReg_setReg s rd _, ?_⟩
  rw [isBlock_iff_isCodeBlock]
  change _ ∧ boolWord (isCodeBlock s.field s.base ec (s.codewords n)) = 1 ∨ _
  cases hblock : isCodeBlock s.field s.base ec (s.codewords n) with
  | true => exact .inl ⟨hblock, rfl⟩
  | false => exact .inr ⟨ne_true_of_eq_false hblock, congrArg boolWord hblock⟩

/-- Settles O47: one write to ER, or the empty ER. -/
theorem erasureMarksSetAndCleared : Obligations.ErasureMarksSetAndCleared := by
  intro rs1 s hs p
  obtain ⟨-, -, her⟩ := hs
  refine ⟨encode_opByte _, by decide, ?_, _, rfl, rfl, fun _ => rfl⟩
  split
  · exact if_pos ‹_›
  · exact ⟨_, if_neg ‹_›, rfl, fun j => Memory.read_write her⟩

end Sys2Proof.Machine

namespace Sys2Proof.Machine

/-! ### RS.DEC around Decode (R159 to R161, R164 to R171, R173) -/

theorem getD_foldl_set (f : Nat → Nat) (A : List Nat) {l : List Nat} {j : Nat} (hj : j < l.length) :
    (A.foldl (fun out p => out.set p (f p)) l).getD j 0 = if j ∈ A then f j else l.getD j 0 := by
  induction A generalizing l with
  | nil => simp
  | cons p A ih =>
    rw [List.foldl_cons, ih (by simpa using hj)]
    by_cases hA : j ∈ A
    · simp [hA]
    by_cases hp : p = j
    · subst hp
      simp [hj]
    · simp [hA, hp, Ne.symm hp]

/-- The correction replaces the entries of A and no other (R169). -/
theorem getD_correct (F : FieldTables) (b n : Nat) (A : List Nat) (omega : CoeffList) {r : List Nat} {j : Nat}
    (hj : j < r.length) :
    (correct F b n A omega r).getD j 0 =
      if j ∈ A then F.sub (r.getD j 0) (magnitude F b n A omega j) else r.getD j 0 :=
  getD_foldl_set (fun p => F.sub (r.getD p 0) (magnitude F b n A omega p)) A hj

/-- What an Ok of Decode is: a code block, either the received one or got by correcting the marks and at most
(ec - |E|) / 2 other positions (R160 to R170). -/
theorem decodeBlock_cases {F : FieldTables} {b n ec : Nat} {E r out : List Nat}
    (h : decodeBlock F b n ec E r = some out) :
    isCodeBlock F b ec out = true ∧ (out = r ∨ ∃ P omega,
      2 * P.length + E.length ≤ ec ∧ out = correct F b n (E ++ P) omega r) := by
  unfold decodeBlock at h
  split at h
  · rename_i hclean
    cases h
    exact ⟨hclean, .inl rfl⟩
  split at h
  · cases h
  simp only [decodeTail, Option.ite_none_left_eq_some, Option.ite_none_right_eq_some, Option.some.injEq] at h
  obtain ⟨-, hbudget, -, hP, hblock, rfl⟩ := h
  refine ⟨hblock, .inr ⟨_, _, ?_, rfl⟩⟩
  have hlen := not_not.1 (not_or.1 hP).1
  rw [hlen]
  exact Nat.le_of_not_lt hbudget

/-- Decode changes marked positions and at most (ec - |E|) / 2 others (R173). -/
theorem decodeBlock_changes {F : FieldTables} {b n ec : Nat} {E r out : List Nat}
    (h : decodeBlock F b n ec E r = some out) :
    out = r ∨ ∃ P : List Nat, 2 * P.length + E.length ≤ ec ∧
      ∀ j < r.length, j ∉ E → j ∉ P → out.getD j 0 = r.getD j 0 := by
  obtain ⟨-, hout⟩ := decodeBlock_cases h
  refine hout.imp_right fun ⟨P, omega, hbudget, he⟩ => ⟨P, hbudget, fun j hj hE hP => ?_⟩
  rw [he, getD_correct F b n _ omega hj, if_neg fun hc => (List.mem_append.1 hc).elim hE hP]

section

variable {K : Type} [Field K] {F : FieldTables} {next : Nat → Nat} {φ : Nat → K}

theorem FieldTables.Models.magnitude_lt (h : F.Models next φ) (b n : Nat) (A : List Nat) (omega : CoeffList) (p : Nat) :
    magnitude F b n A omega p < F.q := h.div_lt _ _

/-- Decode stays in the field. -/
theorem FieldTables.Models.decodeBlock_lt (h : F.Models next φ) {b n ec : Nat} {E r out : List Nat}
    (hdec : decodeBlock F b n ec E r = some out) (hr : ∀ v ∈ r, v < F.q) : ∀ v ∈ out, v < F.q := by
  have hlen := decodeBlock_length hdec
  obtain ⟨-, rfl | ⟨P, omega, -, rfl⟩⟩ := decodeBlock_cases hdec
  · exact hr
  · intro v hv
    obtain ⟨j, hj, rfl⟩ := List.mem_iff_getElem.1 hv
    rw [← List.getD_eq_getElem _ 0, getD_correct F b n _ omega (by omega)]
    split
    · exact h.sub_lt (h.getD_lt hr j) (h.magnitude_lt ..)
    · exact h.getD_lt hr j

end

/-- The checks of RS.DEC have passed (R150, R159). -/
structure State.DecChecked (s : State) (n ec : Nat) : Prop where
  valid : s.gfValid = true
  size : ¬(s.field.q - 1 < n ∨ s.params.cwCap < n)
  ec_le : ¬n < ec
  codewords : s.badCodeword n = none
  marks : s.badErasure n = none

/-- What RS.DEC writes for an answer of Decode (R171). -/
def State.decoded (s : State) (rd : Reg) : Option (List Nat) → State
  | some out => (s.writeCodewords 0 out).setReg rd 0
  | none => s.setReg rd 1

/-- Decode's answer for CW[0 .. n-1] and the marks below n (R159). -/
def State.rsDecode (s : State) (n ec : Nat) : Option (List Nat) :=
  decodeBlock s.field s.base n ec (s.erasures n) (s.codewords n)

section

variable {rd rs1 rs2 : Reg} {s : State}

theorem exec_rsDec_of_badCodeword {j : Nat} (hv : ¬s.gfValid = false)
    (hn : ¬(s.field.q - 1 < s.val rs1 ∨ s.params.cwCap < s.val rs1)) (hec : ¬s.val rs1 < s.val rs2)
    (hj : s.badCodeword (s.val rs1) = some j) : exec (.rsDec rd rs1 rs2) s = s.raise .outOfRange j := by
  change execRsDec rd rs1 rs2 s = _
  rw [execRsDec, if_neg hv, if_neg hn, if_neg hec, hj]

theorem exec_rsDec_of_badErasure {j : Nat} (hv : ¬s.gfValid = false)
    (hn : ¬(s.field.q - 1 < s.val rs1 ∨ s.params.cwCap < s.val rs1)) (hec : ¬s.val rs1 < s.val rs2)
    (hcw : s.badCodeword (s.val rs1) = none) (hj : s.badErasure (s.val rs1) = some j) :
    exec (.rsDec rd rs1 rs2) s = s.raise .outOfRange j := by
  change execRsDec rd rs1 rs2 s = _
  rw [execRsDec, if_neg hv, if_neg hn, if_neg hec, hcw]
  simp only [hj]

/-- RS.DEC after its checks (R171). -/
theorem exec_rsDec_of_checked (h : s.DecChecked (s.val rs1) (s.val rs2)) :
    exec (.rsDec rd rs1 rs2) s = (s.decoded rd (s.rsDecode (s.val rs1) (s.val rs2))).complete := by
  have hv : ¬s.gfValid = false := by simp [h.valid]
  change execRsDec rd rs1 rs2 s = _
  rw [execRsDec, if_neg hv, if_neg h.size, if_neg h.ec_le, h.codewords]
  simp only [h.marks]
  change (match s.rsDecode (s.val rs1) (s.val rs2) with | some out => _ | none => _) = _
  cases s.rsDecode (s.val rs1) (s.val rs2) <;> rfl

/-- RS.DEC that leaves the block running passed its checks and wrote Decode's answer. -/
theorem rsDec_of_running {t : State} (h : exec (.rsDec rd rs1 rs2) s = .next t) (hrun : t.runstate = .run) :
    s.DecChecked (s.val rs1) (s.val rs2) ∧ t = (s.decoded rd (s.rsDecode (s.val rs1) (s.val rs2))).advance := by
  by_cases hv : s.gfValid = false
  · exact absurd hrun (State.not_running_of_raise ((if_pos hv).symm.trans h))
  by_cases hn : s.field.q - 1 < s.val rs1 ∨ s.params.cwCap < s.val rs1
  · exact absurd hrun (State.not_running_of_raise (((if_neg hv).trans (if_pos hn)).symm.trans h))
  by_cases hec : s.val rs1 < s.val rs2
  · exact absurd hrun (State.not_running_of_raise (((if_neg hv).trans ((if_neg hn).trans (if_pos hec))).symm.trans h))
  cases hcw : s.badCodeword (s.val rs1) with
  | some j => exact absurd hrun (State.not_running_of_raise ((exec_rsDec_of_badCodeword hv hn hec hcw).symm.trans h))
  | none =>
    cases her : s.badErasure (s.val rs1) with
    | some j =>
      exact absurd hrun (State.not_running_of_raise ((exec_rsDec_of_badErasure hv hn hec hcw her).symm.trans h))
    | none =>
      have hchecked : s.DecChecked (s.val rs1) (s.val rs2) := ⟨Bool.eq_true_of_not_eq_false hv, hn, hec, hcw, her⟩
      exact ⟨hchecked, (State.complete_next_iff.1 ((exec_rsDec_of_checked hchecked).symm.trans h)).symm⟩

end

section

variable {s : State} {rd : Reg} {n ec : Nat} {out : List Nat}

/-- An Ok written back: the block reads back, every other entry of CW is as before (R171). -/
theorem State.read_decoded_some (rd : Reg) (hs : s.memoryInv) (hout : out.length = n) (hcap : n ≤ s.params.cwCap)
    (hlt : ∀ v ∈ out, v < 2 ^ 16) (j : Nat) :
    ((s.decoded rd (some out)).cw.read j).toNat = if j < n then out.getD j 0 else (s.cw.read j).toNat := by
  have hread := State.read_writeCodewords (a := 0) hs (by omega) hlt j
  rw [State.decoded, State.setReg_cw, hread, hout]
  simp

theorem State.codewords_decoded_some (rd : Reg) (hs : s.memoryInv) (hout : out.length = n) (hcap : n ≤ s.params.cwCap)
    (hlt : ∀ v ∈ out, v < 2 ^ 16) : (s.decoded rd (some out)).advance.codewords n = out :=
  State.codewords_eq hout fun j hj => (State.read_decoded_some rd hs hout hcap hlt j).trans (if_pos hj)

theorem State.reg_decoded_some (s : State) (rd : Reg) (out : List Nat) (r : Reg) :
    (s.decoded rd (some out)).advance.reg r = if r = rd then 0 else s.reg r := by
  rw [State.reg_advance, State.decoded, State.reg_setReg, State.reg_writeCodewords]

theorem State.rsDecode_length (h : s.rsDecode n ec = some out) : out.length = n :=
  (decodeBlock_length h).trans (State.codewords_length s n)

/-- Decode's Ok is a block of codewords in the field, which CW can hold. -/
theorem State.rsDecode_lt (hs : s.fieldInv) (hv : s.gfValid = true) (hcw : s.badCodeword n = none)
    (h : s.rsDecode n ec = some out) : ∀ v ∈ out, v < s.field.q := by
  obtain ⟨K, _, next, φ, hφ⟩ := State.models_of_fieldInv hs hv
  exact hφ.decodeBlock_lt h (State.codewords_lt hcw)

end

/-- Settles O48: the checks in order, then the two results. -/
theorem decChecksAndResults : Obligations.DecChecksAndResults := by
  intro rd rs1 rs2 s hs n ec i
  refine ⟨encode_opByte _, ?_⟩
  split
  · exact if_pos ‹_›
  rename_i hv
  split
  · exact (if_neg hv).trans (if_pos ‹_›)
  rename_i hn
  split
  · exact (if_neg hv).trans ((if_neg hn).trans (if_pos ‹_›))
  rename_i hec
  refine codewordChecks_of (fun j => exec_rsDec_of_badCodeword hv hn hec) fun hcw =>
    erasureChecks_of (fun j => exec_rsDec_of_badErasure hv hn hec hcw) fun her => ?_
  have hvalid := Bool.eq_true_of_not_eq_false hv
  have hexec : exec i s = (s.decoded rd (s.rsDecode n ec)).complete := exec_rsDec_of_checked ⟨hvalid, hn, hec, hcw, her⟩
  rw [hexec, ← State.erasures_eq, ← State.base, ← State.rsDecode]
  cases hdec : s.rsDecode n ec with
  | none => exact ⟨_, rfl, wroteReg_setReg s rd 1⟩
  | some out =>
    have hlen := State.rsDecode_length hdec
    have hlt : ∀ v ∈ out, v < 2 ^ 16 := fun v hmem =>
      (State.rsDecode_lt hs.field hvalid hcw hdec v hmem).trans_le (State.fieldSize_le hs.field hvalid)
    exact ⟨hlen, _, rfl, rfl, s.reg_decoded_some rd out,
      State.read_decoded_some rd hs.memory hlen (Nat.le_of_not_lt fun hc => hn (.inr hc)) hlt⟩

/-- The operand checks as the statements of R160, R161 and R172 assume them. -/
theorem State.decChecked_of {s : State} {n ec : Nat} (hv : s.gfValid = true) (hq : n ≤ s.gfSize.toNat - 1)
    (hcap : n ≤ s.params.cwCap) (hec : ec ≤ n) (hcw : ∀ j < n, (s.cw.read j).toNat < s.gfSize.toNat)
    (her : ∀ j, n ≤ j → j < s.params.cwCap → s.er.read j = 0) : s.DecChecked n ec where
  valid := hv
  size := by
    rw [not_or]
    exact ⟨Nat.not_lt.2 hq, Nat.not_lt.2 hcap⟩
  ec_le := Nat.not_lt.2 hec
  codewords := State.badCodeword_eq_none.2 hcw
  marks := State.badErasure_eq_none.2 fun j hn hj => by simp [her j hn hj]

/-- Settles O49: Decode looks at the syndromes first and at the number of marks next. -/
theorem cleanBlockUnchangedElseErasureBudget : Obligations.CleanBlockUnchangedElseErasureBudget := by
  intro rd rs1 rs2 s hs n ec erased hv hq hcap hec hcw her
  have hexec : exec (.rsDec rd rs1 rs2) s = (s.decoded rd (s.rsDecode n ec)).complete :=
    exec_rsDec_of_checked (State.decChecked_of hv hq hcap hec hcw her)
  rw [hexec, isBlock_iff_isCodeBlock]
  refine ⟨fun hclean => ?_, fun hclean hmarks => ?_⟩
  · have hdec : s.rsDecode n ec = some (s.codewords n) := if_pos hclean
    have hlt : ∀ v ∈ s.codewords n, v < 2 ^ 16 := fun v hmem => by
      obtain ⟨w, -, rfl⟩ := List.mem_map.1 hmem
      exact w.isLt
    rw [hdec]
    refine ⟨_, rfl, rfl, s.reg_decoded_some rd _, fun j => BitVec.eq_of_toNat_eq ?_⟩
    refine (State.read_decoded_some rd hs (State.codewords_length s n) hcap hlt j).trans ?_
    split
    · exact s.getD_codewords ‹_›
    · rfl
  · have hdec : s.rsDecode n ec = none := (if_neg hclean).trans (if_pos (by rwa [State.erasures_eq]))
    rw [hdec]
    exact ⟨_, rfl, wroteReg_setReg s rd 1⟩

/-- Settles O50: Decode's last step checks the syndromes, and it corrects the marks and the positions found only. -/
theorem okResultIsCodeBlockWithinBudget : Obligations.OkResultIsCodeBlockWithinBudget := by
  intro rd rs1 rs2 s t hs _ hexec hrun hrd
  obtain ⟨hchecked, rfl⟩ := rsDec_of_running hexec hrun
  cases hdec : s.rsDecode (s.val rs1) (s.val rs2) with
  | none =>
    rw [hdec, State.decoded, State.reg_advance, State.reg_setReg_same] at hrd
    cases hrd
  | some out =>
    intro n ec erased wrong
    have hcap : n ≤ s.params.cwCap := Nat.le_of_not_lt fun hc => hchecked.size (.inr hc)
    have hlen : out.length = n := State.rsDecode_length hdec
    have hltq := State.rsDecode_lt hs.field hchecked.valid hchecked.codewords hdec
    have hlt : ∀ v ∈ out, v < 2 ^ 16 := fun v hmem =>
      (hltq v hmem).trans_le (State.fieldSize_le hs.field hchecked.valid)
    have hread := State.read_decoded_some rd hs.memory hlen hcap hlt
    have hkept : ∀ j < n, out.getD j 0 = (s.codewords n).getD j 0 →
        (s.decoded rd (some out)).cw.read j = s.cw.read j := fun j hj he =>
      BitVec.eq_of_toNat_eq (by rw [hread, if_pos hj, he, s.getD_codewords hj])
    refine ⟨?_, fun j hj => ?_, (decodeBlock_changes hdec).imp ?_ ?_⟩
    · rw [State.codewords_decoded_some rd hs.memory hlen hcap hlt]
      exact (isBlock_iff_isCodeBlock ..).2 (decodeBlock_cases hdec).1
    · refine ((hread j).trans (if_pos hj)).trans_lt ?_
      rw [List.getD_eq_getElem _ _ (hlen.symm ▸ hj)]
      exact hltq _ (List.getElem_mem _)
    · rintro rfl
      obtain ⟨-, hcw, -⟩ := hs.memory
      refine Memory.ext (Memory.wf_writeList hcw (by simpa [hlen] using hcap)) hcw fun j => ?_
      by_cases hj : j < n
      · exact hkept j hj rfl
      · exact BitVec.eq_of_toNat_eq ((hread j).trans (if_neg hj))
    · rintro ⟨P, hbudget, hrest⟩
      have hsub : wrong ⊆ P := fun j hj => by
        obtain ⟨hjn, hj⟩ := List.mem_filter.1 hj
        obtain ⟨hmark, hchanged⟩ := of_decide_eq_true hj
        rw [List.mem_range] at hjn
        have hE : j ∉ s.erasures n := by simp [State.erasures, hmark]
        by_contra hP
        exact hchanged (hkept j hjn (hrest j (by simpa using hjn) hE hP))
      have hcount : wrong.length ≤ P.length := ((List.nodup_range.filter _).subperm hsub).length_le
      rw [State.erasures_eq] at hbudget
      exact (Nat.add_le_add_right (Nat.mul_le_mul_left 2 hcount) _).trans hbudget

end Sys2Proof.Machine

namespace Sys2Proof.Machine

open Polynomial (C X)
open scoped Polynomial

/-! ### The key equation (R162 to R168)

Over any field: positions carry distinct non-zero locators x and values y, and S(x) has the power sums of the values as
coefficients. -/

section

variable {K : Type} [Field K] {x y : Nat → K} {A B : Finset Nat} {p : Nat}

/-- The locator polynomial of a set of positions (R162, R164). -/
noncomputable def locPoly (x : Nat → K) (A : Finset Nat) : K[X] := ∏ i ∈ A, (1 - C (x i) * X)

/-- The evaluator polynomial of values y at the positions of A (R164). -/
noncomputable def evaluator (x y : Nat → K) (A : Finset Nat) : K[X] := ∑ i ∈ A, C (y i) * locPoly x (A.erase i)

/-- The syndrome polynomial of values y at the positions of A (R155, R162). -/
noncomputable def syndPoly (x y : Nat → K) (A : Finset Nat) (ec : Nat) : K[X] :=
  ∑ j ∈ Finset.range ec, C (∑ i ∈ A, y i * x i ^ j) * X ^ j

theorem locPoly_mul_erase (hp : p ∈ A) : (1 - C (x p) * X) * locPoly x (A.erase p) = locPoly x A :=
  Finset.mul_prod_erase A _ hp

theorem locPoly_union (h : Disjoint A B) : locPoly x (A ∪ B) = locPoly x A * locPoly x B := Finset.prod_union h

theorem eval_locPoly (v : K) : (locPoly x A).eval v = ∏ i ∈ A, (1 - x i * v) := by
  simp [locPoly, Polynomial.eval_prod]

theorem eval_locPoly_zero : (locPoly x A).eval 0 = 1 := by simp [eval_locPoly]

theorem locPoly_ne_zero : locPoly x A ≠ 0 := fun hc => by
  have := eval_locPoly_zero (x := x) (A := A)
  simp [hc] at this

theorem eval_locPoly_inv_eq_zero_iff {z : K} (hz : z ≠ 0) : (locPoly x A).eval z⁻¹ = 0 ↔ ∃ i ∈ A, x i = z := by
  rw [eval_locPoly, Finset.prod_eq_zero_iff]
  refine exists_congr fun i => and_congr_right fun _ => ?_
  rw [sub_eq_zero, eq_comm, mul_inv_eq_one₀ hz]

theorem natDegree_locPoly (hx : ∀ i ∈ A, x i ≠ 0) : (locPoly x A).natDegree = A.card := by
  have hfactor : ∀ i ∈ A, (1 - C (x i) * X : K[X]) ≠ 0 ∧ (1 - C (x i) * X : K[X]).natDegree = 1 := fun i hi => by
    have hform : (1 - C (x i) * X : K[X]) = C (-x i) * X + C 1 := by simp; ring
    have hdeg := Polynomial.natDegree_linear (b := (1 : K)) (neg_ne_zero.2 (hx i hi))
    rw [hform]
    exact ⟨fun hc => by rw [hc, Polynomial.natDegree_zero] at hdeg; omega, hdeg⟩
  rw [locPoly, Polynomial.natDegree_prod _ _ fun i hi => (hfactor i hi).1,
    Finset.sum_congr rfl fun i hi => (hfactor i hi).2]
  simp

theorem degree_evaluator_lt (hx : ∀ i ∈ A, x i ≠ 0) : (evaluator x y A).degree < A.card := by
  refine (Polynomial.degree_sum_le _ _).trans_lt ((Finset.sup_lt_iff (WithBot.bot_lt_coe _)).2 fun i hi => ?_)
  have herase := natDegree_locPoly (A := A.erase i) fun l hl => hx l (Finset.mem_of_mem_erase hl)
  have hcard := Finset.card_pos.2 ⟨i, hi⟩
  calc
    _ ≤ (locPoly x (A.erase i)).degree :=
      (Polynomial.degree_mul_le _ _).trans (add_le_of_nonpos_left Polynomial.degree_C_le)
    _ = ((A.card - 1 : Nat) : WithBot Nat) := by
      rw [Polynomial.degree_eq_natDegree locPoly_ne_zero, herase, Finset.card_erase_of_mem hi]
    _ < A.card := by exact_mod_cast Nat.sub_lt hcard one_pos

/-- At the inverse locator of p only the term of p is left. -/
theorem eval_evaluator (hp : p ∈ A) (hx : x p ≠ 0) :
    (evaluator x y A).eval (x p)⁻¹ = y p * ∏ l ∈ A.erase p, (1 - x l * (x p)⁻¹) := by
  rw [evaluator, Polynomial.eval_finsetSum, Finset.sum_eq_single_of_mem p hp]
  · rw [Polynomial.eval_mul, Polynomial.eval_C, eval_locPoly]
  · intro i _ hi
    rw [Polynomial.eval_mul, (eval_locPoly_inv_eq_zero_iff hx).2 ⟨p, Finset.mem_erase.2 ⟨hi.symm, hp⟩, rfl⟩, mul_zero]

/-- The denominator of Forney's formula is not zero: the locators are distinct (R168). -/
theorem forney_den_ne_zero (hx : x p ≠ 0) (hinj : ∀ i ∈ A, x i = x p → i = p) :
    ∏ l ∈ A.erase p, (1 - x l * (x p)⁻¹) ≠ 0 := by
  refine Finset.prod_ne_zero_iff.2 fun l hl hc => ?_
  obtain ⟨hne, hmem⟩ := Finset.mem_erase.1 hl
  exact hne (hinj l hmem ((mul_inv_eq_one₀ hx).1 (sub_eq_zero.1 hc).symm))

/-- The evaluator is zero only when every value is. -/
theorem eq_zero_of_evaluator_eq_zero (hx : ∀ i ∈ A, x i ≠ 0) (hinj : ∀ i ∈ A, ∀ j ∈ A, x i = x j → i = j)
    (h0 : evaluator x y A = 0) : ∀ i ∈ A, y i = 0 := fun i hi => by
  have heval := eval_evaluator (y := y) hi (hx i hi)
  rw [h0, Polynomial.eval_zero] at heval
  exact (mul_eq_zero.1 heval.symm).resolve_right (forney_den_ne_zero (hx i hi) fun l hl => hinj l hl i hi)

/-- The locator polynomial of positions with non-zero values has no root in common with the evaluator. -/
theorem isCoprime_locPoly_evaluator (hB : B ⊆ A) (hx : ∀ i ∈ A, x i ≠ 0) (hinj : ∀ i ∈ A, ∀ j ∈ A, x i = x j → i = j)
    (hy : ∀ i ∈ B, y i ≠ 0) : IsCoprime (locPoly x B) (evaluator x y A) := by
  refine IsCoprime.prod_left fun i hi => ?_
  have hxi := hx i (hB hi)
  have hassoc : (1 - C (x i) * X : K[X]) = C (-x i) * (X - C (x i)⁻¹) := by
    rw [mul_sub, ← Polynomial.C_mul, neg_mul, mul_inv_cancel₀ hxi]
    simp
    ring
  have hirr : Irreducible (X - C (x i)⁻¹) := Polynomial.irreducible_X_sub_C _
  rw [hassoc, isCoprime_mul_unit_left_left (Polynomial.isUnit_C.2 (neg_ne_zero.2 hxi).isUnit), hirr.coprime_iff_not_dvd,
    Polynomial.dvd_iff_isRoot, Polynomial.IsRoot, eval_evaluator (hB hi) hxi]
  exact mul_ne_zero (hy i hi) (forney_den_ne_zero hxi fun l hl => hinj l hl i (hB hi))

/-- The key equation: locator · syndromes is the evaluator modulo x^ec, by the geometric sums of the locators. -/
theorem X_pow_dvd_key (x y : Nat → K) (A : Finset Nat) (ec : Nat) :
    X ^ ec ∣ locPoly x A * syndPoly x y A ec - evaluator x y A := by
  have hsynd : syndPoly x y A ec = ∑ i ∈ A, C (y i) * ∑ j ∈ Finset.range ec, (C (x i) * X) ^ j := by
    simp only [syndPoly, map_sum, Finset.sum_mul, Finset.mul_sum]
    rw [Finset.sum_comm]
    refine Finset.sum_congr rfl fun i _ => Finset.sum_congr rfl fun j _ => ?_
    rw [mul_pow, Polynomial.C_mul, Polynomial.C_pow]
    ring
  rw [hsynd, evaluator, Finset.mul_sum, ← Finset.sum_sub_distrib]
  refine Finset.dvd_sum fun i hi => ⟨-(C (y i) * locPoly x (A.erase i) * C (x i) ^ ec), ?_⟩
  have hgeom := mul_neg_geom_sum (C (x i) * X : K[X]) ec
  rw [mul_pow] at hgeom
  rw [← locPoly_mul_erase hi]
  linear_combination C (y i) * locPoly x (A.erase i) * hgeom

end

/-! ### The Euclidean algorithm solves the key equation (R163) -/

section

variable {K : Type} [Field K] {M Ξ : K[X]}

theorem degree_mul_lt {P Q : K[X]} {a b k : Nat} (hP : P.natDegree ≤ a) (hQ : Q.degree < b) (hk : a + b ≤ k) :
    (P * Q).degree < k := by
  by_cases hQ0 : Q = 0
  · rw [hQ0, mul_zero, Polynomial.degree_zero]
    exact WithBot.bot_lt_coe k
  · have hlt := (Polynomial.natDegree_lt_iff_degree_lt hQ0).2 hQ
    have hmul := Polynomial.natDegree_mul_le (p := P) (q := Q)
    exact Polynomial.degree_le_natDegree.trans_lt (by exact_mod_cast (by omega : (P * Q).natDegree < k))

/-- Two solutions of r ≡ t·Ξ modulo M of small degree are proportional, when the first has its multipliers of M and Ξ
coprime and the second is in lowest terms. -/
theorem solution_unique {t r u σ ω v : K[X]} (hr : r = u * M + t * Ξ) (hut : IsCoprime u t) (hω : ω = v * M + σ * Ξ)
    (hσω : IsCoprime σ ω) (hσ : σ ≠ 0) (hM : M ≠ 0) (h1 : (t * ω).degree < M.degree) (h2 : (σ * r).degree < M.degree) :
    ∃ c : K, c ≠ 0 ∧ t = σ * C c ∧ r = ω * C c := by
  have hcross : t * ω = σ * r := sub_eq_zero.1 (Polynomial.eq_zero_of_dvd_of_degree_lt (p := M)
    ⟨t * v - σ * u, by rw [hr, hω]; ring⟩ ((Polynomial.degree_sub_le _ _).trans_lt (max_lt h1 h2)))
  obtain ⟨μ, hμ⟩ : σ ∣ t := hσω.dvd_of_dvd_mul_right ⟨r, hcross⟩
  have hrμ : r = ω * μ := mul_left_cancel₀ hσ (by rw [← hcross, hμ]; ring)
  have huμ : u = v * μ := mul_right_cancel₀ hM (by linear_combination hrμ - hr + μ * hω - Ξ * hμ)
  have hunit : IsUnit μ := hut.isUnit_of_dvd' ⟨v, huμ.trans (mul_comm _ _)⟩ ⟨σ, hμ.trans (mul_comm _ _)⟩
  obtain ⟨c, hc, rfl⟩ := Polynomial.isUnit_iff.1 hunit
  exact ⟨c, hc.ne_zero, hμ, hrμ⟩

/-- What every round of the Euclidean algorithm on M and Ξ keeps: remainders rp, rc and multipliers tp, tc of Ξ. -/
structure EuclidInv (M Ξ rp rc tp tc : K[X]) : Prop where
  bezout : ∃ up uc, rp = up * M + tp * Ξ ∧ rc = uc * M + tc * Ξ ∧ IsUnit (up * tc - uc * tp)
  degree_rc : rc.degree < rp.degree
  degree_tc : tc.natDegree + rp.natDegree ≤ M.natDegree
  degree_tp : tp.natDegree + rc.natDegree ≤ M.natDegree

theorem EuclidInv.start (hM : Ξ.degree < M.degree) : EuclidInv M Ξ M Ξ 0 1 where
  bezout := ⟨1, 0, by ring, by ring, by simp⟩
  degree_rc := hM
  degree_tc := by simp
  degree_tp := by simpa using Polynomial.natDegree_le_natDegree hM.le

theorem EuclidInv.round {rp rc tp tc Q R : K[X]} (h : EuclidInv M Ξ rp rc tp tc) (hrc : rc ≠ 0) (hdiv : rp = rc * Q + R)
    (hR : R.degree < rc.degree) : EuclidInv M Ξ rc R tc (tp - Q * tc) := by
  obtain ⟨⟨up, uc, hrp, hrc', hunit⟩, hdeg, htc, htp⟩ := h
  have hQ : Q.natDegree + rc.natDegree = rp.natDegree := by
    have hQ0 : Q ≠ 0 := fun hQ0 => (hR.trans hdeg).ne (by rw [hdiv, hQ0, mul_zero, zero_add])
    have hlt := hR.trans_le (Polynomial.degree_le_mul_left rc hQ0)
    rw [hdiv, Polynomial.natDegree_add_eq_left_of_degree_lt hlt, Polynomial.natDegree_mul hrc hQ0, add_comm]
  refine ⟨⟨uc, up - Q * uc, hrc', ?_, ?_⟩, hR, ?_, ?_⟩
  · linear_combination hrp - Q * hrc' - hdiv
  · rw [← IsUnit.neg_iff]
    convert hunit using 1
    ring
  · have hmax := Polynomial.natDegree_sub_le tp (Q * tc)
    have hmul := Polynomial.natDegree_mul_le (p := Q) (q := tc)
    omega
  · have := Polynomial.natDegree_le_natDegree (hR.trans hdeg).le
    omega

theorem EuclidInv.coprime {rp rc tp tc : K[X]} (h : EuclidInv M Ξ rp rc tp tc) :
    ∃ u, rc = u * M + tc * Ξ ∧ IsCoprime u tc := by
  obtain ⟨up, uc, -, hrc, w, hw⟩ := h.bezout
  refine ⟨uc, hrc, -(tp * ↑w⁻¹), up * ↑w⁻¹, ?_⟩
  linear_combination -(↑w⁻¹ : K[X]) * hw + w.inv_mul

end

end Sys2Proof.Machine

namespace Sys2Proof.Machine

open Polynomial (C X)
open scoped Polynomial

/-! ### The Euclidean algorithm on coefficient lists (R163) -/

section

variable {K : Type} [Field K] {F : FieldTables} {next : Nat → Nat} {φ : Nat → K}

/-- The loop ends with the first remainder whose double degree is below the bound, and keeps the invariant. -/
theorem FieldTables.Models.rep_euclidLoop (h : F.Models next φ) {M Ξ : K[X]} {bound fuel : Nat}
    {rp rc tp tc : CoeffList} {Rp Rc Tp Tc : K[X]} (hrp : F.Rep φ rp Rp) (hrc : F.Rep φ rc Rc) (htp : F.Rep φ tp Tp)
    (htc : F.Rep φ tc Tc)
    (hinv : EuclidInv M Ξ Rp Rc Tp Tc) (hfuel : rc.length ≤ fuel) (hbound : bound ≤ 2 * Rp.natDegree) :
    ∃ Rp' Rc' Tp' Tc', F.Rep φ (euclidLoop F bound fuel rp rc tp tc).1 Rc' ∧
      F.Rep φ (euclidLoop F bound fuel rp rc tp tc).2 Tc' ∧ EuclidInv M Ξ Rp' Rc' Tp' Tc' ∧
      2 * (euclidLoop F bound fuel rp rc tp tc).1.length < bound + 2 ∧ bound ≤ 2 * Rp'.natDegree := by
  induction fuel generalizing rp rc tp tc Rp Rc Tp Tc with
  | zero => exact ⟨Rp, Rc, Tp, Tc, hrc, htc, hinv, by simp only [euclidLoop]; omega, hbound⟩
  | succ fuel ih =>
    rw [euclidLoop]
    split
    · exact ⟨Rp, Rc, Tp, Tc, hrc, htc, hinv, ‹_›, hbound⟩
    · rename_i hlong
      have hRc : Rc ≠ 0 := fun hz => by
        have := (h.rep_length_eq_zero_iff hrc).2 hz
        omega
      have hlen := h.rep_length hrc hRc
      obtain ⟨Q, R, hQ, hR, hdiv, hlt⟩ := h.rep_pdivmod hrp hrc hRc
      refine ih hrc hR htc (h.rep_psub htp (h.rep_pmul hQ htc)) (hinv.round hRc hdiv hlt) ?_ (by omega)
      rw [h.rep_length_le_iff hR]
      refine hlt.trans_le ?_
      rw [Polynomial.degree_eq_natDegree hRc]
      exact_mod_cast (by omega : Rc.natDegree ≤ fuel)

/-- The Euclidean algorithm on x^ec and Ξ solves r ≡ t·Ξ with small degrees (R163). -/
theorem FieldTables.Models.rep_euclid (h : F.Models next φ) {xi : CoeffList} {Ξ : K[X]} {ec s : Nat}
    (hxi : F.Rep φ xi Ξ) (hlen : xi.length ≤ ec) (hs : s ≤ ec) :
    ∃ R T u, F.Rep φ (euclid F ec s xi).1 R ∧ F.Rep φ (euclid F ec s xi).2 T ∧ R = u * X ^ ec + T * Ξ ∧ IsCoprime u T ∧
      (∃ m : Nat, R.degree < m ∧ 2 * m < ec + s + 2) ∧ 2 * T.natDegree + s ≤ ec := by
  have hM : F.Rep φ (pshift [1] ec) (X ^ ec : K[X]) := by
    have hone := h.rep_one
    have hshift := h.rep_pshift hone.lt ec
    rwa [hone.eq, mul_one] at hshift
  have hstart : EuclidInv (X ^ ec) Ξ (X ^ ec) Ξ 0 1 := .start (by
    rw [Polynomial.degree_X_pow, ← h.rep_length_le_iff hxi]
    exact hlen)
  obtain ⟨Rp, R, Tp, T, hR, hT, hinv, hshort, hlong⟩ :=
    h.rep_euclidLoop (bound := ec + s) hM hxi rep_nil h.rep_one hstart hlen (by rw [Polynomial.natDegree_X_pow]; omega)
  obtain ⟨u, hu, hcop⟩ := hinv.coprime
  have hdeg := hinv.degree_tc
  rw [Polynomial.natDegree_X_pow] at hdeg
  exact ⟨R, T, u, hR, hT, hu, hcop, ⟨_, (h.rep_length_le_iff hR).1 le_rfl, hshort⟩, by omega⟩

/-! ### A received word within the budget of a code block (R172) -/

/-- The unmarked positions at which r and c differ. -/
def wrongAt (n : Nat) (E r c : List Nat) : Finset Nat :=
  (Finset.range n).filter fun i => i ∉ E ∧ r.getD i 0 ≠ c.getD i 0

/-- The word r of n codewords with marks E is within the budget of the code block c (R172). -/
structure FieldTables.Received (F : FieldTables) (b n ec : Nat) (E r c : List Nat) : Prop where
  n_le : n ≤ F.q - 1
  marks_nodup : E.Nodup
  marks_lt : ∀ i ∈ E, i < n
  r_length : r.length = n
  c_length : c.length = n
  r_lt : ∀ v ∈ r, v < F.q
  c_lt : ∀ v ∈ c, v < F.q
  block : IsBlock F b ec c
  budget : 2 * (wrongAt n E r c).card + E.length ≤ ec

/-- The locator number of position i, in K (R151). -/
def locAt (F : FieldTables) (φ : Nat → K) (n i : Nat) : K := φ (locator F n i)

/-- The error value at position i. -/
def errorAt (φ : Nat → K) (r c : List Nat) (i : Nat) : K := φ (r.getD i 0) - φ (c.getD i 0)

/-- The error value at position i with the factor X_i^b that the syndromes carry (R168). -/
def weightAt (F : FieldTables) (φ : Nat → K) (b n : Nat) (r c : List Nat) (i : Nat) : K :=
  errorAt φ r c i * locAt F φ n i ^ b

/-- The positions that may be wrong: the marked ones and the unmarked ones that are. -/
def suspects (n : Nat) (E r c : List Nat) : Finset Nat := E.toFinset ∪ wrongAt n E r c

theorem eval_polyOf (p : CoeffList) (v : K) :
    (polyOf φ p).eval v = ∑ i ∈ Finset.range p.length, φ (p.getD i 0) * v ^ i := by
  induction p with
  | nil => simp [polyOf]
  | cons c p ih =>
    rw [polyOf, Polynomial.eval_add, Polynomial.eval_C, Polynomial.eval_mul, Polynomial.eval_X, ih, List.length_cons,
      Finset.sum_range_succ', Finset.mul_sum, add_comm]
    congr 1
    · exact Finset.sum_congr rfl fun i _ => by rw [List.getD_cons_succ]; ring
    · simp

theorem polyOf_map_range (f : Nat → Nat) (n : Nat) :
    polyOf φ ((List.range n).map f) = ∑ j ∈ Finset.range n, C (φ (f j)) * X ^ j := by
  induction n with
  | zero => rfl
  | succ n ih =>
    rw [List.range_succ, List.map_append, polyOf_append, ih, Finset.sum_range_succ, List.map_singleton,
      polyOf_singleton, List.length_map, List.length_range, mul_comm (X ^ n)]

theorem FieldTables.Models.map_gexp_pow (h : F.Models next φ) (i k : Nat) :
    φ (F.gexp i) ^ k = φ (F.gexp k) ^ i := by
  rw [h.map_gexp i, h.map_gexp k, ← pow_mul, ← pow_mul, Nat.mul_comm]

theorem FieldTables.Models.locAt_ne_zero (h : F.Models next φ) (n i : Nat) : locAt F φ n i ≠ 0 := h.map_gexp_ne_zero _

theorem FieldTables.Models.locAt_inj (h : F.Models next φ) {n i j : Nat} (hn : n ≤ F.q - 1) (hi : i < n) (hj : j < n)
    (he : locAt F φ n i = locAt F φ n j) : i = j := by
  have := h.map_gexp_inj (by omega) (by omega) he
  omega

/-- The value of a block at α^(b+j) as a sum over its positions (R151, R155). -/
theorem FieldTables.Models.eval_block (h : F.Models next φ) {n : Nat} {r : List Nat} (hr : r.length = n) (j : Nat) :
    (polyOf φ r.reverse).eval (φ (F.gexp j)) = ∑ i ∈ Finset.range n, φ (r.getD i 0) * locAt F φ n i ^ j := by
  rw [eval_polyOf, List.length_reverse, hr, ← Finset.sum_range_reflect]
  refine Finset.sum_congr rfl fun i hi => ?_
  rw [Finset.mem_range] at hi
  rw [getD_reverse (by omega), hr, show n - 1 - (n - 1 - i) = i by omega, h.map_gexp_pow, locAt, locator]

namespace FieldTables.Received

variable {b n ec : Nat} {E r c : List Nat}

theorem lt_of_mem_wrongAt {i : Nat} (hi : i ∈ wrongAt n E r c) : i < n :=
  Finset.mem_range.1 (Finset.mem_filter.1 hi).1

theorem lt_of_mem_suspects (hw : F.Received b n ec E r c) {i : Nat} (hi : i ∈ suspects n E r c) : i < n := by
  rcases Finset.mem_union.1 hi with hi | hi
  · exact hw.marks_lt i (List.mem_toFinset.1 hi)
  · exact lt_of_mem_wrongAt hi

theorem eq_of_not_mem_suspects {i : Nat} (hin : i < n) (hi : i ∉ suspects n E r c) : r.getD i 0 = c.getD i 0 := by
  by_contra hne
  by_cases hE : i ∈ E
  · exact hi (Finset.mem_union_left _ (List.mem_toFinset.2 hE))
  · exact hi (Finset.mem_union_right _ (Finset.mem_filter.2 ⟨Finset.mem_range.2 hin, hE, hne⟩))

theorem disjoint_marks_wrong : Disjoint E.toFinset (wrongAt n E r c) :=
  Finset.disjoint_left.2 fun _ hE hw => (Finset.mem_filter.1 hw).2.1 (List.mem_toFinset.1 hE)

theorem card_suspects (hw : F.Received b n ec E r c) :
    (suspects n E r c).card = E.length + (wrongAt n E r c).card := by
  rw [suspects, Finset.card_union_of_disjoint disjoint_marks_wrong, List.toFinset_card_of_nodup hw.marks_nodup]

variable (h : F.Models next φ)
include h

theorem locAt_inj (hw : F.Received b n ec E r c) :
    ∀ i ∈ suspects n E r c, ∀ j ∈ suspects n E r c, locAt F φ n i = locAt F φ n j → i = j := fun _ hi _ hj =>
  h.locAt_inj hw.n_le (hw.lt_of_mem_suspects hi) (hw.lt_of_mem_suspects hj)

theorem errorAt_eq_zero_iff (hw : F.Received b n ec E r c) (i : Nat) :
    errorAt φ r c i = 0 ↔ r.getD i 0 = c.getD i 0 := by
  rw [errorAt, sub_eq_zero]
  exact ⟨h.inj (h.getD_lt hw.r_lt i) (h.getD_lt hw.c_lt i), congrArg φ⟩

theorem weightAt_eq_zero_iff (hw : F.Received b n ec E r c) (i : Nat) :
    weightAt F φ b n r c i = 0 ↔ r.getD i 0 = c.getD i 0 := by
  rw [weightAt, mul_eq_zero, hw.errorAt_eq_zero_iff h]
  exact or_iff_left (pow_ne_zero _ (h.locAt_ne_zero n i))

/-- The syndromes are the power sums of the weights: the code block's part is zero (R155). -/
theorem eval_received (hw : F.Received b n ec E r c) {j : Nat} (hj : j < ec) :
    (polyOf φ r.reverse).eval (φ (F.gexp (b + j))) =
      ∑ i ∈ suspects n E r c, weightAt F φ b n r c i * locAt F φ n i ^ j := by
  have hblock := (h.isBlock_iff hw.c_lt).1 hw.block j hj
  rw [← sub_zero (Polynomial.eval _ _), ← hblock, h.eval_block hw.r_length, h.eval_block hw.c_length,
    ← Finset.sum_sub_distrib]
  symm
  refine (Finset.sum_congr rfl fun i _ => ?_).trans
    (Finset.sum_subset (fun i hi => Finset.mem_range.2 (hw.lt_of_mem_suspects hi)) fun i hi hs => ?_)
  · rw [weightAt, errorAt, pow_add]
    ring
  · rw [eq_of_not_mem_suspects (Finset.mem_range.1 hi) hs, sub_self]

theorem rep_syndromes (hw : F.Received b n ec E r c) :
    F.Rep φ (normalise (syndromes F b ec r)) (syndPoly (locAt F φ n) (weightAt F φ b n r c) (suspects n E r c) ec) := by
  have hrev := h.rep_normalise (p := r.reverse) fun v hv => hw.r_lt v (List.mem_reverse.1 hv)
  have hlt : ∀ v ∈ syndromes F b ec r, v < F.q := fun v hv => by
    obtain ⟨j, -, rfl⟩ := List.mem_map.1 hv
    exact h.peval_lt hrev.lt (h.gexp_lt _)
  convert h.rep_normalise hlt using 1
  rw [syndromes, polyOf_map_range, syndPoly]
  refine Finset.sum_congr rfl fun j hj => ?_
  rw [blockPoly, h.map_peval hrev.lt (h.gexp_lt _), hrev.eq, hw.eval_received h (Finset.mem_range.1 hj)]

/-- A clean word within the budget is the code block (R160, R172). -/
theorem eq_of_clean (hw : F.Received b n ec E r c) (hclean : isCodeBlock F b ec r = true) : r = c := by
  have hzero : syndPoly (locAt F φ n) (weightAt F φ b n r c) (suspects n E r c) ec = 0 :=
    Finset.sum_eq_zero fun j hj => by
      rw [← hw.eval_received h (Finset.mem_range.1 hj),
        (h.isBlock_iff hw.r_lt).1 ((isBlock_iff_isCodeBlock ..).2 hclean) j (Finset.mem_range.1 hj), Polynomial.C_0,
        zero_mul]
  have hne : ∀ i ∈ suspects n E r c, locAt F φ n i ≠ 0 := fun i _ => h.locAt_ne_zero n i
  have hdvd := X_pow_dvd_key (locAt F φ n) (weightAt F φ b n r c) (suspects n E r c) ec
  rw [hzero, mul_zero, zero_sub, dvd_neg] at hdvd
  have hcard : (suspects n E r c).card ≤ ec := by
    have := hw.card_suspects
    have := hw.budget
    omega
  have hev : evaluator (locAt F φ n) (weightAt F φ b n r c) (suspects n E r c) = 0 := by
    refine Polynomial.eq_zero_of_dvd_of_degree_lt hdvd ((degree_evaluator_lt hne).trans_le ?_)
    rw [Polynomial.degree_X_pow]
    exact_mod_cast hcard
  have hall := eq_zero_of_evaluator_eq_zero hne (hw.locAt_inj h) hev
  refine List.ext_getElem (hw.r_length.trans hw.c_length.symm) fun i hi hic => ?_
  rw [← List.getD_eq_getElem _ 0, ← List.getD_eq_getElem _ 0]
  by_cases hs : i ∈ suspects n E r c
  · exact (hw.weightAt_eq_zero_iff h i).1 (hall i hs)
  · exact eq_of_not_mem_suspects (hw.r_length ▸ hi) hs

end FieldTables.Received

end

end Sys2Proof.Machine

namespace Sys2Proof.Machine

open Polynomial (C X)
open scoped Polynomial

/-! ### The steps of Decode after the Euclidean algorithm (R162 to R170) -/

theorem erasureLocator_append (F : FieldTables) (n : Nat) (E : List Nat) (i : Nat) :
    erasureLocator F n (E ++ [i]) = pmul F (erasureLocator F n E) [1, F.sub 0 (locator F n i)] := by
  rw [erasureLocator, List.foldl_append]
  rfl

/-- The positions whose inverse locators are the roots found (R166). -/
def rootPositions (F : FieldTables) (n : Nat) (sigma : CoeffList) : List Nat :=
  (rootSearch F sigma).map fun l => n - 1 - l

/-- The steps after the Euclidean algorithm when every check of theirs passes (R164 to R170). -/
theorem decodeTail_of_checks {F : FieldTables} {b n ec : Nat} {E r : List Nat} {rCur tCur : CoeffList}
    (ht0 : tCur.getD 0 0 ≠ 0) :
    let sigma := pscale F tCur (F.inv (tCur.getD 0 0))
    let out := correct F b n (E ++ rootPositions F n sigma) (pscale F rCur (F.inv (tCur.getD 0 0))) r
    2 * (sigma.length - 1) + E.length ≤ ec → (∀ l ∈ rootSearch F sigma, l < n) →
      (rootPositions F n sigma).length = sigma.length - 1 → (∀ p ∈ rootPositions F n sigma, p ∉ E) →
      isCodeBlock F b ec out = true → decodeTail F b n ec E r rCur tCur = some out := by
  intro sigma out hbudget hroots hcount hunmarked hblock
  have hnoroot : ¬((rootSearch F sigma).any fun l => decide (n ≤ l)) = true := by simpa using hroots
  have hnobad : ¬((rootPositions F n sigma).length ≠ sigma.length - 1 ∨
      ((rootPositions F n sigma).any fun p => E.elem p) = true) := by simpa [hcount] using hunmarked
  exact (if_neg ht0).trans ((if_neg (Nat.not_lt.2 hbudget)).trans
    ((if_neg hnoroot).trans ((if_neg hnobad).trans (if_pos hblock))))

section

variable {K : Type} [Field K] {F : FieldTables} {next : Nat → Nat} {φ : Nat → K} {b n ec p : Nat} {E P r c : List Nat}

theorem FieldTables.Models.locator_lt (h : F.Models next φ) (n i : Nat) : locator F n i < F.q := h.gexp_lt _

theorem FieldTables.Models.rep_erasureLocator (h : F.Models next φ) (n : Nat) (hE : E.Nodup) :
    F.Rep φ (erasureLocator F n E) (locPoly (locAt F φ n) E.toFinset) := by
  rw [locPoly, List.prod_toFinset _ hE]
  clear hE
  induction E using List.reverseRecOn with
  | nil => exact h.rep_one
  | append_singleton E i ih =>
    have hloc := h.locator_lt n i
    have hsub := h.sub_lt h.zero_lt hloc
    have hmap : φ (F.sub 0 (locator F n i)) = -locAt F φ n i := by
      rw [h.map_sub h.zero_lt hloc, h.map_zero, zero_sub, locAt]
    have hne : F.sub 0 (locator F n i) ≠ 0 := fun hc => by
      rw [hc, h.map_zero, zero_eq_neg] at hmap
      exact h.locAt_ne_zero n i hmap
    have hfactor : F.Rep φ [1, F.sub 0 (locator F n i)] (1 - C (locAt F φ n i) * X) := by
      refine ⟨by simpa using ⟨h.one_lt, hsub⟩, by simp [normalise, hne], ?_⟩
      rw [polyOf, polyOf_singleton, hmap, h.map_one, Polynomial.C_neg, Polynomial.C_1]
      ring
    have hprod := h.rep_pmul ih hfactor
    rw [erasureLocator_append]
    convert hprod using 1
    simp

/-- Ξ is Γ·S modulo x^ec (R162). -/
theorem FieldTables.Received.rep_xi (h : F.Models next φ) (hw : F.Received b n ec E r c) :
    ∃ Q Ξ, F.Rep φ (pmodx (pmul F (erasureLocator F n E) (normalise (syndromes F b ec r))) ec) Ξ ∧
      (pmodx (pmul F (erasureLocator F n E) (normalise (syndromes F b ec r))) ec).length ≤ ec ∧
      evaluator (locAt F φ n) (weightAt F φ b n r c) (suspects n E r c) =
        Q * X ^ ec + locPoly (locAt F φ n) (wrongAt n E r c) * Ξ := by
  obtain ⟨Q, hrep, hlen⟩ := h.rep_pmodx (h.rep_pmul (h.rep_erasureLocator n hw.marks_nodup) (hw.rep_syndromes h)) ec
  obtain ⟨V, hV⟩ := X_pow_dvd_key (locAt F φ n) (weightAt F φ b n r c) (suspects n E r c) ec
  rw [suspects, locPoly_union disjoint_marks_wrong, ← suspects] at hV
  refine ⟨locPoly (locAt F φ n) (wrongAt n E r c) * Q - V, _, hrep, hlen, ?_⟩
  linear_combination -hV

/-- The root search finds the wrong positions (R166). -/
theorem FieldTables.Received.mem_rootSearch (h : F.Models next φ) (hw : F.Received b n ec E r c)
    {sigma : CoeffList} (hsigma : F.Rep φ sigma (locPoly (locAt F φ n) (wrongAt n E r c))) {l : Nat} :
    l ∈ rootSearch F sigma ↔ ∃ i ∈ wrongAt n E r c, l = n - 1 - i := by
  have hn := hw.n_le
  have hroot := h.peval_lt hsigma.lt (h.inv_lt (F.gexp l))
  have hinv := h.map_inv (h.gexp_ne_zero l) (h.gexp_lt l)
  rw [rootSearch, List.mem_filter, List.mem_range, beq_iff_eq, ← h.map_eq_zero hroot,
    h.map_peval hsigma.lt (h.inv_lt _), hsigma.eq, hinv, eval_locPoly_inv_eq_zero_iff (h.map_gexp_ne_zero l)]
  constructor
  · rintro ⟨hl, i, hi, he⟩
    have hin := FieldTables.Received.lt_of_mem_wrongAt hi
    exact ⟨i, hi, (h.map_gexp_inj (by omega) hl he).symm⟩
  · rintro ⟨i, hi, rfl⟩
    have hin := lt_of_mem_wrongAt hi
    exact ⟨by omega, i, hi, rfl⟩

/-- The positions of the roots are the wrong positions, each once (R166, R167). -/
theorem FieldTables.Received.rootPositions_spec (h : F.Models next φ) (hw : F.Received b n ec E r c)
    {sigma : CoeffList} (hsigma : F.Rep φ sigma (locPoly (locAt F φ n) (wrongAt n E r c))) :
    (rootPositions F n sigma).Nodup ∧ (rootPositions F n sigma).toFinset = wrongAt n E r c := by
  have hmem := fun l => hw.mem_rootSearch h hsigma (l := l)
  have hroots : (rootSearch F sigma).Nodup := List.nodup_range.filter _
  refine ⟨hroots.map_on fun l hl m hm he => ?_, ?_⟩
  · obtain ⟨i, hi, rfl⟩ := (hmem l).1 hl
    obtain ⟨j, hj, rfl⟩ := (hmem m).1 hm
    omega
  · ext p
    rw [List.mem_toFinset, rootPositions, List.mem_map]
    constructor
    · rintro ⟨l, hl, rfl⟩
      obtain ⟨i, hi, rfl⟩ := (hmem l).1 hl
      have hin := FieldTables.Received.lt_of_mem_wrongAt hi
      rwa [show n - 1 - (n - 1 - i) = i by omega]
    · intro hp
      have hpn := FieldTables.Received.lt_of_mem_wrongAt hp
      exact ⟨n - 1 - p, (hmem _).2 ⟨p, hp, rfl⟩, by omega⟩

/-! #### The magnitudes (R168) -/

/-- Powers of a field element repeat after q - 1, so the exponent b may be reduced. -/
theorem FieldTables.Models.gexp_pow_mod (h : F.Models next φ) (i b : Nat) :
    φ (F.gexp i) ^ (b % (F.q - 1)) = φ (F.gexp i) ^ b := by
  have hperiod : φ (F.gexp i) ^ (F.q - 1) = 1 := by
    rw [h.map_gexp_pow, h.gexp_eq, h.power_size, h.map_one, one_pow]
  exact (pow_eq_pow_mod b hperiod).symm

/-- The product of Forney's denominator, from a start value on. -/
theorem FieldTables.Models.foldl_den_spec (h : F.Models next φ) (n : Nat) {v d : Nat} (hv : v < F.q) (hd : d < F.q)
    (A : List Nat) :
    A.foldl (fun d l => F.mul d (F.sub 1 (F.mul (locator F n l) v))) d < F.q ∧
      φ (A.foldl (fun d l => F.mul d (F.sub 1 (F.mul (locator F n l) v))) d) =
        φ d * (A.map fun l => 1 - locAt F φ n l * φ v).prod := by
  induction A generalizing d with
  | nil => exact ⟨hd, by simp⟩
  | cons l A ih =>
    have hmul := h.mul_lt (h.locator_lt n l) hv
    have hterm := h.sub_lt h.one_lt hmul
    obtain ⟨hlt, heq⟩ := ih (h.mul_lt hd hterm)
    refine ⟨hlt, heq.trans ?_⟩
    rw [h.map_mul hd hterm, h.map_sub h.one_lt hmul, h.map_one, h.map_mul (h.locator_lt n l) hv, List.map_cons,
      List.prod_cons, locAt]
    ring

/-- Forney's formula gives the error value (R168). -/
theorem FieldTables.Received.map_magnitude (h : F.Models next φ) (hw : F.Received b n ec E r c) {A : List Nat}
    {omega : CoeffList} (hA : A.Nodup) (hAs : A.toFinset = suspects n E r c)
    (homega : F.Rep φ omega (evaluator (locAt F φ n) (weightAt F φ b n r c) (suspects n E r c)))
    (hp : p ∈ suspects n E r c) : φ (magnitude F b n A omega p) = errorAt φ r c p := by
  have hx := h.locAt_ne_zero n p
  have hloc := h.locator_lt n p
  have hinv := h.inv_lt (locator F n p)
  have hmapinv : φ (F.inv (locator F n p)) = (locAt F φ n p)⁻¹ := h.map_inv (h.gexp_ne_zero _) hloc
  have hfactor : φ (F.gexp ((F.q - 1 - F.glog (locator F n p)) * (b % (F.q - 1)))) = (locAt F φ n p)⁻¹ ^ b := by
    rw [h.map_gexp, pow_mul, ← h.map_gexp, h.gexp_pow_mod, ← hmapinv]
    rfl
  obtain ⟨hden, hdenmap⟩ := h.foldl_den_spec n hinv h.one_lt (A.filter (· != p))
  have hdenprod : (List.map (fun l => 1 - locAt F φ n l * φ (F.inv (locator F n p))) (A.filter (· != p))).prod =
      ∏ l ∈ (suspects n E r c).erase p, (1 - locAt F φ n l * (locAt F φ n p)⁻¹) := by
    rw [← List.prod_toFinset _ (hA.filter _), hmapinv, List.toFinset_filter, hAs, ← Finset.filter_ne']
    simp
  rw [h.map_one, one_mul, hdenprod] at hdenmap
  have hden0 := forney_den_ne_zero hx fun i hi he => hw.locAt_inj h i hi p hp he
  have hdenne := fun hc => hden0 (hdenmap.symm.trans ((congrArg φ hc).trans h.map_zero))
  have hnum := h.peval_lt homega.lt hinv
  rw [magnitude, h.map_div (h.mul_lt hnum (h.gexp_lt _)) hdenne hden, hdenmap, h.map_mul hnum (h.gexp_lt _), hfactor,
    h.map_peval homega.lt hinv, homega.eq, hmapinv, eval_evaluator hp hx, weightAt, inv_pow, div_eq_iff hden0]
  have hpow : locAt F φ n p ^ b * (locAt F φ n p ^ b)⁻¹ = 1 := mul_inv_cancel₀ (pow_ne_zero b hx)
  generalize ∏ l ∈ (suspects n E r c).erase p, (1 - locAt F φ n l * (locAt F φ n p)⁻¹) = den
  linear_combination errorAt φ r c p * den * hpow

/-- Correcting the suspects by Forney's values restores the code block (R169). -/
theorem FieldTables.Received.correct_eq (h : F.Models next φ) (hw : F.Received b n ec E r c) {A : List Nat}
    {omega : CoeffList} (hA : A.Nodup) (hAs : A.toFinset = suspects n E r c)
    (homega : F.Rep φ omega (evaluator (locAt F φ n) (weightAt F φ b n r c) (suspects n E r c))) :
    correct F b n A omega r = c := by
  refine List.ext_getElem (by rw [correct_length, hw.r_length, hw.c_length]) fun j hj hjc => ?_
  rw [correct_length] at hj
  rw [← List.getD_eq_getElem _ 0, ← List.getD_eq_getElem _ 0, getD_correct F b n A omega hj]
  have hmem : j ∈ A ↔ j ∈ suspects n E r c := by rw [← hAs, List.mem_toFinset]
  split
  · have hr := h.getD_lt hw.r_lt j
    have hmag := h.magnitude_lt b n A omega j
    refine h.inj (h.sub_lt hr hmag) (h.getD_lt hw.c_lt j) ?_
    rw [h.map_sub hr hmag, hw.map_magnitude h hA hAs homega (hmem.1 ‹_›), errorAt, sub_sub_cancel]
  · exact FieldTables.Received.eq_of_not_mem_suspects (hw.r_length ▸ hj) (hmem.not.1 ‹_›)

/-- The steps after the Euclidean algorithm, on multiples of the locator and the evaluator (R164 to R170). -/
theorem FieldTables.Received.decodeTail_eq (h : F.Models next φ) (hw : F.Received b n ec E r c)
    {rCur tCur : CoeffList} {k : K} (hk : k ≠ 0) (ht : F.Rep φ tCur (locPoly (locAt F φ n) (wrongAt n E r c) * C k))
    (hr : F.Rep φ rCur (evaluator (locAt F φ n) (weightAt F φ b n r c) (suspects n E r c) * C k)) :
    decodeTail F b n ec E r rCur tCur = some c := by
  have ht0 : φ (tCur.getD 0 0) = k := by
    rw [← h.rep_coeff ht, Polynomial.coeff_zero_eq_eval_zero, Polynomial.eval_mul, eval_locPoly_zero, Polynomial.eval_C,
      one_mul]
  have ht0lt := h.getD_lt ht.lt 0
  have ht0ne : tCur.getD 0 0 ≠ 0 := fun hc => hk (by rw [← ht0, hc, h.map_zero])
  have hcancel : C k * C (φ (F.inv (tCur.getD 0 0))) = 1 := by
    rw [h.map_inv ht0ne ht0lt, ht0, ← Polynomial.C_mul, mul_inv_cancel₀ hk, Polynomial.C_1]
  have hsigma := h.rep_pscale ht (h.inv_lt (tCur.getD 0 0))
  have homega := h.rep_pscale hr (h.inv_lt (tCur.getD 0 0))
  rw [mul_assoc, hcancel, mul_one] at hsigma homega
  have hnu := h.rep_length hsigma locPoly_ne_zero
  rw [natDegree_locPoly fun i _ => h.locAt_ne_zero n i] at hnu
  obtain ⟨hnodup, hset⟩ := hw.rootPositions_spec h hsigma
  have hunmarked : ∀ p ∈ rootPositions F n (pscale F tCur (F.inv (tCur.getD 0 0))), p ∉ E := fun p hp hE => by
    rw [← List.mem_toFinset, hset] at hp
    exact (Finset.mem_filter.1 hp).2.1 hE
  have hcorrect := hw.correct_eq h (hw.marks_nodup.append hnodup fun p hE hP => hunmarked p hP hE)
    (by rw [List.toFinset_append, hset, suspects]) homega
  refine (decodeTail_of_checks ht0ne ?_ (fun l hl => ?_) ?_ hunmarked ?_).trans (congrArg some hcorrect)
  · have := hw.budget
    omega
  · obtain ⟨i, hi, rfl⟩ := (hw.mem_rootSearch h hsigma).1 hl
    have hin := lt_of_mem_wrongAt hi
    omega
  · rw [hnu, ← hset, List.toFinset_card_of_nodup hnodup, Nat.add_sub_cancel]
  · rw [hcorrect]
    exact (isBlock_iff_isCodeBlock ..).1 hw.block

/-- Decode restores every code block within the budget (R172). -/
theorem FieldTables.Received.decodeBlock_eq (h : F.Models next φ) (hw : F.Received b n ec E r c) :
    decodeBlock F b n ec E r = some c := by
  rw [decodeBlock]
  split
  · rw [hw.eq_of_clean h ‹_›]
  have hbudget := hw.budget
  have hcard := hw.card_suspects
  rw [if_neg (by omega)]
  obtain ⟨Q, Ξ, hxi, hlen, hkey⟩ := hw.rep_xi h
  obtain ⟨R, T, u, hR, hT, hsol, hcop, ⟨m, hRm, hm⟩, hTdeg⟩ := h.rep_euclid (s := E.length) hxi hlen (by omega)
  have hne : ∀ i ∈ suspects n E r c, locAt F φ n i ≠ 0 := fun i _ => h.locAt_ne_zero n i
  have hwrong := natDegree_locPoly (x := locAt F φ n) (A := wrongAt n E r c) fun i _ => h.locAt_ne_zero n i
  have hevdeg := degree_evaluator_lt (y := weightAt F φ b n r c) hne
  have hsub : wrongAt n E r c ⊆ suspects n E r c := Finset.subset_union_right
  have hlowest := isCoprime_locPoly_evaluator (y := weightAt F φ b n r c) hsub hne (hw.locAt_inj h) fun i hi =>
    (hw.weightAt_eq_zero_iff h i).not.2 (Finset.mem_filter.1 hi).2.2
  obtain ⟨k, hk, hTk, hRk⟩ := solution_unique hsol hcop hkey hlowest locPoly_ne_zero
    (pow_ne_zero ec Polynomial.X_ne_zero)
    (by rw [Polynomial.degree_X_pow]; exact degree_mul_lt le_rfl hevdeg (by omega))
    (by rw [Polynomial.degree_X_pow]; exact degree_mul_lt hwrong.le hRm (by omega))
  exact hw.decodeTail_eq h hk (hTk ▸ hT) (hRk ▸ hR)

end

/-- Settles O51: the Euclidean algorithm's solution of the key equation is the errors' locator and evaluator. -/
theorem decodeWithinBudgetRestoresBlock : Obligations.DecodeWithinBudgetRestoresBlock := by
  intro rd rs1 rs2 s c hs hv n ec erased wrong hq hcap hec hcw her hclen hclt hblock hbudget
  have hchecked := State.decChecked_of hv hq hcap hec hcw her
  obtain ⟨K, _, next, φ, h⟩ := State.models_of_fieldInv hs.field hv
  have hwrong : (wrongAt n (s.erasures n) (s.codewords n) c).card = wrong.length := by
    rw [← List.toFinset_card_of_nodup (List.nodup_range.filter _)]
    congr 1
    ext j
    rw [wrongAt, Finset.mem_filter, Finset.mem_range, List.mem_toFinset, List.mem_filter, List.mem_range,
      decide_eq_true_eq]
    refine and_congr_right fun hj => and_congr ?_ ?_
    · rcases s.read_er_eq_zero_or_one j with h0 | h1
      · simp [State.erasures, h0]
      · simp [State.erasures, h1, hj]
    · rw [s.getD_codewords hj, ne_comm]
  have hw : s.field.Received s.base n ec (s.erasures n) (s.codewords n) c :=
    { n_le := hq
      marks_nodup := List.nodup_range.filter _
      marks_lt := fun i hi => List.mem_range.1 (List.mem_filter.1 hi).1
      r_length := State.codewords_length s n
      c_length := hclen
      r_lt := State.codewords_lt hchecked.codewords
      c_lt := hclt
      block := hblock
      budget := by rwa [hwrong, State.erasures_eq] }
  have hdec : s.rsDecode n ec = some c := hw.decodeBlock_eq h
  have hexec : exec (.rsDec rd rs1 rs2) s = (s.decoded rd (s.rsDecode n ec)).complete := exec_rsDec_of_checked hchecked
  rw [hexec, hdec]
  refine ⟨_, rfl, (s.reg_decoded_some rd c rd).trans (if_pos rfl), ?_⟩
  exact State.codewords_decoded_some rd hs.memory hclen hcap fun v hmem =>
    (hclt v hmem).trans_le (State.fieldSize_le hs.field hv)

end Sys2Proof.Machine

/-! ## The cost table of the mode encoder (44_mode_encoder.md R192 to R197)

The table solves R193's equation: a row is the least fixed point of the latch loop over its byte moves, and reads as the
cost to go of the rest of the message. From the equation follow the lower bound over all plans and the chosen plan. -/

namespace Sys2Proof.Machine

/-! ### Costs as extended numbers -/

/-- A cost as an extended number, ∞ for none (R193). -/
def Cost.val : Cost → ℕ∞
  | some n => n
  | none => ⊤

@[simp] theorem Cost.val_some (n : Nat) : Cost.val (some n) = n := rfl

@[simp] theorem Cost.val_none : Cost.val none = ⊤ := rfl

@[simp] theorem Cost.val_plus (a b : Cost) : (Cost.plus a b).val = a.val + b.val := by
  cases a <;> cases b <;> simp [Cost.plus]

@[simp] theorem Cost.val_least (a b : Cost) : (Cost.least a b).val = min a.val b.val := by
  cases a with
  | none => simp [Cost.least]
  | some a =>
    cases b with
    | none => simp [Cost.least]
    | some b => exact (Nat.mono_cast (α := ℕ∞)).map_min

theorem Cost.val_injective : Function.Injective Cost.val := by
  intro a b h
  cases a <;> cases b <;> simp_all

theorem Cost.val_le_coe_iff {a : Cost} {n : Nat} : a.val ≤ n ↔ ∃ g, a = some g ∧ g ≤ n := by
  cases a <;> simp

theorem Cost.plus_eq_some_iff {a b : Cost} {n : Nat} :
    Cost.plus a b = some n ↔ ∃ c g, a = some c ∧ b = some g ∧ c + g = n := by
  cases a <;> cases b <;> simp [Cost.plus]

theorem leastCost_append (l : List (Move × Cost)) (ch : Move × Cost) :
    leastCost (l ++ [ch]) = Cost.least (leastCost l) ch.2 := by
  simp [leastCost]

theorem le_leastCost_iff {l : List (Move × Cost)} {x : ℕ∞} :
    x ≤ (leastCost l).val ↔ ∀ ch ∈ l, x ≤ ch.2.val := by
  induction l using List.reverseRecOn with
  | nil => simp [leastCost]
  | append_singleton l ch ih =>
    rw [leastCost_append, Cost.val_least, le_min_iff, ih]
    simp [or_imp, forall_and]

theorem leastCost_attained {l : List (Move × Cost)} (h : leastCost l ≠ none) : ∃ ch ∈ l, ch.2 = leastCost l := by
  induction l using List.reverseRecOn with
  | nil => exact absurd rfl h
  | append_singleton l ch ih =>
    have hmin := Cost.val_least (leastCost l) ch.2
    rw [← leastCost_append] at hmin
    rcases min_choice (leastCost l).val ch.2.val with hl | hr
    · have heq : leastCost (l ++ [ch]) = leastCost l := Cost.val_injective (hmin.trans hl)
      obtain ⟨ch', hmem, hch'⟩ := ih (heq ▸ h)
      exact ⟨ch', List.mem_append_left _ hmem, hch'.trans heq.symm⟩
    · exact ⟨ch, List.mem_append_right _ (List.mem_singleton_self ch), Cost.val_injective (hmin.trans hr).symm⟩

/-! ### The latch loop (R193) -/

theorem Row.at_map_range {n m : Nat} (f : Nat → Cost) (hm : m < n) : Row.at ((List.range n).map f) m = f m := by
  simp [Row.at, hm]

theorem latchPasses_eq_iterate (t : RawTable) (n : Nat) (row : Row) : latchPasses t n row = (latchPass t)^[n] row := by
  induction n generalizing row with
  | zero => rfl
  | succ n ih => exact ih _

section

variable {t : RawTable} {row : Row} {m : Nat}

theorem mem_latchChoices_iff {ch : Move × Cost} : ch ∈ latchChoices t m row ↔
    ∃ m' < t.nm, ch = (.latch m', Cost.plus ((t.latchCode m m').map fun _ => t.w m) (row.at m')) := by
  simp [latchChoices, eq_comm]

theorem val_latchPass (hm : m < t.nm) :
    ((latchPass t row).at m).val = min (row.at m).val (leastCost (latchChoices t m row)).val := by
  rw [latchPass, Row.at_map_range _ hm, Cost.val_least]

theorem val_latchPass_le (hm : m < t.nm) : ((latchPass t row).at m).val ≤ (row.at m).val :=
  (val_latchPass hm).trans_le (min_le_left ..)

theorem val_latchPass_le_latch (ht : TableFacts t) {m' c : Nat} (hc : t.latchCode m m' = some c) :
    ((latchPass t row).at m).val ≤ t.w m + (row.at m').val := by
  obtain ⟨hm, hm', -⟩ := ht.latchCode_some hc
  have hmem : (Move.latch m', Cost.plus ((t.latchCode m m').map fun _ => t.w m) (row.at m')) ∈ latchChoices t m row :=
    mem_latchChoices_iff.2 ⟨m', hm', rfl⟩
  rw [val_latchPass hm]
  refine (min_le_right ..).trans ((le_leastCost_iff.1 le_rfl _ hmem).trans_eq ?_)
  simp [hc]

/-- One pass leaves an entry or lowers it to the cost of a latch. -/
theorem latchPass_cases (hm : m < t.nm) : ((latchPass t row).at m).val = (row.at m).val ∨
    ∃ m' c, t.latchCode m m' = some c ∧ ((latchPass t row).at m).val = t.w m + (row.at m').val := by
  rcases min_choice (row.at m).val (leastCost (latchChoices t m row)).val with h | h <;> rw [← val_latchPass hm] at h
  · exact .inl h
  by_cases hnone : leastCost (latchChoices t m row) = none
  · refine .inl (le_antisymm (val_latchPass_le hm) ?_)
    rw [h, hnone]
    exact le_top
  obtain ⟨ch, hmem, hch⟩ := leastCost_attained hnone
  obtain ⟨m', -, rfl⟩ := mem_latchChoices_iff.1 hmem
  obtain ⟨g, hg⟩ := Option.ne_none_iff_exists'.1 hnone
  obtain ⟨w, g', hw, hg', -⟩ := Cost.plus_eq_some_iff.1 (hch.trans hg)
  obtain ⟨c, hc, rfl⟩ := Option.map_eq_some_iff.1 hw
  refine .inr ⟨m', c, hc, ?_⟩
  rw [h, ← hch]
  simp [hc]

/-- An entry that pass n + 1 still lowers ends a chain of n + 1 modes of no greater entries. -/
theorem exists_chain_of_latchPass_lt (ht : TableFacts t) (n : Nat) (hm : m < t.nm)
    (h : (((latchPass t)^[n + 1] row).at m).val < (((latchPass t)^[n] row).at m).val) :
    ∃ S ⊆ Finset.range t.nm, S.card = n + 1 ∧
      ∀ x ∈ S, (((latchPass t)^[n + 1] row).at x).val ≤ (((latchPass t)^[n + 1] row).at m).val := by
  induction n generalizing m with
  | zero => exact ⟨{m}, by simpa using hm, by simp, by simp⟩
  | succ n ih =>
    rw [Function.iterate_succ_apply'] at h ⊢
    set cur := (latchPass t)^[n + 1] row with hcur
    set prev := (latchPass t)^[n] row with hprev
    have hstep : cur = latchPass t prev := by rw [hcur, Function.iterate_succ_apply']
    rcases latchPass_cases (row := cur) hm with heq | ⟨m', c, hc, heq⟩
    · exact absurd heq h.ne
    obtain ⟨-, hm', -⟩ := ht.latchCode_some hc
    have hlt : (cur.at m').val < (prev.at m').val := by
      by_contra hle
      refine h.not_ge ?_
      calc (cur.at m).val ≤ t.w m + (prev.at m').val := hstep ▸ val_latchPass_le_latch ht hc
        _ ≤ t.w m + (cur.at m').val := by gcongr; exact not_lt.1 hle
        _ = ((latchPass t cur).at m).val := heq.symm
    have hbelow : (cur.at m').val < ((latchPass t cur).at m).val := by
      have hw : (0 : ℕ∞) < t.w m := by exact_mod_cast (ht.w_range hm).1
      rw [heq]
      simpa using ENat.add_lt_add_of_lt_of_le hlt.ne_top hw le_rfl
    obtain ⟨S, hS, hcard, hle⟩ := ih hm' hlt
    refine ⟨insert m S, ?_, ?_, ?_⟩
    · exact Finset.insert_subset (Finset.mem_range.2 hm) hS
    · rw [Finset.card_insert_of_notMem fun hmS => (hle m hmS).not_gt (hbelow.trans h), hcard]
    · intro x hx
      rcases Finset.mem_insert.1 hx with rfl | hxS
      · exact le_rfl
      · exact ((val_latchPass_le (Finset.mem_range.1 (hS hxS))).trans (hle x hxS)).trans hbelow.le

/-- After NM passes nothing changes, so no latch lowers an entry (R193). -/
theorem latchPasses_le_latch (ht : TableFacts t) {m' c : Nat} (hc : t.latchCode m m' = some c) :
    ((latchPasses t t.nm row).at m).val ≤ t.w m + ((latchPasses t t.nm row).at m').val := by
  obtain ⟨hm, -⟩ := ht.latchCode_some hc
  rw [latchPasses_eq_iterate]
  refine le_trans (not_lt.1 fun hlt => ?_) (val_latchPass_le_latch ht hc)
  rw [← Function.iterate_succ_apply' (latchPass t)] at hlt
  obtain ⟨S, hS, hcard, -⟩ := exists_chain_of_latchPass_lt ht t.nm hm hlt
  have := Finset.card_le_card hS
  rw [hcard, Finset.card_range] at this
  omega

theorem latchPasses_le (n : Nat) (hm : m < t.nm) : ((latchPasses t n row).at m).val ≤ (row.at m).val := by
  induction n generalizing row with
  | zero => exact le_rfl
  | succ n ih => exact ih.trans (val_latchPass_le hm)

/-- An entry of the loop is the one it started from, or the cost of a latch and the entry of its target. -/
theorem latchPasses_cases (n : Nat) (hm : m < t.nm) (ht : TableFacts t) :
    ((latchPasses t n row).at m).val = (row.at m).val ∨
    ∃ m' c, t.latchCode m m' = some c ∧
      t.w m + ((latchPasses t n row).at m').val ≤ ((latchPasses t n row).at m).val := by
  rw [latchPasses_eq_iterate]
  induction n with
  | zero => exact .inl rfl
  | succ n ih =>
    rw [Function.iterate_succ_apply']
    have hkeep {m' c : Nat} (hc : t.latchCode m m' = some c) :
        t.w m + ((latchPass t ((latchPass t)^[n] row)).at m').val ≤ t.w m + (((latchPass t)^[n] row).at m').val := by
      gcongr
      exact val_latchPass_le (ht.latchCode_some hc).2.1
    rcases latchPass_cases (row := (latchPass t)^[n] row) hm with h | ⟨m', c, hc, h⟩
    · rw [h]
      exact ih.imp id fun ⟨m', c, hc, hle⟩ => ⟨m', c, hc, (hkeep hc).trans hle⟩
    · exact .inr ⟨m', c, hc, (hkeep hc).trans_eq h.symm⟩

end

/-! ### The moves from a point and their costs (R193, R194) -/

/-- The choices of R194 from the point of the rest `msg`, in their order; `rows` are G[p], G[p+1], ... -/
def moveChoices (t : RawTable) (m : Nat) (msg : List Byte) (row : Row) (after : List Row) : List (Move × Cost) :=
  byteChoices t m msg after ++ latchChoices t m row

/-- bits + G[target] of a move, the rows from G[p] on (R193). -/
def moveTotal (t : RawTable) (m : Nat) (msg : List Byte) (rows : List Row) (mv : Move) : Cost :=
  Cost.plus (moveCost t m msg mv) ((rows.getD mv.bytes []).at (mv.target m))

section

variable {t : RawTable} {m : Nat} {msg : List Byte} {row : Row} {after : List Row} {mv : Move}

theorem mem_symbolMoves_iff : mv ∈ symbolMoves t ↔
    (∃ len, (len = 1 ∨ len = 2) ∧ mv = .sym len) ∨ ∃ m' < t.nm, ∃ len, (len = 1 ∨ len = 2) ∧ mv = .shiftSym m' len := by
  simp only [symbolMoves, List.mem_append, List.mem_cons, List.not_mem_nil, or_false, List.mem_flatMap, List.mem_range,
    or_and_right, exists_or, exists_eq_left]
  simp only [or_comm]

theorem keyFits_iff {len : Nat} : keyFits msg len = true ↔ (len = 1 ∨ len = 2) ∧ len ≤ msg.length := by
  simp [keyFits]

theorem moveCost_sym_eq_some_iff {len c : Nat} : moveCost t m msg (.sym len) = some c ↔
    ((len = 1 ∨ len = 2) ∧ len ≤ msg.length) ∧ (∃ code, t.symCode m (msg.take len) = some code) ∧ t.w m = c := by
  rw [moveCost, Option.ite_none_right_eq_some, keyFits_iff, Option.map_eq_some_iff, exists_and_right]

theorem moveCost_shiftSym_eq_some_iff {m' len c : Nat} : moveCost t m msg (.shiftSym m' len) = some c ↔
    ((len = 1 ∨ len = 2) ∧ len ≤ msg.length) ∧ (∃ code, t.shiftCode m m' = some code) ∧
      (∃ code, t.symCode m' (msg.take len) = some code) ∧ t.w m + t.w m' = c := by
  rw [moveCost, Option.ite_none_right_eq_some, keyFits_iff]
  refine and_congr_right fun _ => ?_
  cases t.shiftCode m m' <;> cases t.symCode m' (msg.take len) <;> simp

theorem moveCost_run_eq_some_iff {len c : Nat} : moveCost t m msg (.run len) = some c ↔
    (1 ≤ len ∧ len ≤ msg.length ∧ len ≤ t.lmax) ∧ (∃ code, t.bshCode m = some code) ∧ t.runCost m len = c := by
  rw [moveCost, Option.ite_none_right_eq_some, Option.map_eq_some_iff, exists_and_right]

theorem moveCost_latch_eq_some_iff {m' c : Nat} : moveCost t m msg (.latch m') = some c ↔
    (∃ code, t.latchCode m m' = some code) ∧ t.w m = c := by
  rw [moveCost, Option.map_eq_some_iff, exists_and_right]

/-- An allowed move costs at least one bit, stays in the message and ends in a mode of the table (R192). -/
theorem bounds_of_moveCost {c : Nat} (ht : TableFacts t) (hm : m < t.nm) (h : moveCost t m msg mv = some c) :
    1 ≤ c ∧ mv.bytes ≤ msg.length ∧ mv.target m < t.nm := by
  have hw := (ht.w_range hm).1
  cases mv with
  | sym len =>
    obtain ⟨⟨-, hlen⟩, -, rfl⟩ := moveCost_sym_eq_some_iff.1 h
    exact ⟨hw, hlen, hm⟩
  | shiftSym m' len =>
    obtain ⟨⟨-, hlen⟩, -, -, rfl⟩ := moveCost_shiftSym_eq_some_iff.1 h
    exact ⟨by omega, hlen, hm⟩
  | run len =>
    obtain ⟨⟨-, hlen, -⟩, -, rfl⟩ := moveCost_run_eq_some_iff.1 h
    exact ⟨by rw [RawTable.runCost]; omega, hlen, hm⟩
  | latch m' =>
    obtain ⟨⟨code, hcode⟩, rfl⟩ := moveCost_latch_eq_some_iff.1 h
    exact ⟨hw, Nat.zero_le _, (ht.latchCode_some hcode).2.1⟩

theorem costVia_eq_moveTotal (hbytes : 1 ≤ mv.bytes) (htarget : mv.target m = m) :
    costVia t m msg after mv = moveTotal t m msg (row :: after) mv := by
  obtain ⟨j, hj⟩ := Nat.exists_eq_add_of_le' hbytes
  rw [costVia, moveTotal, hj, htarget]
  rfl

/-- The run choices by length, longest first (R194 (3)). -/
theorem runChoices_eq {code : Nat} (hcode : t.bshCode m = some code) (hafter : after.length = msg.length) :
    runChoices t m after = (List.range (min t.lmax msg.length)).reverse.map fun j =>
      (Move.run (j + 1), moveTotal t m msg (row :: after) (.run (j + 1))) := by
  rw [runChoices, hcode, List.map_reverse]
  refine congrArg List.reverse (List.ext_getElem (by simp [hafter]) fun i h1 h2 => ?_)
  obtain ⟨hmax, hi⟩ : i < t.lmax ∧ i < msg.length := by simpa [hafter] using h1
  simp [moveTotal, moveCost, hcode, hi, hmax, Nat.add_comm, Move.bytes, Move.target, hafter]

/-- Every choice carries bits + G[target] of its move (R193). -/
theorem cost_of_mem_moveChoices (hafter : after.length = msg.length) {ch : Move × Cost}
    (h : ch ∈ moveChoices t m msg row after) : ch.2 = moveTotal t m msg (row :: after) ch.1 := by
  rcases List.mem_append.1 h with hbyte | hlatch
  · rcases List.mem_append.1 hbyte with hsym | hrun
    · obtain ⟨mv, hmv, rfl⟩ := List.mem_map.1 hsym
      rcases mem_symbolMoves_iff.1 hmv with ⟨len, hlen, rfl⟩ | ⟨m', -, len, hlen, rfl⟩ <;>
        exact costVia_eq_moveTotal (show 1 ≤ len by omega) rfl
    · cases hcode : t.bshCode m with
      | none => simp [runChoices, hcode] at hrun
      | some code =>
        rw [runChoices_eq (row := row) hcode hafter] at hrun
        obtain ⟨j, -, rfl⟩ := List.mem_map.1 hrun
        rfl
  · obtain ⟨m', -, rfl⟩ := mem_latchChoices_iff.1 hlatch
    rfl

/-- Every allowed move is among the choices (R192, R194). -/
theorem mem_moveChoices (ht : TableFacts t) (hafter : after.length = msg.length) {c : Nat}
    (h : moveCost t m msg mv = some c) :
    (mv, moveTotal t m msg (row :: after) mv) ∈ moveChoices t m msg row after := by
  have hsymbol (hmv : mv ∈ symbolMoves t) (hbytes : 1 ≤ mv.bytes) (htarget : mv.target m = m) :
      (mv, moveTotal t m msg (row :: after) mv) ∈ moveChoices t m msg row after :=
    List.mem_append_left _ (List.mem_append_left _
      (List.mem_map.2 ⟨mv, hmv, Prod.ext rfl (costVia_eq_moveTotal hbytes htarget)⟩))
  cases mv with
  | sym len =>
    obtain ⟨⟨hlen, -⟩, -⟩ := moveCost_sym_eq_some_iff.1 h
    exact hsymbol (mem_symbolMoves_iff.2 (.inl ⟨len, hlen, rfl⟩)) (show 1 ≤ len by omega) rfl
  | shiftSym m' len =>
    obtain ⟨⟨hlen, -⟩, ⟨code, hcode⟩, -⟩ := moveCost_shiftSym_eq_some_iff.1 h
    exact hsymbol (mem_symbolMoves_iff.2 (.inr ⟨m', (ht.shiftCode_some hcode).2.1, len, hlen, rfl⟩))
      (show 1 ≤ len by omega) rfl
  | run len =>
    obtain ⟨⟨hpos, hlen, hmax⟩, ⟨code, hcode⟩, -⟩ := moveCost_run_eq_some_iff.1 h
    refine List.mem_append_left _ (List.mem_append_right _ ?_)
    rw [runChoices_eq (row := row) hcode hafter]
    refine List.mem_map.2 ⟨len - 1, ?_, by rw [Nat.sub_add_cancel hpos]⟩
    rw [List.mem_reverse, List.mem_range]
    omega
  | latch m' =>
    obtain ⟨⟨code, hcode⟩, -⟩ := moveCost_latch_eq_some_iff.1 h
    exact List.mem_append_right _ (mem_latchChoices_iff.2 ⟨m', (ht.latchCode_some hcode).2.1, rfl⟩)

/-! ### The cost table solves R193's equation -/

theorem costRow_le (ht : TableFacts t) (hm : m < t.nm) {ch : Move × Cost}
    (h : ch ∈ moveChoices t m msg (costRow t msg after) after) : ((costRow t msg after).at m).val ≤ ch.2.val := by
  rcases List.mem_append.1 h with hbyte | hlatch
  · refine (latchPasses_le _ hm).trans ?_
    rw [Row.at_map_range _ hm]
    exact le_leastCost_iff.1 le_rfl _ hbyte
  · obtain ⟨m', -, rfl⟩ := mem_latchChoices_iff.1 hlatch
    cases hc : t.latchCode m m' with
    | none => exact le_top
    | some c =>
      rw [Cost.val_plus]
      exact latchPasses_le_latch ht hc

theorem costRow_attained (ht : TableFacts t) (hm : m < t.nm) (h : (costRow t msg after).at m ≠ none) :
    ∃ ch ∈ moveChoices t m msg (costRow t msg after) after, ch.2 = (costRow t msg after).at m := by
  rcases latchPasses_cases (row := (List.range t.nm).map fun m => leastCost (byteChoices t m msg after)) t.nm hm ht with
    hbyte | ⟨m', c, hc, hle⟩
  · rw [Row.at_map_range _ hm] at hbyte
    have heq := Cost.val_injective hbyte
    obtain ⟨ch, hmem, hch⟩ := leastCost_attained fun hnone => h (heq.trans hnone)
    exact ⟨ch, List.mem_append_left _ hmem, hch.trans heq.symm⟩
  · have hmem := List.mem_append_right (byteChoices t m msg after)
      ((mem_latchChoices_iff (m := m) (row := costRow t msg after)).2 ⟨m', (ht.latchCode_some hc).2.1, rfl⟩)
    refine ⟨_, hmem, Cost.val_injective (le_antisymm (le_trans ?_ hle) (costRow_le ht hm hmem))⟩
    rw [hc, Cost.val_plus]
    exact le_rfl

end

section

variable {t : RawTable} {m : Nat} {msg : List Byte} {mv : Move}

@[simp] theorem costRows_length (t : RawTable) (msg : List Byte) : (costRows t msg).length = msg.length + 1 := by
  induction msg with
  | nil => rfl
  | cons b rest ih => simp [costRows, ih]

/-- The rows from G[p + j] on are the rows of the rest of the message there. -/
theorem costRows_drop (t : RawTable) {j : Nat} (h : j ≤ msg.length) :
    (costRows t msg).drop j = costRows t (msg.drop j) := by
  induction j generalizing msg with
  | zero => rfl
  | succ j ih =>
    cases msg with
    | nil => simp at h
    | cons b rest => exact ih (Nat.le_of_succ_le_succ h)

theorem costRows_getD_at (t : RawTable) (m : Nat) {j : Nat} (h : j ≤ msg.length) :
    ((costRows t msg).getD j []).at m = costToGo t (msg.drop j) m := by
  rw [costToGo, ← costRows_drop t h]
  simp [List.getD, List.headD_eq_head?_getD]

theorem costToGo_nil (hm : m < t.nm) : costToGo t [] m = some 0 := by
  simp [costToGo, costRows, Row.at, hm]

/-- bits + G[target] of an allowed move, the target's cost read as a cost to go (R193). -/
theorem moveTotal_costRows {c : Nat} (ht : TableFacts t) (hm : m < t.nm) (h : moveCost t m msg mv = some c) :
    moveTotal t m msg (costRows t msg) mv = Cost.plus (some c) (costToGo t (msg.drop mv.bytes) (mv.target m)) := by
  obtain ⟨-, hbytes, -⟩ := bounds_of_moveCost ht hm h
  rw [moveTotal, h, costRows_getD_at t _ hbytes]

/-- No allowed move is cheaper than the cost to go (R193). -/
theorem costToGo_le_of_move {c : Nat} (ht : TableFacts t) (hm : m < t.nm) (h : moveCost t m msg mv = some c) :
    (costToGo t msg m).val ≤ c + (costToGo t (msg.drop mv.bytes) (mv.target m)).val := by
  cases msg with
  | nil => simp [costToGo_nil hm]
  | cons b rest =>
    refine (costRow_le ht hm (mem_moveChoices ht (costRows_length t rest) h)).trans_eq ?_
    exact (congrArg Cost.val (moveTotal_costRows ht hm h)).trans (Cost.val_plus ..)

/-- The first move of R194 exists, is allowed and takes its bits off the cost to go. -/
theorem firstMove_spec {g : Nat} (ht : TableFacts t) (hm : m < t.nm) {b : Byte} {rest : List Byte}
    (h : costToGo t (b :: rest) m = some g) :
    ∃ mv c g', firstMove t m (b :: rest) (costRow t (b :: rest) (costRows t rest)) (costRows t rest) = some mv ∧
      moveCost t m (b :: rest) mv = some c ∧ costToGo t ((b :: rest).drop mv.bytes) (mv.target m) = some g' ∧
      c + g' = g := by
  obtain ⟨ch, hmem, hch⟩ := costRow_attained ht hm (h.trans_ne (Option.some_ne_none g))
  obtain ⟨best, hbest⟩ := Option.isSome_iff_exists.1 (List.find?_isSome (p := fun ch =>
    ch.2 == (costRow t (b :: rest) (costRows t rest)).at m).2 ⟨ch, hmem, beq_iff_eq.2 hch⟩)
  have hcost : moveTotal t m (b :: rest) (costRows t (b :: rest)) best.1 = some g :=
    (cost_of_mem_moveChoices (costRows_length t rest) (List.mem_of_find?_eq_some hbest)).symm.trans
      ((beq_iff_eq.1 (List.find?_some hbest :)).trans h)
  obtain ⟨c, g', hc, hg', hsum⟩ := Cost.plus_eq_some_iff.1 hcost
  obtain ⟨-, hbytes, -⟩ := bounds_of_moveCost ht hm hc
  rw [costRows_getD_at t _ hbytes] at hg'
  exact ⟨best.1, c, g', congrArg (Option.map Prod.fst) hbest, hc, hg', hsum⟩

/-! ### Plans (R192, R194, R196) -/

theorem planCost_cons_eq_some_iff {plan : List Move} {n : Nat} : planCost t m msg (mv :: plan) = some n ↔
    ∃ c r, moveCost t m msg mv = some c ∧ planCost t (mv.target m) (msg.drop mv.bytes) plan = some r ∧ c + r = n := by
  have heq : planCost t m msg (mv :: plan) =
      Cost.plus (moveCost t m msg mv) (planCost t (mv.target m) (msg.drop mv.bytes) plan) := by
    cases msg <;> rfl
  rw [heq, Cost.plus_eq_some_iff]

theorem planCost_nil_eq_some_iff {n : Nat} : planCost t m msg [] = some n ↔ msg = [] ∧ n = 0 := by
  cases msg <;> simp [planCost, eq_comm]

/-- A plan costs at least the cost to go (R196). -/
theorem costToGo_le_planCost (ht : TableFacts t) (plan : List Move) (hm : m < t.nm) {n : Nat}
    (h : planCost t m msg plan = some n) : (costToGo t msg m).val ≤ n := by
  induction plan generalizing m msg n with
  | nil =>
    obtain ⟨rfl, rfl⟩ := planCost_nil_eq_some_iff.1 h
    rw [costToGo_nil hm]
    exact le_rfl
  | cons mv plan ih =>
    obtain ⟨c, r, hc, hr, rfl⟩ := planCost_cons_eq_some_iff.1 h
    obtain ⟨-, -, htarget⟩ := bounds_of_moveCost ht hm hc
    calc (costToGo t msg m).val
        ≤ c + (costToGo t (msg.drop mv.bytes) (mv.target m)).val := costToGo_le_of_move ht hm hc
      _ ≤ c + r := by gcongr; exact ih htarget hr
      _ = (c + r : Nat) := (Nat.cast_add c r).symm

/-- One round of R194: the first move, then the plan of what it leaves. -/
theorem planFrom_cons {b : Byte} {rest : List Byte} {fuel : Nat}
    (h : firstMove t m (b :: rest) (costRow t (b :: rest) (costRows t rest)) (costRows t rest) = some mv)
    (hbytes : mv.bytes ≤ (b :: rest).length) :
    planFrom t (fuel + 1) m (b :: rest) (costRows t (b :: rest)) =
      mv :: planFrom t fuel (mv.target m) ((b :: rest).drop mv.bytes) (costRows t ((b :: rest).drop mv.bytes)) := by
  rw [← costRows_drop t hbytes, costRows, planFrom, h]

theorem planFrom_nil (fuel : Nat) : planFrom t fuel m [] (costRows t []) = [] := by
  cases fuel <;> rfl

/-- With fuel for its cost the plan of R194 is allowed and costs the cost to go. -/
theorem planCost_planFrom (ht : TableFacts t) {fuel g : Nat} (hm : m < t.nm) (h : costToGo t msg m = some g)
    (hfuel : g ≤ fuel) : planCost t m msg (planFrom t fuel m msg (costRows t msg)) = some g := by
  induction fuel generalizing m msg g with
  | zero =>
    cases msg with
    | nil =>
      rw [planFrom_nil]
      exact (costToGo_nil hm).symm.trans h
    | cons b rest =>
      obtain ⟨mv, c, g', -, hc, -, hsum⟩ := firstMove_spec ht hm h
      obtain ⟨hpos, -⟩ := bounds_of_moveCost ht hm hc
      omega
  | succ fuel ih =>
    cases msg with
    | nil =>
      rw [planFrom_nil]
      exact (costToGo_nil hm).symm.trans h
    | cons b rest =>
      obtain ⟨mv, c, g', hfirst, hc, hg', hsum⟩ := firstMove_spec ht hm h
      obtain ⟨hpos, hbytes, htarget⟩ := bounds_of_moveCost ht hm hc
      rw [planFrom_cons hfirst hbytes]
      exact planCost_cons_eq_some_iff.2 ⟨c, g', hc, ih htarget hg' (by omega), hsum⟩

/-- The chosen plan is allowed and costs G[0][m] (R194). -/
theorem planCost_chosenPlan (ht : TableFacts t) {c : Nat} (hm : m < t.nm) (h : costToGo t msg m = some c) :
    planCost t m msg (chosenPlan t m msg c) = some c := planCost_planFrom ht hm h le_rfl

end

/-- Settles O58: by R193's equation no plan is cheaper than the table, and the chosen plan attains it. -/
theorem costToGoIsLeastPlanCost : Obligations.CostToGoIsLeastPlanCost := by
  intro mt msg m hm
  refine ⟨fun plan c h => ?_, fun g h => ⟨_, planCost_chosenPlan mt.facts hm h⟩⟩
  exact Cost.val_le_coe_iff.1 (costToGo_le_planCost mt.facts plan hm h)

end Sys2Proof.Machine

/-! ## The mode encoder's commands (44_mode_encoder.md R185 to R190, R195)

Each token command checks, then ends with one Append. ME.ENCODE's one Append is the chosen plan, whose bits are as many as
it costs. -/

namespace Sys2Proof.Machine

/-! ### The bits of moves and plans (R191, R192) -/

@[simp] theorem byteBits_length (bytes : List Byte) : (byteBits bytes).length = 8 * bytes.length := by
  simp [byteBits, Nat.mul_comm]

@[simp] theorem RawTable.lenField_length (t : RawTable) (l : Nat) : (t.lenField l).length = t.lenBits l := by
  rw [RawTable.lenField, RawTable.lenBits]
  split <;> simp

section

variable {t : RawTable} {m : Nat} {msg : List Byte} {mv : Move}

/-- An allowed move appends as many bits as it costs (R192). -/
theorem moveBits_length {c : Nat} (h : moveCost t m msg mv = some c) : (moveBits t m msg mv).length = c := by
  cases mv with
  | sym len =>
    obtain ⟨-, ⟨code, hcode⟩, rfl⟩ := moveCost_sym_eq_some_iff.1 h
    simp [moveBits, RawTable.symBits, hcode]
  | shiftSym m' len =>
    obtain ⟨-, ⟨shift, hshift⟩, ⟨code, hcode⟩, rfl⟩ := moveCost_shiftSym_eq_some_iff.1 h
    simp [moveBits, RawTable.shiftBits, RawTable.symBits, hshift, hcode]
  | run len =>
    obtain ⟨⟨-, hlen, -⟩, ⟨code, hcode⟩, rfl⟩ := moveCost_run_eq_some_iff.1 h
    simp [moveBits, RawTable.runBits, hcode, RawTable.runCost, hlen, Nat.add_assoc]
  | latch m' =>
    obtain ⟨⟨code, hcode⟩, rfl⟩ := moveCost_latch_eq_some_iff.1 h
    simp [moveBits, RawTable.latchBits, hcode]

/-- An allowed plan appends as many bits as it costs (R192, R195). -/
theorem planBits_length {plan : List Move} {c : Nat} (h : planCost t m msg plan = some c) :
    (planBits t m msg plan).length = c := by
  induction plan generalizing m msg c with
  | nil => exact (planCost_nil_eq_some_iff.1 h).2.symm
  | cons mv plan ih =>
    obtain ⟨c, r, hc, hr, rfl⟩ := planCost_cons_eq_some_iff.1 h
    rw [planBits, List.length_append, moveBits_length hc, ih hr]

end

/-! ### Checks in order -/

/-- A fault check passed over, as the statements say it. -/
theorem check_then {p : Prop} [Decidable p] {answer fault rest : Result} {P : Prop}
    (h : answer = if p then fault else rest) (hrest : answer = rest → P) : if p then answer = fault else P := by
  split
  · exact h.trans (if_pos ‹_›)
  · exact hrest (h.trans (if_neg ‹_›))

section

variable {s u : State} {f : FaultName} {info : Nat} (hrun : u.runstate = .run)

include hrun

/-- A command that leaves the block running passed its check. -/
theorem running_of_check {p : Prop} [Decidable p] {rest : Result}
    (h : (if p then s.raise f info else rest) = .next u) : ¬p ∧ rest = .next u := by
  split at h
  · exact absurd hrun (State.not_running_of_raise h)
  · exact ⟨‹_›, h⟩

/-- A command that leaves the block running found its code. -/
theorem running_of_lookup {α : Type} {o : Option α} {rest : α → Result}
    (h : o.elim (s.raise f info) rest = .next u) : ∃ c, o = some c ∧ rest c = .next u := by
  cases o with
  | none => exact absurd hrun (State.not_running_of_raise h)
  | some c => exact ⟨c, rfl, h⟩

/-- A command that leaves the block running appended its bits (41_bitstream.md R112). -/
theorem running_of_appendThen {k : StreamId} {bits : List Bool} {after : State → State}
    (h : s.appendThen k bits after = .next u) : u = (after (s.setStream k (s.stream k ++ bits))).advance := by
  rcases State.appendThen_eq_next.1 h with ⟨-, rfl⟩ | ⟨-, rfl⟩
  · cases hrun
  · rfl

end

/-! ### Commands that need the table (R180) -/

/-- Without a table every mode-encoder command but ME.INIT raises InvalidConfig(0) (R180). -/
theorem exec_of_no_table {i : Instr} {s : State} (hmt : s.mt = none) (hi : isModeCommand i = true) (hinit : i ≠ .meInit)
    (hwf : i.wellFormed = true) : exec i s = s.raise .invalidConfig 0 := by
  cases i with
  | meInit => exact absurd rfl hinit
  | meLatch k mode => rw [exec, execMeLatch, State.withTable_none hmt]
  | meShift k mode => rw [exec, execMeShift, State.withTable_none hmt]
  | meUnlatch k => rw [exec, execMeUnlatch, State.withTable_none hmt]
  | meSym k rs1 len => rw [exec, execMeSym, if_neg (by simpa [Instr.wellFormed] using hwf), State.withTable_none hmt]
  | meBshift k rs1 rs2 => rw [exec, execMeBshift, State.withTable_none hmt]
  | meEncode rd k rs1 rs2 rs3 => rw [exec, execMeEncode, State.withTable_none hmt]
  | _ => cases hi

/-- A command that needs the table, as the statements say it: what is left to show is what it does with one (R180). -/
theorem tableCommand_of {i : Instr} {s : State} {body : RawTable → Prop} (hi : isModeCommand i = true)
    (hinit : i ≠ .meInit) (hwf : i.wellFormed = true) (hbody : ∀ mt, s.mt = some mt → body mt.raw) :
    TableCommand i s body := by
  unfold TableCommand
  cases hmt : s.mt with
  | none => exact exec_of_no_table hmt hi hinit hwf
  | some mt => exact hbody mt hmt

/-! ### The token commands with their table (R186 to R190) -/

section

variable {k : StreamId} {s : State} {mt : ModeTable} (hmt : s.mt = some mt)

theorem State.latchTo_eq (s : State) (t : RawTable) (k : StreamId) (m' : Nat) : s.latchTo t k m' =
    if s.shv = true then s.raise .illegalTransition 1
    else (t.latchCode s.mode m').elim (s.raise .illegalTransition 2) fun c =>
      s.appendThen k (bitsOf c (t.w s.mode)) fun s => s.setMode m' := by
  unfold State.latchTo RawTable.latchBits
  cases t.latchCode s.mode m' <;> rfl

include hmt

theorem exec_meLatch (mode : BitVec 8) : exec (.meLatch k mode) s =
    if mt.raw.nm ≤ mode.toNat then s.raise .outOfRange mode.toNat else s.latchTo mt.raw k mode.toNat := by
  rw [exec, execMeLatch, State.withTable_some hmt]

theorem exec_meUnlatch : exec (.meUnlatch k) s =
    if s.shv = false ∧ s.mode = mt.raw.dm then s.complete else s.latchTo mt.raw k mt.raw.dm := by
  rw [exec, execMeUnlatch, State.withTable_some hmt]

theorem exec_meShift (mode : BitVec 8) : exec (.meShift k mode) s =
    if mt.raw.nm ≤ mode.toNat then s.raise .outOfRange mode.toNat
    else if s.shv = true then s.raise .illegalTransition 1
    else (mt.raw.shiftCode s.mode mode.toNat).elim (s.raise .illegalTransition 2) fun c =>
      s.appendThen k (bitsOf c (mt.raw.w s.mode)) fun s => s.setShift mode.toNat := by
  rw [exec, execMeShift, State.withTable_some hmt, RawTable.shiftBits]
  cases mt.raw.shiftCode s.mode mode.toNat <;> rfl

theorem exec_meSym (rs1 : Reg) {len : BitVec 2} (hlen : len = 1 ∨ len = 2) : exec (.meSym k rs1 len) s =
    if s.params.bufCap < s.val rs1 + len.toNat then s.raise .outOfRange (s.val rs1 + len.toNat)
    else (mt.raw.symCode s.effMode (s.window (s.val rs1) len.toNat)).elim
      (s.raise .unencodableCharacter (s.val rs1)) fun c =>
        s.appendThen k (bitsOf c (mt.raw.w s.effMode)) State.clearShift := by
  rw [exec, execMeSym, if_neg (by simpa using symLenOk_iff.2 hlen), State.withTable_some hmt]
  dsimp only [RawTable.symBits]
  cases mt.raw.symCode s.effMode (s.window (s.val rs1) len.toNat) <;> rfl

theorem exec_meBshift (rs1 rs2 : Reg) : exec (.meBshift k rs1 rs2) s =
    if s.shv = true then s.raise .illegalTransition 1
    else (mt.raw.bshCode s.mode).elim (s.raise .illegalTransition 2) fun c =>
      if s.val rs2 < 1 ∨ mt.raw.lmax < s.val rs2 then s.raise .outOfRange (s.val rs2)
      else if s.params.bufCap < s.val rs1 + s.val rs2 then s.raise .outOfRange (s.val rs1 + s.val rs2)
      else s.appendThen k (bitsOf c (mt.raw.w s.mode) ++ mt.raw.lenField (s.val rs2) ++
        byteBits (s.window (s.val rs1) (s.val rs2))) id := by
  rw [exec, execMeBshift, State.withTable_some hmt]
  unfold RawTable.runBits
  cases mt.raw.bshCode s.mode with
  | none => rfl
  | some c => simp only [Option.map_some, Option.getD_some, State.window, Memory.length_readRange]; rfl

end

/-- While a shift is pending every mode-encoder command but ME.SYM and ME.INIT raises a fault (R183, R187). -/
theorem exec_of_shift_pending {i : Instr} {s : State} (hshv : s.shv = true) (hi : isModeCommand i = true)
    (hinit : i ≠ .meInit) (hsym : ∀ k r len, i ≠ .meSym k r len) : ∃ f info, exec i s = s.raise f info := by
  cases hmt : s.mt with
  | none =>
    refine ⟨_, _, exec_of_no_table hmt hi hinit ?_⟩
    cases i with
    | meSym k r len => exact absurd rfl (hsym k r len)
    | meInit | meLatch | meShift | meUnlatch | meBshift | meEncode => rfl
    | _ => cases hi
  | some mt =>
    have hlatch (k : StreamId) (m' : Nat) : s.latchTo mt.raw k m' = s.raise .illegalTransition 1 := by
      rw [State.latchTo_eq, if_pos hshv]
    cases i with
    | meInit => exact absurd rfl hinit
    | meSym k r len => exact absurd rfl (hsym k r len)
    | meLatch k mode =>
      rw [exec_meLatch hmt, hlatch]
      split <;> exact ⟨_, _, rfl⟩
    | meShift k mode =>
      rw [exec_meShift hmt, if_pos hshv]
      split <;> exact ⟨_, _, rfl⟩
    | meUnlatch k => exact ⟨_, _, (exec_meUnlatch hmt).trans ((if_neg (by simp [hshv])).trans (hlatch k _))⟩
    | meBshift k rs1 rs2 => exact ⟨_, _, (exec_meBshift hmt rs1 rs2).trans (if_pos hshv)⟩
    | meEncode rd k rs1 rs2 rs3 =>
      exact ⟨_, _, by rw [exec, execMeEncode, State.withTable_some hmt, if_pos hshv]⟩
    | _ => cases hi

/-! ### ME.ENCODE (R195) -/

section

variable {rd : Reg} {k : StreamId} {rs1 rs2 rs3 : Reg} {s : State} {mt : ModeTable} {c : Nat}

/-- The message of ME.ENCODE (R195). -/
def State.message (s : State) (rs1 rs2 : Reg) : List Byte := s.window (s.val rs1) (s.val rs2)

/-- The state ME.ENCODE leaves (R195). -/
def State.encoded (s : State) (t : RawTable) (rd : Reg) (k : StreamId) (msg : List Byte) (c : Nat) : State :=
  (((s.setStream k (s.stream k ++ planBits t s.mode msg (chosenPlan t s.mode msg c))).setMode
    (planEnd s.mode (chosenPlan t s.mode msg c))).setReg rd (BitVec.ofNat 32 c)).advance

theorem State.mode_lt (hs : s.modeInv) (hmt : s.mt = some mt) : s.mode < mt.raw.nm :=
  ((State.modeInv_some hmt).1 hs).2.1

/-- After its checks ME.ENCODE cannot overflow the stream: the plan has exactly c bits (R195). -/
theorem State.performPlan_eq (hs : s.modeInv) (hmt : s.mt = some mt) {msg : List Byte}
    (hc : costToGo mt.raw msg s.mode = some c) (hfits : (s.stream k).length + c ≤ s.params.bsCap) :
    s.performPlan mt.raw rd k msg c = .next (s.encoded mt.raw rd k msg c) := by
  unfold State.performPlan
  refine State.appendThen_of_fits ?_
  rwa [planBits_length (planCost_chosenPlan mt.facts (State.mode_lt hs hmt) hc)]

/-- ME.ENCODE with its table: the checks in order, then the chosen plan (R195). -/
theorem execMeEncode_eq (hs : s.modeInv) (hmt : s.mt = some mt) :
    exec (.meEncode rd k rs1 rs2 rs3) s =
      if s.shv = true then s.raise .illegalTransition 1
      else if s.params.bufCap < s.val rs1 + s.val rs2 then s.raise .outOfRange (s.val rs1 + s.val rs2)
      else (costToGo mt.raw (s.message rs1 rs2) s.mode).elim (s.raise .unencodableCharacter 0) fun c =>
        if s.val rs3 < c then s.raise .messageTooLarge c
        else if s.params.bsCap < (s.stream k).length + c then s.raise .messageTooLarge ((s.stream k).length + c)
        else .next (s.encoded mt.raw rd k (s.message rs1 rs2) c) := by
  rw [exec, execMeEncode, State.withTable_some hmt]
  dsimp only [State.message]
  refine if_congr Iff.rfl rfl (if_congr Iff.rfl rfl ?_)
  cases hc : costToGo mt.raw (s.window (s.val rs1) (s.val rs2)) s.mode with
  | none => rfl
  | some c =>
    refine if_congr Iff.rfl rfl ?_
    split
    · exact (if_pos ‹_›).symm
    · rename_i hfits
      exact (State.performPlan_eq hs hmt hc (Nat.le_of_not_lt hfits)).trans (if_neg hfits).symm

/-- The state ME.ENCODE leaves differs from s in rd, BS[k], ME_MODE and CP only (R195). -/
theorem State.encoded_frame (s : State) (t : RawTable) (rd : Reg) (k : StreamId) (msg : List Byte) (c : Nat) :
    s.encoded t rd k msg c =
      { s with x := (s.encoded t rd k msg c).x, bs0 := (s.encoded t rd k msg c).bs0,
               bs1 := (s.encoded t rd k msg c).bs1,
               meMode := BitVec.ofNat 8 (planEnd s.mode (chosenPlan t s.mode msg c)), cp := s.cp + 1 } := by
  cases k <;> rfl

theorem State.reg_encoded (s : State) (t : RawTable) (rd : Reg) (k : StreamId) (msg : List Byte) (c : Nat) (r : Reg) :
    (s.encoded t rd k msg c).reg r = if r = rd then BitVec.ofNat 32 c else s.reg r := by
  simp [State.encoded, State.reg_setReg]

theorem State.stream_encoded (s : State) (t : RawTable) (rd : Reg) (k : StreamId) (msg : List Byte) (c : Nat)
    (k' : StreamId) : (s.encoded t rd k msg c).stream k' =
      if k' = k then s.stream k ++ planBits t s.mode msg (chosenPlan t s.mode msg c) else s.stream k' := by
  simp [State.encoded, State.stream_setStream]

end

/-! ### The statements -/

/-- Settles O57: the checks in order; the chosen plan is allowed, costs c and so has c bits, which fit. -/
theorem encodeChecksAndEffects : Obligations.EncodeChecksAndEffects := by
  intro rd k rs1 rs2 rs3 s hs o l cap m msg size i
  refine ⟨encode_opByte _, tableCommand_of rfl nofun rfl fun mt hmt => ?_⟩
  refine check_then (execMeEncode_eq hs.modes hmt) fun hexec => check_then hexec fun hexec => ?_
  change exec i s = (costToGo mt.raw msg m).elim _ _ at hexec
  cases hc : costToGo mt.raw msg m with
  | none =>
    rw [hc] at hexec
    exact hexec
  | some c =>
    rw [hc, Option.elim_some] at hexec
    refine check_then hexec fun hexec => check_then hexec fun hexec => ?_
    have hplan := planCost_chosenPlan mt.facts (State.mode_lt hs.modes hmt) hc
    exact ⟨hplan, planBits_length hplan, _, hexec, s.encoded_frame .., s.reg_encoded _ rd k _ c,
      s.stream_encoded _ rd k _ c⟩

/-- Settles O52: ME.INIT always completes, to the default mode of the table or to 0. -/
theorem initReturnsToDefaultMode : Obligations.InitReturnsToDefaultMode := by
  refine ⟨by decide, fun s => ⟨fun mt hmt => ?_, fun hmt => ?_⟩⟩ <;> refine (execMeInit_eq s).trans ?_
  · rw [State.defaultMode_some hmt]
  · rw [State.defaultMode_none hmt]
    rfl

/-- The latch of ME.LATCH and ME.UNLATCH, as the statements say it (R186). -/
theorem latchesTo_of {i : Instr} {s : State} {t : RawTable} {k : StreamId} {m' : Nat}
    (h : exec i s = s.latchTo t k m') : LatchesTo i s t k m' := by
  refine check_then (h.trans (s.latchTo_eq t k m')) fun hexec => ?_
  change exec i s = (t.latchCode s.meMode.toNat m').elim _ _ at hexec
  cases hc : t.latchCode s.meMode.toNat m' with
  | none =>
    rw [hc] at hexec
    exact hexec
  | some c =>
    rw [hc, Option.elim_some, ← bitList_eq] at hexec
    exact appends_of_appendThen hexec fun _ => by cases k <;> rfl

/-- Settles O53: both are the latch, behind ME.LATCH's range check and ME.UNLATCH's no-op in the default mode. -/
theorem latchAndUnlatchChangeMode : Obligations.LatchAndUnlatchChangeMode := by
  intro k mode s
  refine ⟨encode_opByte _, encode_opByte _, tableCommand_of rfl nofun rfl fun mt hmt => ?_,
    tableCommand_of rfl nofun rfl fun mt hmt => ?_, fun w hop himm => ?_⟩
  · exact check_then (exec_meLatch hmt mode) latchesTo_of
  · exact check_then (exec_meUnlatch hmt) latchesTo_of
  · exact (isIllegal_iff_of_opByte (o := .meLatch) hop).2 (.inr (Nat.not_lt.2 himm))

/-- Settles O54: the checks in order and the append; while a shift is pending every other mode-encoder command but ME.SYM and
ME.INIT faults, and no command of another unit writes SHV or SHM. -/
theorem shiftPendsForOneSymbol : Obligations.ShiftPendsForOneSymbol := by
  intro k mode s
  refine ⟨encode_opByte _, tableCommand_of rfl nofun rfl fun mt hmt => ?_, fun i t h hshv => ?_, fun w hop himm => ?_⟩
  · refine check_then (exec_meShift hmt mode) fun hexec => check_then hexec fun hexec => ?_
    change exec _ s = (mt.raw.shiftCode s.meMode.toNat mode.toNat).elim _ _ at hexec
    cases hc : mt.raw.shiftCode s.meMode.toNat mode.toNat with
    | none =>
      rw [hc] at hexec
      exact hexec
    | some c =>
      rw [hc, Option.elim_some, ← bitList_eq] at hexec
      refine appends_of_appendThen hexec fun _ => ?_
      rw [State.setShift, BitVec.ofNat_toNat, BitVec.setWidth_eq]
      cases k <;> rfl
  · by_cases hinit : i = .meInit
    · exact .inr (.inr hinit)
    by_cases hsym : ∃ k' r l, i = .meSym k' r l
    · exact .inr (.inl hsym)
    left
    cases hi : isModeCommand i with
    | true =>
      obtain ⟨f, info, hraise⟩ := exec_of_shift_pending hshv hi hinit fun k' r l hi => hsym ⟨k', r, l, hi⟩
      obtain rfl := State.raise_next_iff.1 (hraise.symm.trans h)
      exact ⟨hshv, rfl⟩
    | false =>
      have hkeep := exec_modeRegisters h hi
      obtain ⟨-, hshv', hshm⟩ : _ ∧ t.shv = s.shv ∧ t.shm = s.shm := by simpa [State.modeRegisters] using hkeep
      exact ⟨hshv'.trans hshv, hshm⟩
  · exact (isIllegal_iff_of_opByte (o := .meShift) hop).2 (.inr (Nat.not_lt.2 himm))

/-- Settles O55: the checks in order and the append of the code in the effective mode; its immediates are 1 and 2. -/
theorem symEmitsCodeOfEffectiveMode : Obligations.SymEmitsCodeOfEffectiveMode := by
  refine ⟨?_, fun w hop h1 h2 => ?_⟩
  · intro k rs1 len s hlen o e key
    refine ⟨encode_opByte _, tableCommand_of rfl nofun (symLenOk_iff.2 hlen) fun mt hmt => ?_⟩
    refine check_then (exec_meSym hmt rs1 hlen) fun hexec => ?_
    change exec _ s = (mt.raw.symCode e key).elim _ _ at hexec
    cases hc : mt.raw.symCode e key with
    | none =>
      rw [hc] at hexec
      exact hexec
    | some c =>
      rw [hc, Option.elim_some, ← bitList_eq] at hexec
      exact appends_of_appendThen hexec fun _ => by cases k <;> rfl
  · exact (isIllegal_iff_of_opByte (o := .meSym) hop).2 (.inr (not_or.2 ⟨h1, h2⟩))

theorem lengthField_eq (t : RawTable) (l : Nat) : lengthField t l = t.lenField l := by
  simp only [lengthField, bitList_eq]
  rfl

theorem RawTable.lmax_eq (t : RawTable) : (2 ^ t.ws - 1) + (2 ^ t.wl - 1) = t.lmax :=
  (Nat.add_sub_assoc Nat.one_le_two_pow _).symm

/-- Settles O56: the checks in order and the append of the code, the length field and the bytes. -/
theorem bshiftEmitsLengthAndBytes : Obligations.BshiftEmitsLengthAndBytes := by
  intro k rs1 rs2 s o l i
  refine ⟨encode_opByte _, tableCommand_of rfl nofun rfl fun mt hmt => ?_⟩
  refine check_then (exec_meBshift hmt rs1 rs2) fun hexec => ?_
  change exec _ s = (mt.raw.bshCode s.meMode.toNat).elim _ _ at hexec
  cases hc : mt.raw.bshCode s.meMode.toNat with
  | none =>
    rw [hc] at hexec
    exact hexec
  | some c =>
    rw [hc, Option.elim_some, ← RawTable.lmax_eq] at hexec
    refine check_then hexec fun hexec => check_then hexec fun hexec => ?_
    have hbytes : byteBits (s.window o l) = (List.range l).flatMap fun j => bitList (s.buf.read (o + j)).toNat 8 := by
      simp only [byteBits, State.window, Memory.readRange, List.flatMap_map, bitList_eq]
    rw [lengthField_eq, bitList_eq, ← hbytes]
    exact appends_of_append hexec

end Sys2Proof.Machine

/-! ## The reference decoder inverts the mode encoder (44_mode_encoder.md R214, R215)

A code names one token, since the codes of a mode are distinct. `Scans` says what the decoder makes of the bits of a token
whatever follows them; it holds of each token, move, plan and command, and composes. -/

namespace Sys2Proof.Machine

/-! ### Taking bits, lengths and bytes -/

theorem takeBits_append (bits rest : List Bool) : takeBits bits.length (bits ++ rest) = some (bitsValue bits, rest) := by
  simp [takeBits]

theorem takeBits_bitsOf {c w : Nat} (h : c < 2 ^ w) (rest : List Bool) :
    takeBits w (bitsOf c w ++ rest) = some (c, rest) := by
  have htake := takeBits_append (bitsOf c w) rest
  rwa [bitsOf_length, bitsValue_bitsOf h] at htake

theorem takeBytes_byteBits (bytes : List Byte) (rest : List Bool) :
    takeBytes bytes.length (byteBits bytes ++ rest) = some (bytes, rest) := by
  induction bytes with
  | nil => rfl
  | cons b bytes ih =>
    rw [byteBits, List.flatMap_cons, ← byteBits, List.append_assoc, List.length_cons, takeBytes,
      takeBits_bitsOf b.isLt]
    simp [ih]

/-- The length field reads back: a zero short field announces the long form (R191). -/
theorem takeLength_lenField {t : RawTable} {l : Nat} (hpos : 1 ≤ l) (hmax : l ≤ t.lmax) (rest : List Bool) :
    takeLength t (t.lenField l ++ rest) = some (l, rest) := by
  have hws := Nat.one_le_two_pow (n := t.ws)
  have hwl := Nat.one_le_two_pow (n := t.wl)
  have hlmax : t.lmax = t.smax + 2 ^ t.wl - 1 := rfl
  by_cases hshort : l ≤ t.smax
  · have hlt : l < 2 ^ t.ws := by rw [RawTable.smax] at hshort; omega
    obtain ⟨j, rfl⟩ := Nat.exists_eq_add_of_le' hpos
    rw [takeLength, RawTable.lenField, if_pos hshort, takeBits_bitsOf hlt]
  · have htake := takeBits_bitsOf (show l - t.smax < 2 ^ t.wl by omega) rest
    rw [takeLength, RawTable.lenField, if_neg hshort, List.append_assoc, takeBits_bitsOf hws]
    simp only [htake, Option.map_some]
    rw [Nat.sub_add_cancel (by omega)]

theorem takeRun_runBits {t : RawTable} {bytes : List Byte} (hpos : 1 ≤ bytes.length) (hmax : bytes.length ≤ t.lmax)
    (rest : List Bool) : takeRun t (t.lenField bytes.length ++ (byteBits bytes ++ rest)) = some (bytes, rest) := by
  rw [takeRun, takeLength_lenField hpos hmax]
  exact takeBytes_byteBits bytes rest

/-! ### A code names one token (R182, R214) -/

theorem keyOf_of_mem {α : Type} {pairs : List (α × Nat)} {a : α} {c : Nat} (hnodup : (pairs.map Prod.snd).Nodup)
    (h : (a, c) ∈ pairs) : keyOf pairs c = some a := by
  induction pairs with
  | nil => cases h
  | cons p pairs ih =>
    obtain ⟨hp, hrest⟩ := List.nodup_cons.1 (List.map_cons ▸ hnodup)
    rcases List.mem_cons.1 h with rfl | hmem
    · simp [keyOf]
    · have hne : p.2 ≠ c := by
        rintro rfl
        exact hp (List.mem_map.2 ⟨_, hmem, rfl⟩)
      rw [keyOf, List.find?_cons_of_neg (by simpa using hne)]
      exact ih hrest hmem

theorem keyOf_of_not_mem {α : Type} {pairs : List (α × Nat)} {c : Nat} (h : c ∉ pairs.map Prod.snd) :
    keyOf pairs c = none := by
  rw [keyOf, Option.map_eq_none_iff, List.find?_eq_none]
  exact fun p hp heq => h (beq_iff_eq.1 heq ▸ List.mem_map_of_mem hp)

theorem targetOf_of_mem {pairs : List ((Nat × Nat) × Nat)} {m m' c : Nat} (hnodup : (codesFrom pairs m).Nodup)
    (h : ((m, m'), c) ∈ pairs) : targetOf pairs m c = some m' := by
  rw [targetOf, keyOf_of_mem hnodup (List.mem_filter.2 ⟨h, by simp⟩)]
  rfl

theorem targetOf_of_not_mem {pairs : List ((Nat × Nat) × Nat)} {m c : Nat} (h : c ∉ codesFrom pairs m) :
    targetOf pairs m c = none := by
  rw [targetOf, keyOf_of_not_mem h]
  rfl

theorem mem_codesFrom {pairs : List ((Nat × Nat) × Nat)} {m m' c : Nat} (h : ((m, m'), c) ∈ pairs) :
    c ∈ codesFrom pairs m := List.mem_map.2 ⟨_, List.mem_filter.2 ⟨h, by simp⟩, rfl⟩

section

variable {t : RawTable} (ht : TableFacts t) {m m' c : Nat}

include ht

/-- The four kinds of codes of a mode are distinct in and among each other (R182). -/
theorem TableFacts.codes_disjoint (hm : m < t.nm) :
    (((t.symOf m).map Prod.snd).Nodup ∧ (codesFrom t.latch m).Nodup ∧ (codesFrom t.shift m).Nodup) ∧
    ((t.symOf m).map Prod.snd).Disjoint (codesFrom t.latch m) ∧
    ((t.symOf m).map Prod.snd ++ codesFrom t.latch m).Disjoint (codesFrom t.shift m) ∧
    ((t.symOf m).map Prod.snd ++ codesFrom t.latch m ++ codesFrom t.shift m).Disjoint
      ((t.bsh.filter fun p => p.1 == m).map Prod.snd) := by
  obtain ⟨habc, -, hd⟩ := List.nodup_append'.1 (ht.codes_nodup m hm)
  obtain ⟨hab, hc, hdc⟩ := List.nodup_append'.1 habc
  obtain ⟨ha, hb, hdb⟩ := List.nodup_append'.1 hab
  exact ⟨⟨ha, hb, hc⟩, hdb, hdc, hd⟩

theorem TableFacts.meaning_symbol {key : List Byte} (h : t.symCode m key = some c) :
    t.meaning m c = some (.symbol key) := by
  obtain ⟨hm, -⟩ := ht.symCode_some h
  obtain ⟨⟨hsym, -⟩, -⟩ := ht.codes_disjoint hm
  rw [RawTable.meaning, keyOf_of_mem hsym (mem_of_lookup h)]

theorem TableFacts.meaning_latch (h : t.latchCode m m' = some c) : t.meaning m c = some (.latch m') := by
  obtain ⟨hm, -⟩ := ht.latchCode_some h
  obtain ⟨⟨-, hlatch, -⟩, hdisj, -⟩ := ht.codes_disjoint hm
  have hmem := mem_of_lookup h
  rw [RawTable.meaning, keyOf_of_not_mem fun hc => hdisj hc (mem_codesFrom hmem), targetOf_of_mem hlatch hmem]

theorem TableFacts.meaning_shift (h : t.shiftCode m m' = some c) : t.meaning m c = some (.shift m') := by
  obtain ⟨hm, -⟩ := ht.shiftCode_some h
  obtain ⟨⟨-, -, hshift⟩, -, hdisj, -⟩ := ht.codes_disjoint hm
  have hmem := mem_of_lookup h
  rw [List.disjoint_append_left] at hdisj
  obtain ⟨hsym, hlatch⟩ := hdisj
  rw [RawTable.meaning, keyOf_of_not_mem fun hc => hsym hc (mem_codesFrom hmem),
    targetOf_of_not_mem fun hc => hlatch hc (mem_codesFrom hmem), targetOf_of_mem hshift hmem]

theorem TableFacts.meaning_binaryShift (h : t.bshCode m = some c) : t.meaning m c = some .binaryShift := by
  obtain ⟨hm, -⟩ := ht.bshCode_some h
  obtain ⟨-, -, -, hdisj⟩ := ht.codes_disjoint hm
  have hmem : c ∈ (t.bsh.filter fun p => p.1 == m).map Prod.snd :=
    List.mem_map.2 ⟨_, List.mem_filter.2 ⟨mem_of_lookup h, by simp⟩, rfl⟩
  rw [List.disjoint_append_left, List.disjoint_append_left] at hdisj
  obtain ⟨⟨hsym, hlatch⟩, hshift⟩ := hdisj
  rw [RawTable.meaning, keyOf_of_not_mem fun hc => hsym hc hmem, targetOf_of_not_mem fun hc => hlatch hc hmem,
    targetOf_of_not_mem fun hc => hshift hc hmem]
  exact if_pos h

end

/-! ### Scans -/

/-- The loop of R214 in mode m with the pending shift sh reads `bits` as `bytes`, whatever follows, and is then in mode m'
with sh'; each round takes at least one bit. -/
def Scans (t : RawTable) (m : Nat) (sh : Option Nat) (bits : List Bool) (bytes : List Byte) (m' : Nat)
    (sh' : Option Nat) : Prop :=
  ∃ rounds ≤ bits.length, ∀ fuel rest,
    decodeLoop t (fuel + rounds) m sh (bits ++ rest) = (decodeLoop t fuel m' sh' rest).map (bytes ++ ·)

section

variable {t : RawTable} {m m' m'' : Nat} {sh sh' sh'' : Option Nat} {bits bits' : List Bool} {bytes bytes' : List Byte}

theorem Scans.refl (t : RawTable) (m : Nat) (sh : Option Nat) : Scans t m sh [] [] m sh :=
  ⟨0, le_rfl, fun fuel rest => by simp⟩

theorem Scans.trans (h : Scans t m sh bits bytes m' sh') (h' : Scans t m' sh' bits' bytes' m'' sh'') :
    Scans t m sh (bits ++ bits') (bytes ++ bytes') m'' sh'' := by
  obtain ⟨n, hn, hscan⟩ := h
  obtain ⟨n', hn', hscan'⟩ := h'
  refine ⟨n' + n, by rw [List.length_append]; omega, fun fuel rest => ?_⟩
  rw [List.append_assoc, ← Nat.add_assoc, hscan, hscan', Option.map_map]
  simp [Function.comp_def]

/-- Trailing bits fewer than one code of the final mode are ignored (R215). -/
theorem Scans.mdecode (h : Scans t m none bits bytes m' none) {extra : List Bool} (hextra : extra.length < t.w m') :
    mdecode t (bits ++ extra) m = some bytes := by
  obtain ⟨n, hn, hscan⟩ := h
  obtain ⟨fuel, hfuel⟩ : ∃ fuel, (bits ++ extra).length + 1 = fuel + 1 + n :=
    ⟨(bits ++ extra).length - n, by rw [List.length_append]; omega⟩
  have hend : decodeLoop t (fuel + 1) m' none extra = some [] := by simp [decodeLoop, takeBits, hextra]
  rw [Machine.mdecode, hfuel, hscan, hend, Option.map_some, List.append_nil]

end

/-! ### Tokens -/

section

variable {t : RawTable} (ht : TableFacts t) {m m' c : Nat}

include ht

/-- A symbol code stands for its key and ends a pending shift. -/
theorem scans_symbol {sh : Option Nat} {key : List Byte} (h : t.symCode (sh.getD m) key = some c) :
    Scans t m sh (bitsOf c (t.w (sh.getD m))) key m none := by
  obtain ⟨hm, -, hc⟩ := ht.symCode_some h
  refine ⟨1, by simpa using (ht.w_range hm).1, fun fuel rest => ?_⟩
  rw [decodeLoop]
  simp only [takeBits_bitsOf (ht.codes_lt _ hm _ hc), ht.meaning_symbol h]

theorem scans_latch (h : t.latchCode m m' = some c) : Scans t m none (bitsOf c (t.w m)) [] m' none := by
  obtain ⟨hm, -, -, hc⟩ := ht.latchCode_some h
  refine ⟨1, by simpa using (ht.w_range hm).1, fun fuel rest => ?_⟩
  rw [decodeLoop]
  simp [takeBits_bitsOf (ht.codes_lt _ hm _ hc), ht.meaning_latch h]

theorem scans_shift (h : t.shiftCode m m' = some c) : Scans t m none (bitsOf c (t.w m)) [] m (some m') := by
  obtain ⟨hm, -, -, hc⟩ := ht.shiftCode_some h
  refine ⟨1, by simpa using (ht.w_range hm).1, fun fuel rest => ?_⟩
  rw [decodeLoop]
  simp [takeBits_bitsOf (ht.codes_lt _ hm _ hc), ht.meaning_shift h]

theorem scans_run (h : t.bshCode m = some c) {bytes : List Byte} (hpos : 1 ≤ bytes.length)
    (hmax : bytes.length ≤ t.lmax) :
    Scans t m none (bitsOf c (t.w m) ++ t.lenField bytes.length ++ byteBits bytes) bytes m none := by
  obtain ⟨hm, hc⟩ := ht.bshCode_some h
  have hw := (ht.w_range hm).1
  refine ⟨1, by simp; omega, fun fuel rest => ?_⟩
  rw [decodeLoop, List.append_assoc, List.append_assoc]
  simp [takeBits_bitsOf (ht.codes_lt _ hm _ hc), ht.meaning_binaryShift h, takeRun_runBits hpos hmax]

/-! ### Moves and plans (R192) -/

/-- An allowed move reads back as the bytes it consumes, and leaves no shift pending. -/
theorem scans_move {msg : List Byte} {mv : Move} (h : moveCost t m msg mv = some c) :
    Scans t m none (moveBits t m msg mv) (msg.take mv.bytes) (mv.target m) none := by
  cases mv with
  | sym len =>
    obtain ⟨-, ⟨code, hcode⟩, -⟩ := moveCost_sym_eq_some_iff.1 h
    simpa [moveBits, Move.bytes, Move.target, RawTable.symBits, hcode] using scans_symbol ht (sh := none) hcode
  | shiftSym m' len =>
    obtain ⟨-, ⟨shift, hshift⟩, ⟨code, hcode⟩, -⟩ := moveCost_shiftSym_eq_some_iff.1 h
    simpa [moveBits, Move.bytes, Move.target, RawTable.shiftBits, RawTable.symBits, hshift, hcode] using
      (scans_shift ht hshift).trans (scans_symbol ht (m := m) (sh := some m') hcode)
  | run len =>
    obtain ⟨⟨hpos, hlen, hmax⟩, ⟨code, hcode⟩, -⟩ := moveCost_run_eq_some_iff.1 h
    have htake : (msg.take len).length = len := List.length_take_of_le hlen
    simpa [moveBits, Move.bytes, Move.target, RawTable.runBits, hcode] using
      scans_run ht hcode (hpos.trans_eq htake.symm) (htake.trans_le hmax)
  | latch m' =>
    obtain ⟨⟨code, hcode⟩, -⟩ := moveCost_latch_eq_some_iff.1 h
    simpa [moveBits, Move.bytes, Move.target, RawTable.latchBits, hcode] using scans_latch ht hcode

/-- An allowed plan reads back as its message (R215). -/
theorem scans_plan {msg : List Byte} {plan : List Move} (h : planCost t m msg plan = some c) :
    Scans t m none (planBits t m msg plan) msg (planEnd m plan) none := by
  induction plan generalizing m msg c with
  | nil =>
    obtain ⟨rfl, -⟩ := planCost_nil_eq_some_iff.1 h
    exact .refl t m none
  | cons mv plan ih =>
    obtain ⟨c, r, hc, hr, -⟩ := planCost_cons_eq_some_iff.1 h
    have hscan := (scans_move ht hc).trans (ih hr)
    rwa [List.take_append_drop] at hscan

end

/-! ### Commands (R215) -/

/-- The pending shift as the decoder keeps it (R183, R214). -/
def State.pending (s : State) : Option Nat := if s.shv then some s.shm.toNat else none

theorem State.pending_getD (s : State) : s.pending.getD s.mode = s.effMode := by
  unfold State.pending State.effMode
  split <;> rfl

theorem State.pending_eq_none {s : State} (h : s.shv = false) : s.pending = none := by
  rw [State.pending, h]
  rfl

/-- From s to u the stream k grew by bits that read back as the bytes. -/
def State.ScansTo (s u : State) (t : RawTable) (k : StreamId) (bytes : List Byte) : Prop :=
  ∃ bits, u.stream k = s.stream k ++ bits ∧ Scans t s.mode s.pending bits bytes u.mode u.pending

section

variable {k : StreamId} {s u : State} {mt : ModeTable} {t : RawTable} {bytes : List Byte}

theorem State.ScansTo.trans {v : State} {bytes' : List Byte} (h : s.ScansTo u t k bytes) (h' : u.ScansTo v t k bytes') :
    s.ScansTo v t k (bytes ++ bytes') := by
  obtain ⟨bits, hstream, hscan⟩ := h
  obtain ⟨bits', hstream', hscan'⟩ := h'
  exact ⟨bits ++ bits', by rw [hstream', hstream, List.append_assoc], hscan.trans hscan'⟩

/-- A command that writes neither BS[k] nor a mode register. -/
theorem State.ScansTo.of_unchanged (hstream : u.stream k = s.stream k) (hmodes : u.modeRegisters = s.modeRegisters) :
    s.ScansTo u t k [] := by
  obtain ⟨hmode, hshv, hshm⟩ : u.meMode = s.meMode ∧ u.shv = s.shv ∧ u.shm = s.shm := by
    simpa [State.modeRegisters] using hmodes
  refine ⟨[], by rw [hstream, List.append_nil], ?_⟩
  have hpending : u.pending = s.pending := by rw [State.pending, hshv, hshm, ← State.pending]
  have hmode' : u.mode = s.mode := congrArg BitVec.toNat hmode
  rw [hpending, hmode']
  exact .refl ..

variable (hrun : u.runstate = .run)

include hrun

/-- An append that leaves the block running, followed by writes that leave BS[k] alone. -/
theorem scansTo_of_appendThen {bits : List Bool} {after : State → State} (h : s.appendThen k bits after = .next u)
    (hstream : ∀ v, (after v).stream k = v.stream k)
    (hscan : Scans t s.mode s.pending bits bytes (after (s.setStream k (s.stream k ++ bits))).mode
      (after (s.setStream k (s.stream k ++ bits))).pending) : s.ScansTo u t k bytes := by
  obtain rfl := running_of_appendThen hrun h
  exact ⟨bits, by rw [State.stream_advance, hstream, State.stream_setStream_same], hscan⟩

theorem scansTo_of_latchTo {m' : Nat} (h : s.latchTo mt.raw k m' = .next u) : s.ScansTo u mt.raw k [] := by
  rw [State.latchTo_eq] at h
  obtain ⟨hshv, h⟩ := running_of_check hrun h
  obtain ⟨c, hc, h⟩ := running_of_lookup hrun h
  have hshv := Bool.eq_false_of_not_eq_true hshv
  refine scansTo_of_appendThen hrun h (fun v => State.stream_setMode v _ k) ?_
  simpa [State.mode, State.pending, hshv, mt.toNat_ofNat_mode (mt.facts.latchCode_some hc).2.1] using
    scans_latch mt.facts hc

variable (hmt : s.mt = some mt)

include hmt

theorem scansTo_of_meLatch {mode : BitVec 8} (h : exec (.meLatch k mode) s = .next u) : s.ScansTo u mt.raw k [] :=
  scansTo_of_latchTo hrun (running_of_check hrun ((exec_meLatch hmt mode).symm.trans h)).2

theorem scansTo_of_meUnlatch (h : exec (.meUnlatch k) s = .next u) : s.ScansTo u mt.raw k [] := by
  rw [exec_meUnlatch hmt] at h
  split at h
  · cases h
    exact .of_unchanged (State.stream_advance s k) rfl
  · exact scansTo_of_latchTo hrun h

theorem scansTo_of_meShift {mode : BitVec 8} (h : exec (.meShift k mode) s = .next u) : s.ScansTo u mt.raw k [] := by
  rw [exec_meShift hmt] at h
  obtain ⟨-, h⟩ := running_of_check hrun h
  obtain ⟨hshv, h⟩ := running_of_check hrun h
  obtain ⟨c, hc, h⟩ := running_of_lookup hrun h
  have hshv := Bool.eq_false_of_not_eq_true hshv
  refine scansTo_of_appendThen hrun h (fun v => State.stream_setShift v _ k) ?_
  simpa [State.mode, State.pending, hshv] using scans_shift mt.facts hc

theorem scansTo_of_meSym {rs1 : Reg} {len : BitVec 2} (h : exec (.meSym k rs1 len) s = .next u) :
    s.ScansTo u mt.raw k (s.window (s.val rs1) len.toNat) := by
  have hlen : len = 1 ∨ len = 2 := by
    rw [exec, execMeSym] at h
    exact symLenOk_iff.1 (by simpa using (running_of_check hrun h).1)
  rw [exec_meSym hmt rs1 hlen] at h
  obtain ⟨-, h⟩ := running_of_check hrun h
  obtain ⟨c, hc, h⟩ := running_of_lookup hrun h
  refine scansTo_of_appendThen hrun h (fun v => State.stream_clearShift v k) ?_
  rw [← State.pending_getD] at hc ⊢
  simpa [State.mode, State.pending] using scans_symbol mt.facts hc

theorem scansTo_of_meBshift {rs1 rs2 : Reg} (h : exec (.meBshift k rs1 rs2) s = .next u) :
    s.ScansTo u mt.raw k (s.window (s.val rs1) (s.val rs2)) := by
  rw [exec_meBshift hmt] at h
  obtain ⟨hshv, h⟩ := running_of_check hrun h
  obtain ⟨c, hc, h⟩ := running_of_lookup hrun h
  obtain ⟨hlen, h⟩ := running_of_check hrun h
  obtain ⟨-, h⟩ := running_of_check hrun h
  have hshv := Bool.eq_false_of_not_eq_true hshv
  have hwindow : (s.window (s.val rs1) (s.val rs2)).length = s.val rs2 := Memory.length_readRange ..
  have hscan := scans_run mt.facts hc (bytes := s.window (s.val rs1) (s.val rs2)) (by omega) (by omega)
  rw [hwindow] at hscan
  refine scansTo_of_appendThen hrun h (fun _ => rfl) ?_
  simpa [State.mode, State.pending, hshv] using hscan

/-- ME.ENCODE that leaves the block running had no shift pending and performed the chosen plan (R195). -/
theorem meEncode_of_running {rd rs1 rs2 rs3 : Reg} (hs : s.modeInv) (h : exec (.meEncode rd k rs1 rs2 rs3) s = .next u) :
    s.shv = false ∧ ∃ c, costToGo mt.raw (s.message rs1 rs2) s.mode = some c ∧
      u = s.encoded mt.raw rd k (s.message rs1 rs2) c := by
  rw [execMeEncode_eq hs hmt] at h
  obtain ⟨hshv, h⟩ := running_of_check hrun h
  obtain ⟨-, h⟩ := running_of_check hrun h
  obtain ⟨c, hc, h⟩ := running_of_lookup hrun h
  obtain ⟨-, h⟩ := running_of_check hrun h
  obtain ⟨-, h⟩ := running_of_check hrun h
  cases h
  exact ⟨Bool.eq_false_of_not_eq_true hshv, c, hc, rfl⟩

theorem scansTo_of_meEncode {rd rs1 rs2 rs3 : Reg} (hs : s.modeInv) (h : exec (.meEncode rd k rs1 rs2 rs3) s = .next u) :
    s.ScansTo u mt.raw k (s.message rs1 rs2) ∧ u.shv = false := by
  obtain ⟨hshv, c, hc, rfl⟩ := meEncode_of_running hrun hmt hs h
  have hm := State.mode_lt hs hmt
  have hplan := planCost_chosenPlan mt.facts hm hc
  have hshv' : (s.encoded mt.raw rd k (s.message rs1 rs2) c).shv = false := by
    rw [State.encoded_frame]
    exact hshv
  refine ⟨⟨planBits mt.raw s.mode (s.message rs1 rs2) (chosenPlan mt.raw s.mode (s.message rs1 rs2) c), ?_, ?_⟩, hshv'⟩
  · rw [State.stream_encoded, if_pos rfl]
  · have hend : (s.encoded mt.raw rd k (s.message rs1 rs2) c).mode = _ :=
      mt.toNat_ofNat_mode (planEnd_chosenPlan_lt (s.message rs1 rs2) c hm)
    rw [State.pending_eq_none hshv, State.pending_eq_none hshv', hend]
    exact scans_plan mt.facts hplan

end

/-- A command allowed in the sequence that leaves the block running appends to BS[k] bits that read back as the bytes it
gives (R215). -/
theorem scansTo_of_tokenBytes {k : StreamId} {i : Instr} {s u : State} {mt : ModeTable} {bytes : List Byte}
    (hs : s.modeInv) (hmt : s.mt = some mt) (hbytes : tokenBytes k s i = some bytes) (h : exec i s = .next u)
    (hrun : u.runstate = .run) : s.ScansTo u mt.raw k bytes := by
  cases hi : isModeCommand i with
  | false =>
    have hk : writesStream i ≠ some k ∧ [] = bytes := by simpa [tokenBytes, hi] using hbytes
    obtain ⟨hk, rfl⟩ := hk
    refine .of_unchanged ?_ (exec_modeRegisters h hi)
    exact exec_keeps (State.stream · k) h (fun _ _ _ _ _ _ => by cases k <;> rfl) fun _ _ w => w.stream_eq hk
  | true =>
    simp only [tokenBytes, hi, if_true, Option.ite_none_right_eq_some] at hbytes
    obtain ⟨hk, hbytes⟩ := hbytes
    cases i with
    | meInit => cases hk
    | meLatch => cases hk; cases hbytes; exact scansTo_of_meLatch hrun hmt h
    | meShift => cases hk; cases hbytes; exact scansTo_of_meShift hrun hmt h
    | meUnlatch => cases hk; cases hbytes; exact scansTo_of_meUnlatch hrun hmt h
    | meSym => cases hk; cases hbytes; exact scansTo_of_meSym hrun hmt h
    | meBshift => cases hk; cases hbytes; exact scansTo_of_meBshift hrun hmt h
    | meEncode => cases hk; cases hbytes; exact (scansTo_of_meEncode hrun hmt hs h).1
    | _ => cases hi

/-- A command keeps the table and the mode registers' invariant (10_state.md R22, R24). -/
theorem exec_keeps_modes {i : Instr} {s u : State} (hs : s.modeInv) (h : exec i s = .next u) :
    u.modeInv ∧ u.mt = s.mt :=
  ⟨exec_preserves (P := State.modeInv) (fun _ _ _ _ _ _ hu => hu) (fun _ _ w hu => w.modeInv hu) h hs,
    exec_keeps State.mt h (fun _ _ _ _ _ _ => rfl) fun _ _ w => w.sameRun.mt⟩

theorem scansTo_of_tokenRun {k : StreamId} {mt : ModeTable} {commands : List Instr} {s u : State} {bytes : List Byte}
    (hs : s.modeInv) (hmt : s.mt = some mt) (h : TokenRun k commands s bytes u) : s.ScansTo u mt.raw k bytes := by
  induction commands generalizing s bytes with
  | nil =>
    obtain ⟨rfl, rfl⟩ := h
    exact .of_unchanged rfl rfl
  | cons i commands ih =>
    obtain ⟨v, b, rest, hb, hexec, hrun, rfl, htail⟩ := h
    obtain ⟨hv, hvmt⟩ := exec_keeps_modes hs hexec
    exact (scansTo_of_tokenBytes hs hmt hb hexec hrun).trans (ih hv (hvmt.trans hmt) htail)

/-- Settles O60: every command's bits read back as its bytes, so those of a sequence do, and ME.ENCODE's into an empty
stream. -/
theorem encodeRoundTrip : Obligations.EncodeRoundTrip := by
  refine ⟨fun rd k rs1 rs2 rs3 s t mt hs hmt hempty hshv hrun h hrun' => ?_,
    fun k s t mt commands bytes hs hmt hshv hrun h hshv' => ?_⟩
  · obtain ⟨⟨bits, hstream, hscan⟩, hshv'⟩ := scansTo_of_meEncode hrun' hmt hs.modes h
    obtain ⟨ht, htmt⟩ := exec_keeps_modes hs.modes h
    rw [State.pending_eq_none hshv, State.pending_eq_none hshv'] at hscan
    have hw := (mt.facts.w_range (State.mode_lt ht (htmt.trans hmt))).1
    have hdecode := hscan.mdecode (extra := []) hw
    rwa [List.append_nil, ← List.nil_append bits, ← hempty, ← hstream] at hdecode
  · obtain ⟨bits, hstream, hscan⟩ := scansTo_of_tokenRun hs.modes hmt h
    rw [State.pending_eq_none hshv, State.pending_eq_none hshv'] at hscan
    exact ⟨bits, hstream, fun extra hextra => hscan.mdecode hextra⟩

end Sys2Proof.Machine

/-! ## Binary-shift breakpoints (44_mode_encoder.md R197)

Of a message outside every symbol table only runs and latches are allowed, and no mode opens runs for fewer bits than one
of width 5. So the overhead of R197 bounds every plan from below, and the first run of R197's row attains it. -/

namespace Sys2Proof.Machine

/-! ### The arithmetic of R197 -/

/-- The bits beyond its bytes of a run of l bytes from a mode of width 5, with WS = 5 and WL = 11 (R191). -/
def runExtra (l : Nat) : Nat := if l ≤ 31 then 10 else 21

/-- The overhead of R197, 0 for the empty message. -/
def overheadOf (i : Nat) : Nat := if i = 0 then 0 else runOverhead i

/-- The runs of R197, none for the empty message. -/
def runsOf (i : Nat) : List Nat := if i = 0 then [] else runLengths i

/-- The first run of R197's row. -/
def firstRun (i : Nat) : Nat := if i ≤ 31 then i else if i ≤ 62 then 31 else min i 2078

section

variable {i l : Nat}

/-- The rows of R197. -/
theorem breakpoint_cases (hi : i ≤ 2141) : i = 0 ∨ (1 ≤ i ∧ i ≤ 31) ∨ (32 ≤ i ∧ i ≤ 62) ∨ (63 ≤ i ∧ i ≤ 2078) ∨
    (2079 ≤ i ∧ i ≤ 2109) ∨ (2110 ≤ i ∧ i ≤ 2140) ∨ i = 2141 := by
  omega

theorem firstRun_bounds (hpos : 1 ≤ i) : 1 ≤ firstRun i ∧ firstRun i ≤ i ∧ firstRun i ≤ 2078 := by
  grind [firstRun]

/-- No run leads below the overhead of R197. -/
theorem overheadOf_le (hpos : 1 ≤ l) (hle : l ≤ i) (hmax : l ≤ 2078) (hi : i ≤ 2141) :
    overheadOf i ≤ runExtra l + overheadOf (i - l) := by
  rcases breakpoint_cases hi with h | h | h | h | h | h | h <;> grind [overheadOf, runExtra, runOverhead]

/-- The first run of the row attains the overhead. -/
theorem overheadOf_firstRun (hpos : 1 ≤ i) (hi : i ≤ 2141) :
    overheadOf i = runExtra (firstRun i) + overheadOf (i - firstRun i) := by
  rcases breakpoint_cases hi with h | h | h | h | h | h | h <;> grind [overheadOf, runExtra, runOverhead, firstRun]

/-- A longer run than the row's first costs more. -/
theorem overheadOf_lt (hlong : firstRun i < l) (hle : l ≤ i) (hmax : l ≤ 2078) :
    overheadOf i < runExtra l + overheadOf (i - l) := by
  grind [overheadOf, runExtra, runOverhead, firstRun]

/-- The row's other runs are those of what the first leaves. -/
theorem runsOf_eq (hpos : 1 ≤ i) (hi : i ≤ 2141) : runsOf i = firstRun i :: runsOf (i - firstRun i) := by
  rcases breakpoint_cases hi with h | h | h | h | h | h | h <;> grind [runsOf, runLengths, firstRun]

end
/-! ### Plans of a message outside every symbol table -/

/-- The hypotheses of R197 on the table and the message: WS = 5 and WL = 11, no mode that opens runs is narrower than 5
(log 20), and no byte of the message is in a key. -/
structure RunsOnly (t : RawTable) (msg : List Byte) : Prop where
  ws : t.ws = 5
  wl : t.wl = 11
  width : ∀ m, t.bshCode m ≠ none → 5 ≤ t.w m
  outside : ∀ m, ∀ e ∈ t.symOf m, ∀ b ∈ e.1, b ∉ msg
  length_le : msg.length ≤ 2141

/-- A search from the highest number down. -/
theorem find?_reverse_range {p : Nat → Bool} {n j : Nat} (hj : j < n) (hp : p j = true)
    (habove : ∀ i, j < i → i < n → p i = false) : (List.range n).reverse.find? p = some j := by
  induction n with
  | zero => omega
  | succ n ih =>
    rw [List.range_succ, List.reverse_append, List.reverse_singleton, List.singleton_append]
    rcases Nat.lt_succ_iff_lt_or_eq.1 hj with hlt | rfl
    · rw [List.find?_cons_of_neg (by simp [habove n hlt])]
      exact ih hlt fun i hji hin => habove i hji (by omega)
    · exact List.find?_cons_of_pos hp

/-- The longest run that attains a cost is the first run choice that does (R194 (3)). -/
theorem find?_runChoices {t : RawTable} {m code l : Nat} {msg : List Byte} {row : Row} {after : List Row} {g : Cost}
    (hcode : t.bshCode m = some code) (hafter : after.length = msg.length) (hpos : 1 ≤ l) (hle : l ≤ msg.length)
    (hmax : l ≤ t.lmax) (hl : moveTotal t m msg (row :: after) (.run l) = g)
    (hlonger : ∀ l', l < l' → l' ≤ msg.length → l' ≤ t.lmax → moveTotal t m msg (row :: after) (.run l') ≠ g) :
    (runChoices t m after).find? (fun ch => ch.2 == g) = some (.run l, g) := by
  obtain ⟨j, rfl⟩ := Nat.exists_eq_add_of_le' hpos
  rw [runChoices_eq (row := row) hcode hafter, List.find?_map, find?_reverse_range (j := j), Option.map_some, hl]
  · omega
  · exact beq_iff_eq.2 hl
  · exact fun i hji hi => beq_eq_false_iff_ne.2 (hlonger (i + 1) (by omega) (by omega) (by omega))

namespace RunsOnly

variable {t : RawTable} {m : Nat} {msg : List Byte} (h : RunsOnly t msg)

include h

theorem drop (j : Nat) : RunsOnly t (msg.drop j) where
  ws := h.ws
  wl := h.wl
  width := h.width
  outside m e he b hb hmem := h.outside m e he b hb (List.mem_of_mem_drop hmem)
  length_le := by
    have := h.length_le
    rw [List.length_drop]
    omega

theorem lmax_eq : t.lmax = 2078 := by
  rw [RawTable.lmax, RawTable.smax, h.ws, h.wl]
  rfl

theorem runCost_eq (l : Nat) : t.runCost m l + 5 = t.w m + runExtra l + 8 * l := by
  rw [RawTable.runCost, RawTable.lenBits, RawTable.smax, h.ws, h.wl, runExtra, show 2 ^ 5 - 1 = 31 from rfl]
  split <;> omega

/-- No part of the message is a key. -/
theorem symCode_take {len : Nat} (hlen : len = 1 ∨ len = 2) (hfits : len ≤ msg.length) :
    t.symCode m (msg.take len) = none := by
  cases hc : t.symCode m (msg.take len) with
  | none => rfl
  | some c =>
    obtain ⟨b, hb⟩ := List.exists_mem_of_length_pos (l := msg.take len) (by rw [List.length_take]; omega)
    exact absurd (List.mem_of_mem_take hb) (h.outside m _ (mem_of_lookup hc) b hb)

/-- Only runs and latches are allowed. -/
theorem move_cases {mv : Move} {c : Nat} (hc : moveCost t m msg mv = some c) :
    (∃ l, mv = .run l) ∨ ∃ m', mv = .latch m' := by
  cases mv with
  | sym len =>
    obtain ⟨⟨hlen, hfits⟩, ⟨code, hcode⟩, -⟩ := moveCost_sym_eq_some_iff.1 hc
    exact absurd ((h.symCode_take hlen hfits).symm.trans hcode) nofun
  | shiftSym m' len =>
    obtain ⟨⟨hlen, hfits⟩, -, ⟨code, hcode⟩, -⟩ := moveCost_shiftSym_eq_some_iff.1 hc
    exact absurd ((h.symCode_take hlen hfits).symm.trans hcode) nofun
  | run l => exact .inl ⟨l, rfl⟩
  | latch m' => exact .inr ⟨m', rfl⟩

/-- No symbol or shifted symbol attains a finite cost to go. -/
theorem find?_symbolMoves {after : List Row} {g : Nat} :
    ((symbolMoves t).map fun mv => (mv, costVia t m msg after mv)).find? (fun ch => ch.2 == some g) = none := by
  rw [List.find?_eq_none]
  intro ch hch heq
  obtain ⟨mv, hmv, rfl⟩ := List.mem_map.1 hch
  obtain ⟨c, g', hc, -⟩ := Cost.plus_eq_some_iff.1 (beq_iff_eq.1 heq)
  rcases h.move_cases hc with ⟨l, rfl⟩ | ⟨m', rfl⟩ <;> simp [symbolMoves] at hmv

/-- From every mode a plan has the overhead of R197 or more. -/
theorem overhead_le_planCost {plan : List Move} {n : Nat} (hplan : planCost t m msg plan = some n) :
    8 * msg.length + overheadOf msg.length ≤ n := by
  induction plan generalizing m msg n with
  | nil =>
    obtain ⟨rfl, rfl⟩ := planCost_nil_eq_some_iff.1 hplan
    exact le_rfl
  | cons mv plan ih =>
    obtain ⟨c, r, hc, hr, rfl⟩ := planCost_cons_eq_some_iff.1 hplan
    have hrest := ih (h.drop mv.bytes) hr
    rw [List.length_drop] at hrest
    rcases h.move_cases hc with ⟨l, rfl⟩ | ⟨m', rfl⟩
    · obtain ⟨⟨hpos, hle, hmax⟩, ⟨code, hcode⟩, rfl⟩ := moveCost_run_eq_some_iff.1 hc
      have hw := h.width m (hcode ▸ nofun)
      have hcost := h.runCost_eq (m := m) l
      have hover := overheadOf_le hpos hle (h.lmax_eq ▸ hmax) h.length_le
      simp only [Move.bytes] at hrest
      omega
    · simp only [Move.bytes, Nat.sub_zero] at hrest
      omega

/-! ### The table and the chosen plan from a mode of width 5 -/

section

variable (ht : TableFacts t) {code : Nat} (hcode : t.bshCode m = some code) (hw : t.w m = 5)

include hcode hw

theorem moveCost_run {l : Nat} (hpos : 1 ≤ l) (hle : l ≤ msg.length) (hmax : l ≤ 2078) :
    moveCost t m msg (.run l) = some (runExtra l + 8 * l) := by
  refine moveCost_run_eq_some_iff.2 ⟨⟨hpos, hle, h.lmax_eq ▸ hmax⟩, ⟨code, hcode⟩, ?_⟩
  have hcost := h.runCost_eq (m := m) l
  omega

include ht

/-- The cost to go is the size of R197. -/
theorem costToGo_eq : costToGo t msg m = some (8 * msg.length + overheadOf msg.length) := by
  obtain ⟨hm, -⟩ := ht.bshCode_some hcode
  induction hn : msg.length using Nat.strong_induction_on generalizing msg with
  | _ n ih =>
    subst hn
    cases msg with
    | nil => exact costToGo_nil hm
    | cons b rest =>
      have hlen : 1 ≤ (b :: rest).length := Nat.succ_pos _
      obtain ⟨hpos, hle, hmax⟩ := firstRun_bounds hlen
      have hover := overheadOf_firstRun hlen h.length_le
      set l := firstRun (b :: rest).length
      have hrest := ih _ (by rw [List.length_drop]; omega) (h.drop l) rfl
      have hub := costToGo_le_of_move ht hm (h.moveCost_run hcode hw hpos hle hmax)
      rw [Move.bytes, Move.target, hrest, Cost.val_some, ← Nat.cast_add, Cost.val_le_coe_iff, List.length_drop] at hub
      obtain ⟨g, hg, hgle⟩ := hub
      have hlb := h.overhead_le_planCost (planCost_chosenPlan ht hm hg)
      rw [hg]
      congr 1
      omega

/-- bits + G[target] of a run. -/
theorem moveTotal_run {l : Nat} (hpos : 1 ≤ l) (hle : l ≤ msg.length) (hmax : l ≤ 2078) :
    moveTotal t m msg (costRows t msg) (.run l) =
      some (8 * msg.length + (runExtra l + overheadOf (msg.length - l))) := by
  obtain ⟨hm, -⟩ := ht.bshCode_some hcode
  have hrest : costToGo t (msg.drop l) m = _ := (h.drop l).costToGo_eq ht hcode hw
  rw [moveTotal_costRows ht hm (h.moveCost_run hcode hw hpos hle hmax), Move.bytes, Move.target, hrest, List.length_drop]
  simp only [Cost.plus]
  congr 1
  omega

/-- The first move of R194 is the first run of R197's row. -/
theorem firstMove_eq {b : Byte} {rest : List Byte} (hmsg : msg = b :: rest) :
    firstMove t m msg (costRow t msg (costRows t rest)) (costRows t rest) = some (.run (firstRun msg.length)) := by
  subst hmsg
  have hgoal : (costRow t (b :: rest) (costRows t rest)).at m = _ := h.costToGo_eq ht hcode hw
  have htotal {l : Nat} := h.moveTotal_run (l := l) ht hcode hw
  have hlen : 1 ≤ (b :: rest).length := Nat.succ_pos _
  obtain ⟨hpos, hle, hmax⟩ := firstRun_bounds hlen
  have hruns := find?_runChoices (row := costRow t (b :: rest) (costRows t rest)) hcode (costRows_length t rest) hpos hle
    (hmax.trans_eq h.lmax_eq.symm) (g := some (8 * (b :: rest).length + overheadOf (b :: rest).length))
    ((htotal hpos hle hmax).trans (by rw [← overheadOf_firstRun hlen h.length_le]))
    fun l hlong hl hlmax heq => by
      have hlt := overheadOf_lt hlong hl (hlmax.trans_eq h.lmax_eq)
      have := Option.some.inj ((htotal (by omega) hl (hlmax.trans_eq h.lmax_eq)).symm.trans heq)
      omega
  rw [firstMove, byteChoices, hgoal, List.append_assoc, List.find?_append, h.find?_symbolMoves,
    List.find?_append, hruns]
  rfl

/-- The chosen plan is the runs of R197's row. -/
theorem planFrom_eq {fuel : Nat} (hfuel : msg.length ≤ fuel) :
    planFrom t fuel m msg (costRows t msg) = (runsOf msg.length).map Move.run := by
  induction fuel generalizing msg with
  | zero =>
    obtain rfl := List.length_eq_zero_iff.1 (Nat.le_zero.1 hfuel)
    exact planFrom_nil 0
  | succ fuel ih =>
    cases msg with
    | nil => exact planFrom_nil _
    | cons b rest =>
      have hlen : 1 ≤ (b :: rest).length := Nat.succ_pos _
      obtain ⟨hpos, hle, hmax⟩ := firstRun_bounds hlen
      rw [planFrom_cons (h.firstMove_eq ht hcode hw rfl) hle, runsOf_eq hlen h.length_le, List.map_cons,
        Move.target, Move.bytes, ih (h.drop _) (by rw [List.length_drop]; omega), List.length_drop]

end
end RunsOnly

/-- Settles O59: only runs and latches are allowed, so R197's overhead is the least, and its runs are chosen longest first. -/
theorem binaryShiftBreakpoints : Obligations.BinaryShiftBreakpoints := by
  intro mt msg m hm hbsh hw hws hwl hwidth houtside hpos hmax
  have h : RunsOnly mt.raw msg := ⟨hws, hwl, hwidth, houtside, hmax⟩
  obtain ⟨code, hcode⟩ := Option.ne_none_iff_exists'.1 hbsh
  have hover : overheadOf msg.length = runOverhead msg.length := if_neg (by omega)
  have hruns : runsOf msg.length = runLengths msg.length := if_neg (by omega)
  rw [← hover, ← hruns]
  exact ⟨h.costToGo_eq mt.facts hcode hw, h.planFrom_eq mt.facts hcode hw (by omega)⟩

end Sys2Proof.Machine

/-! ## Faults (60_exceptions.md R220, R224)

A faulting step is fault entry and nothing else. `RaisesOnly` says that the fault an answer raises is listed for the
command. A shared operation has it when the codes of its own checks are listed; that premise is an automatic parameter,
which `simp` reads off the command's row of `raisedBy`. -/

namespace Sys2Proof.Machine

/-- Settles O8: a running state stays running after a completed command and halts after HALT, so a step that ends
FAULTED is fault entry. -/
theorem faultEntryIsPrecise : Obligations.FaultEntryIsPrecise := by
  intro s t h hfaulted
  obtain ⟨w, hrun, -, hcases⟩ := step_cases h
  rcases hcases with ⟨f, info, rfl⟩ | ⟨-, rfl⟩ | ⟨i, u, -, -, -, rfl, hu⟩
  · exact ⟨f.code, info, rfl⟩
  · cases hfaulted
  · exact absurd ((hu.runstate.trans hrun).symm.trans hfaulted) nofun

/-- When the answer of command `i` is a faulted state, its FCODE is a code the fault list gives `i`. -/
structure RaisesOnly (i : Instr) (r : Result) : Prop where
  fcode_listed : ∀ t, r = .next t → t.runstate = .faulted → raisedBy t.fcode.toNat i

/-! ### The shared operations -/

section

variable {i : Instr} {s : State}

theorem RaisesOnly.raise {f : FaultName} {info : Nat}
    (hf : raisedBy f.code.toNat i := by simp [raisedBy, FaultName.code]) : RaisesOnly i (s.raise f info) := by
  refine ⟨fun t h _ => ?_⟩
  cases h
  exact hf

/-- A command that completes in RUNSTATE = RUN does not fault. -/
theorem RaisesOnly.complete {u : State} (hu : u.runstate = .run) : RaisesOnly i u.complete := by
  refine ⟨fun t h hfaulted => ?_⟩
  cases h
  exact absurd (hu.symm.trans hfaulted) nofun

theorem RaisesOnly.setStream (hrun : s.runstate = .run) (k : StreamId) (bits : List Bool) :
    RaisesOnly i (s.setStream k bits).complete :=
  .complete ((s.setStream_runstate k bits).trans hrun)

theorem RaisesOnly.ite {c : Prop} [Decidable c] {a b : Result} (ha : RaisesOnly i a) (hb : RaisesOnly i b) :
    RaisesOnly i (if c then a else b) := by
  split <;> assumption

/-- A check that raises a listed fault before the rest of the command. -/
theorem RaisesOnly.check {c : Prop} [Decidable c] {f : FaultName} {info : Nat} {b : Result} (hb : RaisesOnly i b)
    (hf : raisedBy f.code.toNat i := by simp [raisedBy, FaultName.code]) :
    RaisesOnly i (if c then s.raise f info else b) :=
  .ite (.raise hf) hb

/-- Append raises MessageTooLarge alone (41_bitstream.md R112). -/
theorem RaisesOnly.appendThen {k : StreamId} {bits : List Bool} {after : State → State}
    (hafter : (after (s.setStream k (s.stream k ++ bits))).runstate = .run)
    (h9 : raisedBy 9 i := by simp [raisedBy]) : RaisesOnly i (s.appendThen k bits after) :=
  .check (.complete hafter) h9

theorem RaisesOnly.append (hrun : s.runstate = .run) {k : StreamId} {bits : List Bool}
    (h9 : raisedBy 9 i := by simp [raisedBy]) : RaisesOnly i (s.appendThen k bits id) :=
  .appendThen ((s.setStream_runstate k _).trans hrun) h9

/-- The common checks of a field command raise InvalidConfig, and OutOfRange for an operand (42_galois_field.md
R130). -/
theorem RaisesOnly.fieldCommand {operands : List Nat} {command : Result} (h : RaisesOnly i command)
    (h10 : raisedBy 10 i := by simp [raisedBy]) (h2 : ∀ a ∈ operands, raisedBy 2 i := by simp [raisedBy]) :
    RaisesOnly i (s.fieldCommand operands command) := by
  rcases s.fieldCommand_cases operands command with ⟨-, e⟩ | ⟨-, ⟨a, ha, -, e⟩ | ⟨-, e⟩⟩ <;> rw [e]
  · exact .raise h10
  · exact .raise (h2 a ha)
  · exact h

/-- Without MT a mode-encoder command raises InvalidConfig (44_mode_encoder.md R180). -/
theorem RaisesOnly.withTable {command : RawTable → Result} (h : ∀ t, RaisesOnly i (command t))
    (h10 : raisedBy 10 i := by simp [raisedBy]) : RaisesOnly i (s.withTable command) := by
  unfold State.withTable
  split
  · exact .raise h10
  · exact h _

/-- A latch raises IllegalTransition, or the fault of its Append (44_mode_encoder.md R186). -/
theorem RaisesOnly.latchTo (hrun : s.runstate = .run) {t : RawTable} {k : StreamId} {m' : Nat}
    (h9 : raisedBy 9 i := by simp [raisedBy]) (h12 : raisedBy 12 i := by simp [raisedBy]) :
    RaisesOnly i (s.latchTo t k m') := by
  rcases s.latchTo_cases t k m' with ⟨-, e⟩ | ⟨-, -, e⟩ | ⟨-, c, -, e⟩ <;> rw [e]
  · exact .raise h12
  · exact .raise h12
  · exact .appendThen (by simpa using hrun) h9

end

/-! ### The commands -/

section

variable {s : State} (hrun : s.runstate = .run)
include hrun

/-- A number that a CSRR word carries names a CSR (30_encoding.md R66 (e)). -/
theorem raisesOnly_execCsrr {csr : BitVec 12} (hcsr : csrReadable csr = true) (rd : Reg) :
    RaisesOnly (.csrr rd csr) (execCsrr rd csr s) := by
  obtain ⟨c, hc⟩ := Option.isSome_iff_exists.1 hcsr
  rw [execCsrr, hc]
  exact .complete hrun

/-- A number that a CSRW word carries names a CSR that can be written (30_encoding.md R66 (e)). -/
theorem raisesOnly_execCsrw {csr : BitVec 12} (hcsr : csrWritable csr = true) (rs1 : Reg) :
    RaisesOnly (.csrw csr rs1) (execCsrw csr rs1 s) := by
  obtain ⟨c, hc, hw⟩ := (Option.any_eq_true ..).1 hcsr
  obtain ⟨u, hu⟩ := Option.isSome_iff_exists.1 ((s.csrWrite_isSome c (s.reg rs1)).trans hw)
  obtain ⟨-, -, -, e⟩ := State.csrWrite_eq_some hu
  rw [execCsrw, hc, Option.bind_some, hu]
  exact .complete (e ▸ hrun)

theorem raisesOnly_execGfBuild : RaisesOnly .gfBuild (execGfBuild s) := by
  unfold execGfBuild
  split
  · exact .raise
  · exact .complete hrun

theorem raisesOnly_execRsEnc (rs1 rs2 : Reg) : RaisesOnly (.rsEnc rs1 rs2) (execRsEnc rs1 rs2 s) := by
  refine .check (.check ?_)
  split
  · exact .raise
  · exact .complete hrun

theorem raisesOnly_execRsChk (rd rs1 rs2 : Reg) : RaisesOnly (.rsChk rd rs1 rs2) (execRsChk rd rs1 rs2 s) := by
  refine .check (.check (.check ?_))
  split
  · exact .raise
  · exact .complete hrun

theorem raisesOnly_execRsDec (rd rs1 rs2 : Reg) : RaisesOnly (.rsDec rd rs1 rs2) (execRsDec rd rs1 rs2 s) := by
  refine .check (.check (.check ?_))
  split
  · exact .raise
  split
  · exact .raise
  split <;> exact .complete hrun

theorem raisesOnly_execMeLatch (k : StreamId) (mode : BitVec 8) :
    RaisesOnly (.meLatch k mode) (execMeLatch k mode s) :=
  .withTable fun _ => .check (.latchTo hrun)

theorem raisesOnly_execMeShift (k : StreamId) (mode : BitVec 8) :
    RaisesOnly (.meShift k mode) (execMeShift k mode s) := by
  refine .withTable fun t => .check (.check ?_)
  split
  · exact .raise
  · exact .appendThen (by simpa using hrun)

theorem raisesOnly_execMeUnlatch (k : StreamId) : RaisesOnly (.meUnlatch k) (execMeUnlatch k s) :=
  .withTable fun _ => .ite (.complete hrun) (.latchTo hrun)

/-- A length that an ME.SYM word carries is 1 or 2 (30_encoding.md R66 (d)). -/
theorem raisesOnly_execMeSym {len : BitVec 2} (hlen : symLenOk len = true) (k : StreamId) (rs1 : Reg) :
    RaisesOnly (.meSym k rs1 len) (execMeSym k rs1 len s) := by
  rw [execMeSym, if_neg (by simp [hlen])]
  refine .withTable fun t => .check ?_
  split
  · exact .raise
  · exact .appendThen (by simpa using hrun)

theorem raisesOnly_execMeBshift (k : StreamId) (rs1 rs2 : Reg) :
    RaisesOnly (.meBshift k rs1 rs2) (execMeBshift k rs1 rs2 s) :=
  .withTable fun _ => .check (.check (.check (.check (.append hrun))))

theorem raisesOnly_execMeEncode (rd : Reg) (k : StreamId) (rs1 rs2 rs3 : Reg) :
    RaisesOnly (.meEncode rd k rs1 rs2 rs3) (execMeEncode rd k rs1 rs2 rs3 s) := by
  unfold execMeEncode State.performPlan
  refine .withTable fun t => .check (.check ?_)
  split
  · exact .raise
  · exact .check (.check (.appendThen (by simpa using hrun)))

/-- Every well-formed command raises only the faults listed for it. -/
theorem raisesOnly_exec {i : Instr} (hi : i.wellFormed = true) (hs : s.streamInv) : RaisesOnly i (exec i s) := by
  cases i with
  | nop => exact .complete hrun
  | halt =>
    refine ⟨fun t h hfaulted => ?_⟩
    cases h
    cases hfaulted
  | li rd imm => exact .complete hrun
  | csrr rd csr => exact raisesOnly_execCsrr hrun hi rd
  | csrw csr rs1 => exact raisesOnly_execCsrw hrun hi rs1
  | ldb rd imm rs1 => exact .check (.complete hrun)
  | stb rs2 imm rs1 => exact .check (.check (.complete hrun))
  | ldc rd imm rs1 => exact .check (.complete hrun)
  | stc rs2 imm rs1 => exact .check (.check (.complete hrun))
  | bsClr k => exact .setStream hrun ..
  | bsAppendbit k rs1 => exact .append hrun
  | bsAppend k rs1 rs2 => exact .check (.check (.append hrun))
  | bsSize rd k => exact .complete hrun
  | bsGet rd k rs1 => exact .check (.complete hrun)
  | bsIsrange rd k rs1 rs2 rs3 => exact .check (.complete hrun)
  | bsTobytes k rs1 rs2 rs3 => exact .check (.check (.check (.complete hrun)))
  | bsReverse k => exact .setStream hrun ..
  | bsCopy k ks rs1 rs2 => exact .check (.append hrun)
  | bsClone k ks => exact .setStream hrun ..
  | bsTerm k =>
    rw [exec_bsTerm (State.stream_length_le hs k)]
    exact .setStream hrun ..
  | gfBuild => exact raisesOnly_execGfBuild hrun
  | gfAdd rd rs1 rs2 => exact .fieldCommand (.complete hrun)
  | gfSub rd rs1 rs2 => exact .fieldCommand (.complete hrun)
  | gfMul rd rs1 rs2 => exact .fieldCommand (.complete hrun)
  | gfDiv rd rs1 rs2 => exact .fieldCommand (.check (.complete hrun))
  | gfInv rd rs1 => exact .fieldCommand (.check (.complete hrun))
  | gfExp rd rs1 => exact .fieldCommand (.complete hrun)
  | gfLog rd rs1 => exact .fieldCommand (.check (.complete hrun))
  | rsEnc rs1 rs2 => exact raisesOnly_execRsEnc hrun ..
  | rsChk rd rs1 rs2 => exact raisesOnly_execRsChk hrun ..
  | rsDec rd rs1 rs2 => exact raisesOnly_execRsDec hrun ..
  | rsErase rs1 => exact .check (.complete hrun)
  | rsErclr => exact .complete hrun
  | meInit => exact .complete hrun
  | meLatch k mode => exact raisesOnly_execMeLatch hrun ..
  | meShift k mode => exact raisesOnly_execMeShift hrun ..
  | meUnlatch k => exact raisesOnly_execMeUnlatch hrun ..
  | meSym k rs1 len => exact raisesOnly_execMeSym hrun hi ..
  | meBshift k rs1 rs2 => exact raisesOnly_execMeBshift hrun ..
  | meEncode rd k rs1 rs2 rs3 => exact raisesOnly_execMeEncode hrun ..

end

/-- No command's row lists IllegalCommand or one of the codes 4 to 7. -/
theorem mem_codes_of_raisedBy {code : Nat} {i : Instr} (h : raisedBy code i) : code ∈ [2, 3, 8, 9, 10, 11, 12] := by
  simp only [List.mem_cons, List.not_mem_nil, or_false]
  cases i <;> simp only [raisedBy] at h <;> omega

/-- Settles O9: every check of a command raises a fault listed for it, and the step itself raises IllegalCommand. -/
theorem faultCodesComeFromListedCommands : Obligations.FaultCodesComeFromListedCommands := by
  refine ⟨fun i s t hi hs hrun => (raisesOnly_exec hrun hi hs).fcode_listed t, fun s t hs h hfaulted => ?_⟩
  cases hf : s.fetch with
  | error f => cases (step_of_quiescent hf).symm.trans h
  | ok w =>
    cases hd : decode w with
    | error e =>
      cases (step_of_illegal hf hd).symm.trans h
      exact List.mem_cons_self
    | ok i =>
      obtain ⟨hrun, -⟩ := State.fetch_ok_iff.1 hf
      have hexec : exec i s = .next t := (step_of_command hf hd).symm.trans h
      have hlisted := (raisesOnly_exec hrun (wellFormed_of_decode hd) hs).fcode_listed t hexec hfaulted
      exact List.mem_cons_of_mem _ (mem_codes_of_raisedBy hlisted)

end Sys2Proof.Machine

/-! ## Quiescence (70_reset_and_hazards.md R252)

A running state has at most the commands from CP to the end of PROG before it. That number falls with every step, so it
bounds the length of the run. -/

namespace Sys2Proof.Machine

/-- How many commands of PROG a run from this state can still execute; none once it has halted or faulted. -/
def State.remaining (s : State) : Nat := if s.runstate = .run then s.prog.length - s.cp.toNat else 0

theorem State.remaining_le (s : State) : s.remaining ≤ s.prog.length - s.cp.toNat := by
  unfold State.remaining
  split <;> omega

theorem State.remaining_eq_zero {s : State} (h : s.runstate ≠ .run) : s.remaining = 0 := if_neg h

theorem State.remaining_of_running {s : State} (h : s.runstate = .run) : s.remaining = s.prog.length - s.cp.toNat :=
  if_pos h

/-- Advancing CP inside PROG does not wrap it (10_state.md R12). -/
theorem State.cpInv.advance_cp_toNat {s : State} (hs : s.cpInv) (hcp : s.cp.toNat < s.prog.length) :
    (s.cp + 1).toNat = s.cp.toNat + 1 := by
  obtain ⟨hlen, -⟩ := hs
  bv_omega

/-- A step leaves CP within PROG and fewer commands to execute. -/
theorem step_decreases_remaining {s t : State} (hs : s.cpInv) (h : step s = .next t) :
    t.cpInv ∧ t.remaining < s.remaining := by
  obtain ⟨w, hrun, hw, hcases⟩ := step_cases h
  have hcp : s.cp.toNat < s.prog.length := (List.getElem?_eq_some_iff.1 hw).1
  have hpos : 0 < s.remaining := by rw [State.remaining_of_running hrun]; omega
  rcases hcases with ⟨f, info, rfl⟩ | ⟨-, rfl⟩ | ⟨i, u, -, -, -, rfl, hu⟩
  · exact ⟨hs, State.remaining_eq_zero (s := s.faultEntry f info) nofun ▸ hpos⟩
  · exact ⟨hs, State.remaining_eq_zero (s := { s with runstate := .halted }) nofun ▸ hpos⟩
  · have hnext := hs.advance_cp_toNat hcp
    rw [State.remaining_of_running hrun, State.remaining_of_running (s := u.advance) (hu.runstate.trans hrun), State.cpInv,
      State.advance_cp, State.advance_prog, hu.cp, hu.prog, hnext]
    exact ⟨⟨hs.1, hcp⟩, by omega⟩

/-- The block is quiescent, or its step leaves fewer commands to execute. -/
theorem step_faults_or_decreases_remaining {s : State} (hs : s.cpInv) :
    (∃ f, step s = .fault f) ∨ ∃ t, step s = .next t ∧ t.cpInv ∧ t.remaining < s.remaining := by
  cases hf : s.fetch with
  | error f => exact .inl ⟨f, step_of_quiescent hf⟩
  | ok w =>
    obtain ⟨t, ht⟩ := step_total hf
    exact .inr ⟨t, ht, step_decreases_remaining hs ht⟩

theorem run_succ_of_next {M : Host.Core} {s t : M.State} (h : M.step s = .next t) (n : Nat) :
    M.run (n + 1) s = M.run n t := by rw [Host.Core.run, h]

theorem run_succ_of_fault {M : Host.Core} {s : M.State} {f : M.Fault} (h : M.step s = .fault f) (n : Nat) :
    M.run (n + 1) s = .fault f := by rw [Host.Core.run, h]

/-- One more step than there are commands to execute finds the block quiescent. -/
theorem run_ends {n : Nat} {s : State} (hs : s.cpInv) (hn : s.remaining ≤ n) : ∃ f, core.run (n + 1) s = .fault f := by
  induction n generalizing s with
  | zero =>
    rcases step_faults_or_decreases_remaining hs with ⟨f, hf⟩ | ⟨t, -, -, hlt⟩
    · exact ⟨f, run_succ_of_fault (M := core) hf 0⟩
    · omega
  | succ n ih =>
    rcases step_faults_or_decreases_remaining hs with ⟨f, hf⟩ | ⟨t, ht, hcp, hlt⟩
    · exact ⟨f, run_succ_of_fault (M := core) hf (n + 1)⟩
    · obtain ⟨f, hrun⟩ := ih hcp (by omega)
      exact ⟨f, (run_succ_of_next (M := core) ht (n + 1)).trans hrun⟩

/-- A step that ends the run leaves CP at its command: a HALT, or the command that EPC names. -/
theorem step_ends_in_place {s t : State} (h : step s = .next t) :
    (t.runstate = .halted → t.cp = s.cp ∧ (s.prog[s.cp.toNat]?).map decode = some (.ok .halt)) ∧
      (t.runstate = .faulted → t.cp = s.cp ∧ t.epc = s.cp) := by
  obtain ⟨w, hrun, hw, hcases⟩ := step_cases h
  rcases hcases with ⟨f, info, rfl⟩ | ⟨hd, rfl⟩ | ⟨i, u, -, -, -, rfl, hu⟩
  · exact ⟨nofun, fun _ => ⟨rfl, rfl⟩⟩
  · exact ⟨fun _ => ⟨rfl, by rw [hw, Option.map_some, hd]⟩, nofun⟩
  · have hrunning : u.advance.runstate = .run := hu.runstate.trans hrun
    exact ⟨fun ht => absurd (hrunning.symm.trans ht) nofun, fun ht => absurd (hrunning.symm.trans ht) nofun⟩

/-- Settles O7: a fetched word always gives a next state, and every step takes one command from those left. -/
theorem quiescenceEndsEveryRun : Obligations.QuiescenceEndsEveryRun := by
  refine ⟨fun s => ⟨?_, ?_, ?_, ?_⟩, fun s t h => step_ends_in_place h, fun s hs => run_ends hs s.remaining_le⟩
  · rintro ⟨hrun, hcp⟩
    exact step_total (State.fetch_ok_iff.2 ⟨hrun, List.getElem?_eq_getElem hcp⟩)
  · exact fun hrun hend => step_of_quiescent (State.fetch_error_iff.2 (.inr (.inr ⟨rfl, hrun, hend⟩)))
  · exact fun hhalted => step_of_quiescent (State.fetch_error_iff.2 (.inl ⟨rfl, hhalted⟩))
  · exact fun hfaulted => step_of_quiescent (State.fetch_error_iff.2 (.inr (.inl ⟨rfl, hfaulted⟩)))

end Sys2Proof.Machine

/-! ## Launch (70_reset_and_hazards.md R251) -/

namespace Sys2Proof.Machine

/-- The host's writes of consecutive entries are one `Memory.writeList`, when they stay within the space; `put` stores the
space's contents in the state. -/
theorem foldl_hostWrite {w cap : Nat} {put : Memory w → State} {hostWrite : State → Nat → BitVec w → State}
    (hput : ∀ m a v, a < cap → hostWrite (put m) a v = put (m.write a v)) {vs : List (BitVec w)} (m : Memory w) {a : Nat}
    (h : a + vs.length ≤ cap) :
    (vs.zipIdx a).foldl (fun s p => hostWrite s p.2 p.1) (put m) = put (m.writeList a vs) := by
  induction vs generalizing m a with
  | nil => rfl
  | cons v vs ih =>
    rw [List.length_cons] at h
    rw [List.zipIdx_cons, List.foldl_cons, hput m a v (by omega), ih _ (by omega), Memory.writeList]

/-- The reset state with contents of BUF and CW. -/
def State.preloaded (params : Params) (mt : Option ModeTable) (prog : List CmdWord) (buf : Memory 8) (cw : Memory 16) :
    State := { State.afterReset params mt prog with buf := buf, cw := cw }

section

variable {params : Params} (mt : Option ModeTable) (prog : List CmdWord)

theorem State.hostWriteBuf_preloaded (cw : Memory 16) (m : Memory 8) (a : Nat) (v : Byte) (h : a < params.bufCap) :
    (State.preloaded params mt prog m cw).hostWriteBuf a v = State.preloaded params mt prog (m.write a v) cw := if_pos h

theorem State.hostWriteCw_preloaded (buf : Memory 8) (m : Memory 16) (a : Nat) (v : BitVec 16) (h : a < params.cwCap) :
    (State.preloaded params mt prog buf m).hostWriteCw a v = State.preloaded params mt prog buf (m.write a v) := if_pos h

/-- The launch state: reset, but for the preloaded BUF and CW (70_reset_and_hazards.md R251). -/
theorem State.launch_eq {buf : List Byte} {cw : List (BitVec 16)} (hbuf : buf.length ≤ params.bufCap)
    (hcw : cw.length ≤ params.cwCap) : State.launch params mt prog buf cw =
      State.preloaded params mt prog (Memory.writeList [] 0 buf) (Memory.writeList [] 0 cw) := by
  have hloadBuf := foldl_hostWrite (State.hostWriteBuf_preloaded mt prog []) [] ((Nat.zero_add _).trans_le hbuf)
  have hloadCw := foldl_hostWrite (State.hostWriteCw_preloaded mt prog (Memory.writeList [] 0 buf)) []
    ((Nat.zero_add _).trans_le hcw)
  exact (congrArg (cw.zipIdx.foldl fun s p => s.hostWriteCw p.2 p.1) hloadBuf).trans hloadCw

/-- A launch meets the invariant: it is the reset state but for two canonical memories. -/
theorem State.launch_inv {prog : List CmdWord} {buf : List Byte} {cw : List (BitVec 16)} (hprog : prog.length < 2 ^ 32)
    (hbuf : buf.length ≤ params.bufCap) (hcw : cw.length ≤ params.cwCap) :
    (State.launch params mt prog buf cw).Inv := by
  have hmemory := State.launch_memoryInv params mt prog buf cw
  rw [State.launch_eq mt prog hbuf hcw] at hmemory ⊢
  exact { State.afterReset_inv params mt hprog with memory := hmemory }

end

/-- A space loaded from index 0 up reads back the entries, and 0 beyond them (10_state.md R26). -/
theorem Memory.read_loaded {w : Nat} (vs : List (BitVec w)) (a : Nat) :
    (Memory.writeList [] 0 vs).read a = vs.getD a 0 := by
  rw [Memory.read_writeList (Memory.wf_nil vs.length) (by omega)]
  split
  · rw [Nat.sub_zero]
  · rw [Memory.read_nil, List.getD_eq_default _ _ (by omega)]

/-- Settles O11: the launch state is the reset state with BUF and CW loaded from index 0. -/
theorem launchLoadsBuffers : Obligations.LaunchLoadsBuffers := by
  intro params mt prog buf cw hprog hbuf hcw
  refine ⟨State.launch_inv mt hprog hbuf hcw, ?_⟩
  rw [State.launch_eq mt prog hbuf hcw]
  exact ⟨Memory.read_loaded buf, Memory.read_loaded cw, rfl⟩

end Sys2Proof.Machine

/-! ## A command elsewhere in a program (70_reset_and_hazards.md R251)

`RunsAlike` relates the answer of a command to its answer with another PROG and CP. A shared operation has it when what
follows the operation has it, since no check and no value a command computes reads PROG or CP. -/

namespace Sys2Proof.Machine

/-- The same state at another place of another program. -/
def State.movedTo (s : State) (prog : List CmdWord) (cp : Word) : State := { s with prog := prog, cp := cp }

theorem relocate_advance {u : State} (hu : u.runstate = .run) (prog : List CmdWord) (cp : Word) :
    relocate u.advance prog cp = (u.movedTo prog cp).advance := by
  unfold relocate
  split
  · rfl
  · next h => exact absurd (hu.symm.trans h) nofun
  · next h => exact absurd (hu.symm.trans h) nofun

/-! ### What a command reads and writes there -/

section

variable (s : State) (prog : List CmdWord) (cp : Word)

@[simp] theorem State.stream_movedTo (k : StreamId) : (s.movedTo prog cp).stream k = s.stream k := by cases k <;> rfl

@[simp] theorem State.setStream_movedTo (k : StreamId) (bits : List Bool) :
    (s.movedTo prog cp).setStream k bits = (s.setStream k bits).movedTo prog cp := by cases k <;> rfl

@[simp] theorem State.csrRead_movedTo (c : Csr) : (s.movedTo prog cp).csrRead c = s.csrRead c := by cases c <;> rfl

@[simp] theorem State.val_movedTo (r : Reg) : (s.movedTo prog cp).val r = s.val r := rfl

@[simp] theorem State.size_movedTo (k : StreamId) : (s.movedTo prog cp).size k = s.size k := by cases k <;> rfl

@[simp] theorem State.mt_movedTo : (s.movedTo prog cp).mt = s.mt := rfl

@[simp] theorem State.mode_movedTo : (s.movedTo prog cp).mode = s.mode := rfl

@[simp] theorem State.effMode_movedTo : (s.movedTo prog cp).effMode = s.effMode := rfl

@[simp] theorem State.window_movedTo (o l : Nat) : (s.movedTo prog cp).window o l = s.window o l := rfl

@[simp] theorem State.buildResult_movedTo : (s.movedTo prog cp).buildResult = s.buildResult := rfl

@[simp] theorem State.field_movedTo : (s.movedTo prog cp).field = s.field := rfl

@[simp] theorem State.base_movedTo : (s.movedTo prog cp).base = s.base := rfl

@[simp] theorem State.operandFault_movedTo (operands : List Nat) :
    (s.movedTo prog cp).operandFault operands = s.operandFault operands := rfl

@[simp] theorem State.codewords_movedTo (n : Nat) : (s.movedTo prog cp).codewords n = s.codewords n := rfl

@[simp] theorem State.erasures_movedTo (n : Nat) : (s.movedTo prog cp).erasures n = s.erasures n := rfl

@[simp] theorem State.badCodeword_movedTo (n : Nat) : (s.movedTo prog cp).badCodeword n = s.badCodeword n := rfl

@[simp] theorem State.badErasure_movedTo (n : Nat) : (s.movedTo prog cp).badErasure n = s.badErasure n := rfl

end

/-- The answer r' is the answer r of a running state moved to another place of another program. -/
structure RunsAlike (prog : List CmdWord) (cp : Word) (r r' : Result) : Prop where
  eq_relocate : ∀ t, r = .next t → r' = .next (relocate t prog cp)

/-! ### The shared operations -/

section

variable {prog : List CmdWord} {cp : Word} {s : State}

theorem RunsAlike.raise (f : FaultName) (info : Nat) :
    RunsAlike prog cp (s.raise f info) ((s.movedTo prog cp).raise f info) := by
  refine ⟨fun t h => ?_⟩
  cases h
  rfl

theorem RunsAlike.complete {u : State} (hu : u.runstate = .run) :
    RunsAlike prog cp u.complete (u.movedTo prog cp).complete := by
  refine ⟨fun t h => ?_⟩
  cases h
  rw [relocate_advance hu, State.complete]

theorem RunsAlike.ite {c : Prop} [Decidable c] {a a' b b' : Result} (ha : RunsAlike prog cp a a')
    (hb : RunsAlike prog cp b b') : RunsAlike prog cp (if c then a else b) (if c then a' else b') := by
  split <;> assumption

theorem RunsAlike.check {c : Prop} [Decidable c] {f : FaultName} {info : Nat} {b b' : Result}
    (hb : RunsAlike prog cp b b') :
    RunsAlike prog cp (if c then s.raise f info else b) (if c then (s.movedTo prog cp).raise f info else b') :=
  .ite (.raise f info) hb

theorem RunsAlike.setStream (hrun : s.runstate = .run) (k : StreamId) (bits : List Bool) :
    RunsAlike prog cp (s.setStream k bits).complete ((s.movedTo prog cp).setStream k bits).complete := by
  rw [State.setStream_movedTo]
  exact .complete ((s.setStream_runstate k bits).trans hrun)

theorem RunsAlike.appendThen (hrun : s.runstate = .run) {k : StreamId} {bits : List Bool} {after : State → State}
    (hmove : ∀ u : State, after (u.movedTo prog cp) = (after u).movedTo prog cp)
    (hafter : ∀ u : State, (after u).runstate = u.runstate) :
    RunsAlike prog cp (s.appendThen k bits after) ((s.movedTo prog cp).appendThen k bits after) := by
  simp only [State.appendThen, State.size_movedTo, State.stream_movedTo, State.setStream_movedTo, hmove]
  exact .check (.complete ((hafter _).trans ((s.setStream_runstate k _).trans hrun)))

theorem RunsAlike.append (hrun : s.runstate = .run) {k : StreamId} {bits : List Bool} :
    RunsAlike prog cp (s.appendThen k bits id) ((s.movedTo prog cp).appendThen k bits id) :=
  .appendThen hrun (fun _ => rfl) (fun _ => rfl)

theorem RunsAlike.fieldCommand {operands : List Nat} {command command' : Result}
    (h : RunsAlike prog cp command command') :
    RunsAlike prog cp (s.fieldCommand operands command) ((s.movedTo prog cp).fieldCommand operands command') := by
  rw [State.fieldCommand, State.fieldCommand, State.operandFault_movedTo]
  split
  · exact .raise ..
  · exact h

theorem RunsAlike.withTable {command command' : RawTable → Result}
    (h : ∀ t, RunsAlike prog cp (command t) (command' t)) :
    RunsAlike prog cp (s.withTable command) ((s.movedTo prog cp).withTable command') := by
  rw [State.withTable, State.withTable, State.mt_movedTo]
  split
  · exact .raise ..
  · exact h _

theorem RunsAlike.latchTo (hrun : s.runstate = .run) (t : RawTable) (k : StreamId) (m' : Nat) :
    RunsAlike prog cp (s.latchTo t k m') ((s.movedTo prog cp).latchTo t k m') := by
  refine .check ?_
  rw [State.mode_movedTo]
  split
  · exact .raise ..
  · exact .appendThen hrun (fun _ => rfl) fun _ => rfl

theorem RunsAlike.performPlan (hrun : s.runstate = .run) (t : RawTable) (rd : Reg) (k : StreamId) (msg : List Byte)
    (c : Nat) : RunsAlike prog cp (s.performPlan t rd k msg c) ((s.movedTo prog cp).performPlan t rd k msg c) := by
  simp only [State.performPlan, State.mode_movedTo]
  exact .appendThen hrun (fun _ => rfl) fun _ => rfl

end

/-! ### The commands -/

section

variable {s : State} (hrun : s.runstate = .run) (prog : List CmdWord) (cp : Word)
include hrun

theorem runsAlike_execCsrr (rd : Reg) (csr : BitVec 12) :
    RunsAlike prog cp (execCsrr rd csr s) (execCsrr rd csr (s.movedTo prog cp)) := by
  simp only [execCsrr, State.csrRead_movedTo]
  split
  · exact .raise ..
  · exact .complete hrun

theorem runsAlike_execCsrw (csr : BitVec 12) (rs1 : Reg) :
    RunsAlike prog cp (execCsrw csr rs1 s) (execCsrw csr rs1 (s.movedTo prog cp)) := by
  rw [execCsrw, execCsrw]
  cases Csr.ofNumber csr with
  | none => exact .raise ..
  | some c =>
    cases c with
    | gfKind | gfSize | gfPoly | gfAlpha | gfBase => exact .complete hrun
    | _ => exact .raise ..

theorem runsAlike_execGfBuild : RunsAlike prog cp (execGfBuild s) (execGfBuild (s.movedTo prog cp)) := by
  rw [execGfBuild, execGfBuild, State.buildResult_movedTo]
  split
  · exact .raise ..
  · exact .complete hrun

theorem runsAlike_execRsEnc (rs1 rs2 : Reg) :
    RunsAlike prog cp (execRsEnc rs1 rs2 s) (execRsEnc rs1 rs2 (s.movedTo prog cp)) := by
  refine .check (.check ?_)
  simp only [State.val_movedTo, State.badCodeword_movedTo]
  split
  · exact .raise ..
  · exact .complete hrun

theorem runsAlike_execRsChk (rd rs1 rs2 : Reg) :
    RunsAlike prog cp (execRsChk rd rs1 rs2 s) (execRsChk rd rs1 rs2 (s.movedTo prog cp)) := by
  refine .check (.check (.check ?_))
  simp only [State.val_movedTo, State.badCodeword_movedTo]
  split
  · exact .raise ..
  · exact .complete hrun

theorem runsAlike_execRsDec (rd rs1 rs2 : Reg) :
    RunsAlike prog cp (execRsDec rd rs1 rs2 s) (execRsDec rd rs1 rs2 (s.movedTo prog cp)) := by
  refine .check (.check (.check ?_))
  simp only [State.val_movedTo, State.badCodeword_movedTo, State.badErasure_movedTo, State.field_movedTo,
    State.base_movedTo, State.erasures_movedTo, State.codewords_movedTo]
  split
  · exact .raise ..
  split
  · exact .raise ..
  split <;> exact .complete hrun

theorem runsAlike_execMeLatch (k : StreamId) (mode : BitVec 8) :
    RunsAlike prog cp (execMeLatch k mode s) (execMeLatch k mode (s.movedTo prog cp)) :=
  .withTable fun _ => .check (.latchTo hrun ..)

theorem runsAlike_execMeShift (k : StreamId) (mode : BitVec 8) :
    RunsAlike prog cp (execMeShift k mode s) (execMeShift k mode (s.movedTo prog cp)) := by
  refine .withTable fun t => .check (.check ?_)
  rw [State.mode_movedTo]
  split
  · exact .raise ..
  · exact .appendThen hrun (fun _ => rfl) fun _ => rfl

theorem runsAlike_execMeUnlatch (k : StreamId) :
    RunsAlike prog cp (execMeUnlatch k s) (execMeUnlatch k (s.movedTo prog cp)) :=
  .withTable fun _ => .ite (.complete hrun) (.latchTo hrun ..)

theorem runsAlike_execMeSym (k : StreamId) (rs1 : Reg) (len : BitVec 2) :
    RunsAlike prog cp (execMeSym k rs1 len s) (execMeSym k rs1 len (s.movedTo prog cp)) := by
  refine .check (.withTable fun t => .check ?_)
  simp only [State.val_movedTo, State.effMode_movedTo, State.window_movedTo]
  split
  · exact .raise ..
  · exact .appendThen hrun (fun _ => rfl) fun _ => rfl

theorem runsAlike_execMeBshift (k : StreamId) (rs1 rs2 : Reg) :
    RunsAlike prog cp (execMeBshift k rs1 rs2 s) (execMeBshift k rs1 rs2 (s.movedTo prog cp)) :=
  .withTable fun _ => .check (.check (.check (.check (.append hrun))))

theorem runsAlike_execMeEncode (rd : Reg) (k : StreamId) (rs1 rs2 rs3 : Reg) :
    RunsAlike prog cp (execMeEncode rd k rs1 rs2 rs3 s) (execMeEncode rd k rs1 rs2 rs3 (s.movedTo prog cp)) := by
  refine .withTable fun t => .check (.check ?_)
  simp only [State.val_movedTo, State.mode_movedTo, State.window_movedTo]
  split
  · exact .raise ..
  · exact .check (.check (.performPlan hrun ..))

/-- A running command at another place of another program runs alike (R251). -/
theorem runsAlike_exec (i : Instr) : RunsAlike prog cp (exec i s) (exec i (s.movedTo prog cp)) := by
  cases i with
  | nop => exact .complete hrun
  | halt =>
    refine ⟨fun t h => ?_⟩
    cases h
    rfl
  | li rd imm => exact .complete hrun
  | csrr rd csr => exact runsAlike_execCsrr hrun ..
  | csrw csr rs1 => exact runsAlike_execCsrw hrun ..
  | ldb rd imm rs1 => exact .check (.complete hrun)
  | stb rs2 imm rs1 => exact .check (.check (.complete hrun))
  | ldc rd imm rs1 => exact .check (.complete hrun)
  | stc rs2 imm rs1 => exact .check (.check (.complete hrun))
  | bsClr k => exact .setStream hrun ..
  | bsAppendbit k rs1 => exact .append hrun
  | bsAppend k rs1 rs2 => exact .check (.check (.append hrun))
  | bsSize rd k =>
    rw [exec, exec, execBsSize, execBsSize, State.size_movedTo]
    exact .complete hrun
  | bsGet rd k rs1 =>
    simp only [exec, execBsGet, State.size_movedTo, State.stream_movedTo]
    exact .check (.complete hrun)
  | bsIsrange rd k rs1 rs2 rs3 =>
    simp only [exec, execBsIsrange, State.size_movedTo, State.stream_movedTo]
    exact .check (.complete hrun)
  | bsTobytes k rs1 rs2 rs3 =>
    simp only [exec, execBsTobytes, State.size_movedTo, State.stream_movedTo]
    exact .check (.check (.check (.complete hrun)))
  | bsReverse k =>
    rw [exec, exec, execBsReverse, execBsReverse, State.stream_movedTo]
    exact .setStream hrun ..
  | bsCopy k ks rs1 rs2 =>
    simp only [exec, execBsCopy, State.size_movedTo, State.stream_movedTo]
    exact .check (.append hrun)
  | bsClone k ks =>
    rw [exec, exec, execBsClone, execBsClone, State.stream_movedTo]
    exact .setStream hrun ..
  | bsTerm k =>
    rw [exec, exec, execBsTerm, execBsTerm, State.size_movedTo]
    exact .append hrun
  | gfBuild => exact runsAlike_execGfBuild hrun ..
  | gfAdd rd rs1 rs2 => exact .fieldCommand (.complete hrun)
  | gfSub rd rs1 rs2 => exact .fieldCommand (.complete hrun)
  | gfMul rd rs1 rs2 => exact .fieldCommand (.complete hrun)
  | gfDiv rd rs1 rs2 => exact .fieldCommand (.check (.complete hrun))
  | gfInv rd rs1 => exact .fieldCommand (.check (.complete hrun))
  | gfExp rd rs1 => exact .fieldCommand (.complete hrun)
  | gfLog rd rs1 => exact .fieldCommand (.check (.complete hrun))
  | rsEnc rs1 rs2 => exact runsAlike_execRsEnc hrun ..
  | rsChk rd rs1 rs2 => exact runsAlike_execRsChk hrun ..
  | rsDec rd rs1 rs2 => exact runsAlike_execRsDec hrun ..
  | rsErase rs1 => exact .check (.complete hrun)
  | rsErclr => exact .complete hrun
  | meInit => exact .complete hrun
  | meLatch k mode => exact runsAlike_execMeLatch hrun ..
  | meShift k mode => exact runsAlike_execMeShift hrun ..
  | meUnlatch k => exact runsAlike_execMeUnlatch hrun ..
  | meSym k rs1 len => exact runsAlike_execMeSym hrun ..
  | meBshift k rs1 rs2 => exact runsAlike_execMeBshift hrun ..
  | meEncode rd k rs1 rs2 rs3 => exact runsAlike_execMeEncode hrun ..

end

/-- Settles O19: a command reads neither PROG nor CP. -/
theorem effectIndependentOfPlaceInProgram : Obligations.EffectIndependentOfPlaceInProgram :=
  fun i _ t prog cp hrun h => (runsAlike_exec hrun prog cp i).eq_relocate t h

end Sys2Proof.Machine
